-- ==== Sys2Proof/Word.lean ====
section
/-! DEFINITION. The block's smallest data: bytes, `LEN_W`-bit words, the fields of a match token, a token. -/

namespace Sys2Proof

/-- A byte (00_scope R8). -/
abbrev Byte := BitVec 8

/-- A `LEN_W`-bit quantity: length, capacity, cursor, count, table entry, host register.
`LEN_W = 32` and `POS_W = LEN_W` (00_scope R7). DESIGN CHOICE, log entry 1. -/
abbrev Word := BitVec 32

/-- The 6-bit length field of a match token, `L = mlen - 3` (30_encoding R93). -/
abbrev LenField := BitVec 6

/-- The 10-bit offset field of a match token (30_encoding R93); also a match-table index (40 R122). -/
abbrev OffField := BitVec 10

/-- The word that holds the exact number `n`. Every use stands beside a bound that shows `n` fits (00_scope R8). -/
abbrev wordOf (n : Nat) : Word := BitVec.ofNat 32 n

theorem wordOf_toNat {n : Nat} (h : n < 2 ^ 32) : (wordOf n).toNat = n := by
  rw [BitVec.toNat_ofNat, Nat.mod_eq_of_lt h]

/-- A token of the stream: a literal byte or a match (30_encoding R90). -/
inductive Token where
  | lit (b : Byte)
  | mat (len : LenField) (off : OffField)
deriving DecidableEq, Repr

end Sys2Proof
end

