-- ==== Sys2Proof/Config.lean ====
section
/-! DEFINITION. Constants of the format (00_scope R5), the parameters with the value this hardware takes (00_scope R7),
and the free values: constants without a body, of which nothing can be proved. -/

namespace Sys2Proof.Config

/-- Shortest match (00_scope R5). -/
@[simp] abbrev matchMin : Nat := 3

/-- Longest match, `MATCH_MIN + 2^MATCH_BITS - 1` (00_scope R5, R6). -/
@[simp] abbrev matchMax : Nat := 66

/-- Slots of the match table (00_scope R5). -/
@[simp] abbrev tableSize : Nat := 1024

/-- Positions of a memory space are `LEN_W`-bit numbers (20_memory R60). -/
@[simp] abbrev spaceSize : Nat := 4294967296

/-- `ENC_ABORT_SLACK`, the constant of the headroom test (00_scope R7, 41 R141).
PRESUMED by the spec itself (G2): log entry 3. -/
@[simp] abbrev encAbortSlack : Nat := 17

/-- Constant term of the size bound (00_scope R5, 44 R214). -/
@[simp] abbrev boundPad : Nat := 16

/-- What the decoder does with offset 0: the two admissible values of `DEC_ZERO_OFFSET` (43 R187). -/
inductive ZeroOffset where
  | badData
  | replayUnwritten
deriving DecidableEq, Repr

/-- `DEC_ZERO_OFFSET`: this hardware takes `bad_data` (00_scope R7, 43 R187). DESIGN CHOICE of the spec, log entry 4. -/
def decZeroOffset : ZeroOffset := .badData

/-- Free value: the candidate position when `off > E.spos`, which 40 R125 calls meaningless. DESIGN CHOICE, log entry 8. -/
opaque candOutOfRange : Word → OffField → Word

/-- Free value: the bytes a reset during `BUSY` leaves in the destination of the abandoned call (70 R261, 93 U14).
DESIGN CHOICE, log entry 16. -/
opaque freeByte : Nat → Byte

end Sys2Proof.Config
end

