-- ==== Sys2Proof/Syntax.lean ====
section
/-! DEFINITION. The instructions: one constructor per row of spec/opcode_table.json. -/

namespace Sys2Proof

/-- Every row of the opcode table: stream elements, host operations, micro-operations (30_encoding R105),
pseudo-instructions (R107). -/
inductive Instr where
  /-- `MAP v`: the copy-map byte (30 R91). -/
  | map (bits : Byte)
  /-- `LIT v`: a literal token (30 R92). -/
  | lit (b : Byte)
  /-- `MATCH len, off`: a match token by its two fields, `len` the field `mlen - 3` (30 R93). -/
  | matchTok (len : LenField) (off : OffField)
  /-- `MATCH.RESERVED_OFF0`: a match token whose offset field is 0 (30 R99). -/
  | matchReserved (len : LenField)
  /-- `ENC_START`: a write to register 2 of a value with bit 0 set (30 R104). -/
  | encStart (value : Word)
  /-- `DEC_START`: a write to register 7 of a value with bit 0 set (30 R104). -/
  | decStart (value : Word)
  /-- `WR reg, value` (44 R212). -/
  | wr (reg : Nat) (value : Word)
  /-- `RD reg` (44 R213). -/
  | rd (reg : Nat)
  /-- `E.TAILGUARD` (40 R120). -/
  | eTailguard
  /-- `E.HASH3` (40 R121). -/
  | eHash3
  /-- `E.TINDEX` (40 R122). -/
  | eTindex
  /-- `E.TLOOKUP` (40 R123). -/
  | eTlookup
  /-- `E.OFFSET` (40 R124). -/
  | eOffset
  /-- `E.CAND` (40 R125). -/
  | eCand
  /-- `E.CMP3` (40 R126). -/
  | eCmp3
  /-- `E.ACCEPT` (40 R127). -/
  | eAccept
  /-- `E.ADVANCE` (40 R129). -/
  | eAdvance
  /-- `E.FRAME` (41 R140). -/
  | eFrame
  /-- `E.HEADROOM` (41 R141). -/
  | eHeadroom
  /-- `E.MAPALLOC` (41 R142). -/
  | eMapalloc
  /-- `E.SETBIT` (41 R143). -/
  | eSetbit
  /-- `E.EXTEND` (42 R155). -/
  | eExtend
  /-- `E.EMIT_MATCH` (42 R156). -/
  | eEmitMatch
  /-- `E.EMIT_LIT` (42 R157). -/
  | eEmitLit
  /-- `E.STEP`: one token step of the encoder (42 R158). -/
  | eStep
  /-- `D.FRAME` (43 R180). -/
  | dFrame
  /-- `D.SELECT` (43 R182). -/
  | dSelect
  /-- `D.LIT` (43 R183). -/
  | dLit
  /-- `D.MATCH` (43 R184). -/
  | dMatch
  /-- `D.REPLAY` (43 R189). -/
  | dReplay
  /-- `D.STEP`: one token step of the decoder (43 R191). -/
  | dStep
  /-- `GROUP t0; ...; tn`: a MAP byte and 1 to 8 tokens (30 R107). -/
  | group (toks : List Token)
  /-- `LITS "s"`: one LIT per character (30 R107). -/
  | lits (bytes : List Byte)
  /-- `WAIT ENC`: a loop of `RD ENC_STATUS` until DONE (30 R107). -/
  | waitEnc
  /-- `WAIT DEC`: a loop of `RD DEC_STATUS` until DONE (30 R107). -/
  | waitDec
deriving DecidableEq, Repr

end Sys2Proof
end

