-- ==== Sys2Proof/WellFormed.lean ====
section
/-! DEFINITION. Which terms of `Instr` the spec gives an encoding or a notation to. -/

namespace Sys2Proof

/-- A register write that issues a start command: bit 0 set, to register 2 or 7 (30 R104). -/
def isStartWrite (reg : Nat) (value : Word) : Bool :=
  value.getLsbD 0 && (reg == 2 || reg == 7)

/-- Well-formed instructions.
A `MATCH` has a nonzero offset, the reserved row being a constructor of its own (30 R93, R99).
A start command's value has bit 0 set and a plain `WR` is no start command (30 R104).
A `GROUP` has 1 to 8 tokens (30 R107). Everything else has no constraint its types do not already give. -/
def Instr.wf : Instr → Bool
  | .matchTok _ off => off != 0
  | .encStart v => v.getLsbD 0
  | .decStart v => v.getLsbD 0
  | .wr reg v => !isStartWrite reg v
  | .group toks => decide (1 ≤ toks.length) && decide (toks.length ≤ 8)
  | .map _ | .lit _ | .matchReserved _ | .rd _ => true
  | .eTailguard | .eHash3 | .eTindex | .eTlookup | .eOffset | .eCand | .eCmp3 | .eAccept | .eAdvance => true
  | .eFrame | .eHeadroom | .eMapalloc | .eSetbit | .eExtend | .eEmitMatch | .eEmitLit | .eStep => true
  | .dFrame | .dSelect | .dLit | .dMatch | .dReplay | .dStep => true
  | .lits _ | .waitEnc | .waitDec => true

end Sys2Proof
end

