-- ==== Sys2Proof/Decode.lean ====
section
/-! DEFINITION. Decoding of stream elements and host accesses, total and rejecting by name; then the encoder, the
assembler of the pseudo-instructions and the disassembler, all from 30_encoding. -/

namespace Sys2Proof

/-- What the decoder expects at a stream position. An element has no opcode bits: its kind is given by its position
and, for tokens, by its copy-map bit (30 R91 to R93, R97). -/
inductive ElementKind where
  | map
  | lit
  | mat
deriving DecidableEq, Repr

/-- One access of the host to the register file, by register number (10 R30, 30 R104). -/
inductive HostAccess where
  | read (reg : Nat)
  | write (reg : Nat) (value : Word)
deriving DecidableEq, Repr

/-- The encoded form of an instruction: bytes at a stream position of some kind, or a register access. -/
inductive Encoding where
  | element (kind : ElementKind) (bytes : List Byte)
  | access (a : HostAccess)
deriving DecidableEq, Repr

/-- Why bytes do not decode. -/
inductive DecodeError where
  /-- No byte is left at all. -/
  | noBytes
  /-- One byte is left for a two-byte match token (30 R100). -/
  | truncatedMatch
  /-- Bytes are left after the element. -/
  | trailingBytes
deriving DecidableEq, Repr

/-- `L = byte0[7:2]` (30 R93, R94). -/
def lenOfByte0 (b0 : Byte) : LenField := (b0 >>> 2).setWidth 6

/-- `offset = ((byte0 << 8) | byte1) & 0x3FF` (30 R95). -/
def offOfBytes (b0 b1 : Byte) : OffField :=
  (((b0.setWidth 16 <<< 8) ||| b1.setWidth 16) &&& 0x3FF#16).setWidth 10

/-- `mlen = L + MATCH_MIN` (30 R94). -/
def mlenOf (len : LenField) : Nat := len.toNat + 3

/-- `L = mlen - 3`, defined for `3 <= mlen <= 66` (30 R94). -/
def lenFieldOf (mlen : Nat) : LenField := BitVec.ofNat 6 (mlen - 3)

/-- `byte0 = ((mlen - 3) << 2) | (offset >> 8)` (30 R95). -/
def byte0Of (len : LenField) (off : OffField) : Byte :=
  (len.setWidth 8 <<< 2) ||| (off >>> 8).setWidth 8

/-- `byte1 = offset & 0xFF` (30 R95). -/
def byte1Of (off : OffField) : Byte := off.setWidth 8

/-- The instruction of the two bytes of a match token; offset 0 is the reserved row (30 R93, R99). -/
def decodeMatch (b0 b1 : Byte) : Instr :=
  if offOfBytes b0 b1 = 0 then .matchReserved (lenOfByte0 b0)
  else .matchTok (lenOfByte0 b0) (offOfBytes b0 b1)

/-- Decode the element of the given kind at the head of the bytes; also the bytes that follow it (30 R97). -/
def decodeElement : ElementKind → List Byte → Except DecodeError (Instr × List Byte)
  | _, [] => .error .noBytes
  | .map, b :: rest => .ok (.map b, rest)
  | .lit, b :: rest => .ok (.lit b, rest)
  | .mat, [_] => .error .truncatedMatch
  | .mat, b0 :: b1 :: rest => .ok (decodeMatch b0 b1, rest)

/-- Decode a register access: a write of a value with bit 0 set to register 2 or 7 is a start command, every other
write is a plain `WR` (30 R104). -/
def decodeAccess : HostAccess → Instr
  | .read reg => .rd reg
  | .write reg value =>
    if value.getLsbD 0 && reg == 2 then .encStart value
    else if value.getLsbD 0 && reg == 7 then .decStart value
    else .wr reg value

/-- Decode one encoded instruction, with nothing left over. -/
def decode : Encoding → Except DecodeError Instr
  | .access a => .ok (decodeAccess a)
  | .element kind bytes =>
    match decodeElement kind bytes with
    | .ok (i, []) => .ok i
    | .ok (_, _ :: _) => .error .trailingBytes
    | .error e => .error e

/-- The encoding of an instruction. Micro-operations have none (30 R105); the pseudo-instructions `GROUP` and `LITS`
assemble to several elements (`assemble`), the waits to a loop of reads (30 R107). -/
def encode : Instr → Option Encoding
  | .map bits => some (.element .map [bits])
  | .lit b => some (.element .lit [b])
  | .matchTok len off => some (.element .mat [byte0Of len off, byte1Of off])
  | .matchReserved len => some (.element .mat [byte0Of len 0, byte1Of 0])
  | .encStart value => some (.access (.write 2 value))
  | .decStart value => some (.access (.write 7 value))
  | .wr reg value => some (.access (.write reg value))
  | .rd reg => some (.access (.read reg))
  | .eTailguard | .eHash3 | .eTindex | .eTlookup | .eOffset | .eCand | .eCmp3 | .eAccept | .eAdvance => none
  | .eFrame | .eHeadroom | .eMapalloc | .eSetbit | .eExtend | .eEmitMatch | .eEmitLit | .eStep => none
  | .dFrame | .dSelect | .dLit | .dMatch | .dReplay | .dStep => none
  | .group _ | .lits _ | .waitEnc | .waitDec => none

/-- Whether a token is a match: its copy-map bit (30 R91). -/
def tokenIsMatch : Token → Bool
  | .lit _ => false
  | .mat _ _ => true

/-- The bytes of a token (30 R92, R93, R106). -/
def tokenBytes : Token → List Byte
  | .lit b => [b]
  | .mat len off => [byte0Of len off, byte1Of off]

/-- The bytes of a list of tokens, in order. -/
def tokensBytes : List Token → List Byte
  | [] => []
  | t :: ts => tokenBytes t ++ tokensBytes ts

/-- The `MAP` value of tokens that begin at position `i` of a group: the sum of `1 << i` over the positions that
hold a match (30 R107). -/
def groupMapFrom (i : Nat) : List Token → Byte
  | [] => 0
  | t :: ts => (if tokenIsMatch t then 1#8 <<< i else 0) ||| groupMapFrom (i + 1) ts

/-- The `MAP` value of a group (30 R107). -/
def groupMap (toks : List Token) : Byte := groupMapFrom 0 toks

/-- The bytes an instruction of the stream, or a stream pseudo-instruction, assembles to (30 R106, R107). -/
def assemble : Instr → List Byte
  | .map bits => [bits]
  | .lit b => [b]
  | .matchTok len off => [byte0Of len off, byte1Of off]
  | .matchReserved len => [byte0Of len 0, byte1Of 0]
  | .group toks => groupMap toks :: tokensBytes toks
  | .lits bytes => bytes
  | _ => []

/-- The disassembler's walk (30 R97, R106): `left` tokens of the current group are still to come and bit 0 of `bits`
is the copy-map bit of the next one; with none left the next byte is a `MAP`. -/
def disassembleFrom : Nat → Byte → List Byte → Except DecodeError (List Instr)
  | _, _, [] => .ok []
  | 0, _, b :: rest =>
    match disassembleFrom 8 b rest with
    | .ok is => .ok (.map b :: is)
    | .error e => .error e
  | left + 1, bits, b :: rest =>
    if bits.getLsbD 0 then
      match rest with
      | [] => .error .truncatedMatch
      | b1 :: rest' =>
        match disassembleFrom left (bits >>> 1) rest' with
        | .ok is => .ok (decodeMatch b b1 :: is)
        | .error e => .error e
    else
      match disassembleFrom left (bits >>> 1) rest with
      | .ok is => .ok (.lit b :: is)
      | .error e => .error e

/-- Disassemble a whole stream (30 R97). -/
def disassemble (bytes : List Byte) : Except DecodeError (List Instr) := disassembleFrom 0 0 bytes

/-- The stored bytes of an instruction word of the opcode table: an 8-bit row is one byte; a 16-bit row is the value
`T = byte0 ++ byte1` of 30 R93, byte0 at the lower address (log entry 17). -/
def tableWordBytes (nbits w : Nat) : List Byte :=
  if nbits = 8 then [BitVec.ofNat 8 w]
  else if nbits = 16 then [BitVec.ofNat 8 (w / 256), BitVec.ofNat 8 w]
  else []

/-- The kind of the position a table word of that size is read at: one byte where a stream begins, two bytes where
the copy-map says a match follows (30 R97, log entry 17). -/
def tableWordKind (nbits : Nat) : ElementKind := if nbits = 8 then .map else .mat

/-- The instruction the decoder reads from a word of the opcode table. -/
def decodeTableWord (nbits w : Nat) : Option Instr :=
  match decode (.element (tableWordKind nbits) (tableWordBytes nbits w)) with
  | .ok i => some i
  | .error _ => none

end Sys2Proof
end

