-- ==== Sys2Proof/Machine/State.lean ====
section
/-! DEFINITION. The state of the block (10_state) with the model's own input fields, its faults and refusals, and reset. -/

namespace Sys2Proof.Machine

/-- Engine mode (10 R41), the BUSY and DONE bits of the status registers. -/
inductive Mode where
  | idle
  | busy
  | done
deriving DecidableEq, Repr

/-- `DEC_STATUS.CODE` (10 R39): 0, 1, 2; the value 3 is never produced. -/
inductive Code where
  | ok
  | badData
  | wouldOverflow
deriving DecidableEq, Repr

/-- The four memory spaces (20 R60). -/
inductive Space where
  | esrc
  | edst
  | dsrc
  | ddst
deriving DecidableEq, Repr

/-- The two engines (10 R20). -/
inductive Engine where
  | encoder
  | decoder
deriving DecidableEq, Repr

/-- The agents of the model (00 R10). -/
inductive Agent where
  | host
  | encoder
  | decoder
deriving DecidableEq, Repr

/-- A memory space: its cells that differ from what an unlisted address reads as (log entry 5). -/
abbrev Mem := List Host.Cell

/-- The match table: its entries that are not 0, by index. -/
abbrev Table := List (Nat × Word)

/-- What the host can do to the block (44 R220): a register access, a wait (30 R107), a byte stored to or loaded from
a memory space (20 R62), the reset input (70 R260). -/
inductive HostOp where
  | access (a : HostAccess)
  | wait (e : Engine)
  | store (sp : Space) (addr : Word) (b : Byte)
  | load (sp : Space) (addr : Word)
  | reset
deriving DecidableEq, Repr

/-- The encoder's transient values that one micro-operation hands to the next (00 R9, 10 R23). They have no value
between steps: log entry 7. -/
structure EncWires where
  tail : Bool
  h : BitVec 32
  idx : OffField
  old : Word
  off : OffField
  inrange : Bool
  cand : Word
  eq3 : Bool
  accept : Bool
  /-- the match length as its field, `mlen - 3` -/
  len : LenField
deriving DecidableEq, Repr

/-- The decoder's transient values (00 R9, 10 R23). Log entry 7. -/
structure DecWires where
  ismatch : Bool
  len : LenField
  off : OffField
deriving DecidableEq, Repr

/-- The encoder engine: host registers (10 R31, R32, R34, R35), working registers (R21), match table (R42), its two
memory spaces (R44), and the wires. -/
structure Enc where
  mode : Mode
  slen : Word
  dlen : Word
  fallback : Bool
  result : Word
  spos : Word
  dpos : Word
  cmask : BitVec 9
  mapaddr : Word
  mapval : Byte
  table : Table
  src : Mem
  dst : Mem
  w : EncWires
deriving DecidableEq, Repr

/-- The decoder engine: host registers (10 R36, R37, R39, R40), working registers (R22), its two memory spaces
(R44), and the wires. -/
structure Dec where
  mode : Mode
  slen : Word
  dcap : Word
  code : Code
  count : Word
  spos : Word
  dpos : Word
  cmask : BitVec 9
  cmap : Byte
  src : Mem
  dst : Mem
  w : DecWires
deriving DecidableEq, Repr

/-- The host's side: the operations still to come and the value its last read returned. Model's own: log entry 14. -/
structure HostPort where
  prog : List HostOp
  rdata : Word
deriving DecidableEq, Repr

/-- The whole state: two engines that share nothing (10 R20), the host, and plain data that says who moves next
(log entry 13). `freeCtr` numbers the free bytes (log entry 16). -/
structure State where
  enc : Enc
  dec : Dec
  host : HostPort
  sched : List Agent
  freeCtr : Nat
deriving DecidableEq, Repr

/-- Faults. The block has none (60 R234); each stands where an operation is run outside the precondition the spec
gives it. All are safe: the model stops where the spec gives no effect. -/
inductive Fault where
  /-- Raised by every engine access to a space outside its valid addresses (20 R60, R68, R69). Safe: log entry 11. -/
  | outOfRange (sp : Space) (addr : Nat)
  /-- Raised by a micro-operation or element of a BUSY engine with no source byte left, which 42 R158 and 43 R180,
  R191 exclude. Safe: log entry 10. -/
  | stepPrecondition (e : Engine)
  /-- Raised where a source cursor would pass the source length (10 R25, R26). Safe: log entry 12. -/
  | cursorPastEnd (e : Engine)
deriving DecidableEq, Repr

/-- Refusals. -/
inductive Refusal where
  /-- Raised by `exec` for an instruction without a meaning yet; no arm of this model does. Safe. -/
  | notModelled (mnemonic : String)
  /-- Raised by `step` when the host would touch a memory space of a BUSY engine: the spec gives the host no such
  move (20 R77, 93 U12). Safe: log entry 15. -/
  | hostTouchesBusySpace (sp : Space)
deriving DecidableEq, Repr

/-- No wire is driven (log entry 7). -/
def EncWires.none : EncWires :=
  ⟨false, 0, 0, 0, 0, false, 0, false, false, 0⟩

/-- No wire is driven (log entry 7). -/
def DecWires.none : DecWires := ⟨false, 0, 0⟩

/-- The encoder's registers at reset (10 R47) with the given spaces: reset does not touch memory. -/
def Enc.resetWith (src dst : Mem) : Enc :=
  { mode := .idle, slen := 0, dlen := 0, fallback := false, result := 0, spos := 0, dpos := 0, cmask := 0x080,
    mapaddr := 0, mapval := 0, table := [], src := src, dst := dst, w := .none }

/-- The decoder's registers at reset (10 R47) with the given spaces. -/
def Dec.resetWith (src dst : Mem) : Dec :=
  { mode := .idle, slen := 0, dcap := 0, code := .ok, count := 0, spos := 0, dpos := 0, cmask := 0x080, cmap := 0,
    src := src, dst := dst, w := .none }

/-- The machine right after reset (10 R47, 70 R260). -/
def State.reset : State :=
  { enc := Enc.resetWith [] [], dec := Dec.resetWith [] [], host := ⟨[], 0⟩, sched := [], freeCtr := 0 }

end Sys2Proof.Machine
end

