-- ==== Sys2Proof/Machine/Ops.lean ====
section
/-! DEFINITION. The named operations over cells, memory spaces, cursors and the ends of a call. -/

namespace Sys2Proof.Machine

/-! ### Cells: the memory spaces and the match table -/

/-- What an address holds; an unlisted one holds 0 (log entries 5 and 6). -/
def cellRead {w : Nat} : List (Nat × BitVec w) → Nat → BitVec w
  | [], _ => 0
  | (k, v) :: rest, a => if k = a then v else cellRead rest a

/-- The cells without any entry for `a`. -/
def cellErase {w : Nat} (a : Nat) : List (Nat × BitVec w) → List (Nat × BitVec w)
  | [] => []
  | (k, v) :: rest => if k = a then cellErase a rest else (k, v) :: cellErase a rest

/-- The cells with an entry for `a` put before the first greater address. -/
def cellInsert {w : Nat} (a : Nat) (v : BitVec w) : List (Nat × BitVec w) → List (Nat × BitVec w)
  | [] => [(a, v)]
  | (k, u) :: rest => if a < k then (a, v) :: (k, u) :: rest else (k, u) :: cellInsert a v rest

/-- Store `v` at `a` and nowhere else (20 R66), keeping the canonical form. -/
def cellWrite {w : Nat} (m : List (Nat × BitVec w)) (a : Nat) (v : BitVec w) : List (Nat × BitVec w) :=
  if v = 0 then cellErase a m else cellInsert a v (cellErase a m)

/-- The canonical form from address `lo` on: addresses strictly rising, below `bound`, no entry equal to 0. -/
def cellsWfFrom {w : Nat} (bound lo : Nat) : List (Nat × BitVec w) → Bool
  | [] => true
  | (k, v) :: rest => decide (lo ≤ k) && decide (k < bound) && (v != 0) && cellsWfFrom bound (k + 1) rest

/-- A memory space in its canonical form (20 R60). -/
def Memory.wf (m : Mem) : Bool := cellsWfFrom Config.spaceSize 0 m

/-- The match table in its canonical form (10 R42). -/
def Table.wf (t : Table) : Bool := cellsWfFrom Config.tableSize 0 t

/-! ### Engine accesses, one byte each (20 R60, R64), checked against the valid addresses -/

/-- `esrc[a]` (00 R9); valid below `ENC_SLEN` (20 R68). -/
def readEsrc (e : Enc) (a : Nat) : Except Fault Byte :=
  if a < e.slen.toNat then .ok (cellRead e.src a) else .error (.outOfRange .esrc a)

/-- `MemWrite(EDST, a, 1, b)`; valid below `ENC_DLEN` (20 R68). -/
def writeEdst (e : Enc) (a : Nat) (b : Byte) : Except Fault Enc :=
  if a < e.dlen.toNat then .ok { e with dst := cellWrite e.dst a b } else .error (.outOfRange .edst a)

/-- The stream bytes the decoder can still read at its cursor, at most the two of a match token; only addresses below
`DEC_SLEN` are read (20 R69). -/
def fetchWindow (d : Dec) : List Byte :=
  if d.spos.toNat + 1 < d.slen.toNat then [cellRead d.src d.spos.toNat, cellRead d.src (d.spos.toNat + 1)]
  else if d.spos.toNat < d.slen.toNat then [cellRead d.src d.spos.toNat]
  else []

/-- `ddst[a]` (00 R9); the engine reads only below `D.dpos` (20 R60, R69). -/
def readDdst (d : Dec) (a : Nat) : Except Fault Byte :=
  if a < d.dpos.toNat then .ok (cellRead d.dst a) else .error (.outOfRange .ddst a)

/-- `MemWrite(DDST, a, 1, b)`; valid below `DEC_DCAP` (20 R69). -/
def writeDdst (d : Dec) (a : Nat) (b : Byte) : Except Fault Dec :=
  if a < d.dcap.toNat then .ok { d with dst := cellWrite d.dst a b } else .error (.outOfRange .ddst a)

/-! ### Cursors: exact sums, checked against the length that bounds them (00 R8) -/

/-- `E.spos <- E.spos + n`, which never passes `ENC_SLEN` (10 R25). -/
def advanceEnc (n : Nat) (e : Enc) : Except Fault Enc :=
  if e.spos.toNat + n ≤ e.slen.toNat then .ok { e with spos := wordOf (e.spos.toNat + n) }
  else .error (.cursorPastEnd .encoder)

/-- `D.spos <- D.spos + n`, which never passes `DEC_SLEN` (10 R26). -/
def advanceDec (n : Nat) (d : Dec) : Except Fault Dec :=
  if d.spos.toNat + n ≤ d.slen.toNat then .ok { d with spos := wordOf (d.spos.toNat + n) }
  else .error (.cursorPastEnd .decoder)

/-- `MemWrite(EDST, E.dpos, 1, b); E.dpos <- E.dpos + 1`. The write is below `ENC_DLEN`, so the sum fits (10 R27). -/
def pushEdst (b : Byte) (e : Enc) : Except Fault Enc := do
  let e ← writeEdst e e.dpos.toNat b
  return { e with dpos := wordOf (e.dpos.toNat + 1) }

/-- `MemWrite(DDST, D.dpos, 1, b); D.dpos <- D.dpos + 1`. The write is below `DEC_DCAP`, so the sum fits (10 R27). -/
def pushDdst (b : Byte) (d : Dec) : Except Fault Dec := do
  let d ← writeDdst d d.dpos.toNat b
  return { d with dpos := wordOf (d.dpos.toNat + 1) }

/-! ### The ends of a call: this block's exceptions (60 R230). Nothing is saved and control goes nowhere (R238, R240) -/

/-- `raise BAD_DATA`, `raise WOULD_OVERFLOW`: the code is written, `DEC_COUNT` stays, mode DONE, all else frozen
(60 R238). -/
def raiseDec (code : Code) (d : Dec) : Dec := { d with code := code, mode := .done }

/-- `finish OK` of the decoder (43 R192). -/
def finishDec (d : Dec) : Dec := { d with count := d.dpos, code := .ok, mode := .done }

/-- `signal FALLBACK`: `ENC_RESULT <- ENC_SLEN`, the flag, mode DONE, nothing else (60 R233). -/
def fallbackEnc (e : Enc) : Enc := { e with result := e.slen, fallback := true, mode := .done }

/-- `finish OK` of the encoder: `ENC_RESULT <- E.dpos`, the flag stays, mode DONE (42 R159). -/
def finishEnc (e : Enc) : Enc := { e with result := e.dpos, mode := .done }

/-! ### When an engine acts -/

/-- An engine in IDLE or DONE does nothing and holds its registers (60 R243); a micro-operation of a BUSY encoder
runs inside a token step, which has a source byte left (42 R158). Log entries 9 and 10; what the step has done before it
is not asked for: log entry 27. -/
def whenEnc (f : Enc → Except Fault Enc) (e : Enc) : Except Fault Enc :=
  if e.mode = .busy then
    if e.spos.toNat < e.slen.toNat then f e else .error (.stepPrecondition .encoder)
  else .ok e

/-- The same for the decoder (43 R180, R183, R191). -/
def whenDec (f : Dec → Except Fault Dec) (d : Dec) : Except Fault Dec :=
  if d.mode = .busy then
    if d.spos.toNat < d.slen.toNat then f d else .error (.stepPrecondition .decoder)
  else .ok d

/-- Run an operation of the encoder engine on the whole state: the other engine is not touched (10 R20). -/
def onEnc (f : Enc → Except Fault Enc) (s : State) : Host.Outcome State Fault Refusal :=
  match f s.enc with
  | .ok e => .next { s with enc := e }
  | .error r => .fault r

/-- Run an operation of the decoder engine on the whole state. -/
def onDec (f : Dec → Except Fault Dec) (s : State) : Host.Outcome State Fault Refusal :=
  match f s.dec with
  | .ok d => .next { s with dec := d }
  | .error r => .fault r

/-! ### The host's memory accesses and the reset input -/

/-- The engine a space belongs to (10 R44). -/
def spaceOwner : Space → Engine
  | .esrc | .edst => .encoder
  | .dsrc | .ddst => .decoder

/-- Whether an engine is BUSY and so owns its spaces (20 R77). -/
def engineBusy (s : State) : Engine → Bool
  | .encoder => s.enc.mode == .busy
  | .decoder => s.dec.mode == .busy

/-- The host's read of one byte (20 R66). -/
def hostRead (s : State) (sp : Space) (a : Word) : Byte :=
  match sp with
  | .esrc => cellRead s.enc.src a.toNat
  | .edst => cellRead s.enc.dst a.toNat
  | .dsrc => cellRead s.dec.src a.toNat
  | .ddst => cellRead s.dec.dst a.toNat

/-- The host's write of one byte (20 R66). -/
def hostWrite (s : State) (sp : Space) (a : Word) (b : Byte) : State :=
  match sp with
  | .esrc => { s with enc := { s.enc with src := cellWrite s.enc.src a.toNat b } }
  | .edst => { s with enc := { s.enc with dst := cellWrite s.enc.dst a.toNat b } }
  | .dsrc => { s with dec := { s.dec with src := cellWrite s.dec.src a.toNat b } }
  | .ddst => { s with dec := { s.dec with dst := cellWrite s.dec.dst a.toNat b } }

/-- Every byte below address `n` takes a free value (70 R261, 93 U14). -/
def havoc (seed : Nat) (m : Mem) : Nat → Mem
  | 0 => m
  | n + 1 => cellWrite (havoc seed m n) n (Config.freeByte (seed + n))

/-- The reset input (70 R260): every register of the block holds its reset value and no space is touched, except that
a call abandoned in BUSY leaves free bytes in the part of its destination it could have written (R261, 93 U14).
Log entry 16. -/
def resetBlock (s : State) : State :=
  let nE := if s.enc.mode = .busy then s.enc.dlen.toNat else 0
  let nD := if s.dec.mode = .busy then s.dec.dcap.toNat else 0
  { s with
    enc := Enc.resetWith s.enc.src (havoc s.freeCtr s.enc.dst nE)
    dec := Dec.resetWith s.dec.src (havoc (s.freeCtr + nE) s.dec.dst nD)
    freeCtr := s.freeCtr + nE + nD }

end Sys2Proof.Machine
end

