-- ==== Sys2Proof/Machine/Flags.lean ====
section
/-! DEFINITION. The flag-like state (10 R29): the copy-map mask and bits, and the status words the host reads. -/

namespace Sys2Proof.Machine

/-- `(cmask << 1)[8:0]`, the 9-bit shift that begins a token step (41 R140, 43 R180). -/
def shiftMask (m : BitVec 9) : BitVec 9 := m <<< 1

/-- A new group begins when the shifted mask is `0x100` (10 R28). -/
def isNewGroup (m : BitVec 9) : Bool := m == 0x100#9

/-- The mask of the next token of a list of tokens given: `1 << (n mod 8)` for a token counter `n` (10 R28), so after the
8th token it is token 0's again. -/
def nextTokenMask (m : BitVec 9) : BitVec 9 := if isNewGroup (shiftMask m) then 0x001 else shiftMask m

/-- `cmask[7:0]`. -/
def maskBits (m : BitVec 9) : Byte := m.setWidth 8

/-- `(cmap & cmask[7:0]) != 0`: the copy-map bit the mask points at (43 R182). -/
def mapBit (cmap : Byte) (m : BitVec 9) : Bool := (cmap &&& maskBits m) != 0

/-- BUSY in bit 0 and DONE in bit 1 (10 R34, R41). -/
def modeBits : Mode → Nat
  | .idle => 0
  | .busy => 1
  | .done => 2

/-- `CODE` (10 R39). -/
def codeBits : Code → Nat
  | .ok => 0
  | .badData => 1
  | .wouldOverflow => 2

/-- `ENC_STATUS`: BUSY, DONE, FALLBACK in bits 0, 1, 2 (10 R30, R34). -/
def encStatus (e : Enc) : Word := wordOf (modeBits e.mode + 4 * (if e.fallback then 1 else 0))

/-- `DEC_STATUS`: BUSY, DONE in bits 0, 1 and CODE in bits 3:2 (10 R30, R39). -/
def decStatus (d : Dec) : Word := wordOf (modeBits d.mode + 4 * codeBits d.code)

/-- The output level `enc_done` (60 R236). -/
def encDoneOut (e : Enc) : Bool := e.mode == .done

/-- The output level `dec_done` (60 R236). -/
def decDoneOut (d : Dec) : Bool := d.mode == .done

end Sys2Proof.Machine
end

