-- ==== Sys2Proof/Machine/Decoder.lean ====
section
/-! DEFINITION. The token stream decoder and the back-reference replay unit (43_token_decoder): what each stream element
does, the micro-operations that fetch, decode and run it, and the decoder's token step. -/

namespace Sys2Proof.Machine

/-- The call ends with success when the stream is used up (43 R181, R192). -/
def finishDecIfEnd (d : Dec) : Dec := if d.mode = .busy ∧ d.spos = d.slen then finishDec d else d

/-- The element `MAP bits`, at a group boundary (43 R180, R181): the mask restarts at token 0, the byte is the group's
copy map, and a stream that ends here ends the call. Run by name in the middle of a group, where the next byte is a
token (30 R91, R97), it begins a new group all the same: DESIGN CHOICE, log entry 28. -/
def mapOp (bits : Byte) (d : Dec) : Except Fault Dec := do
  let d ← advanceDec 1 { d with cmask := 0x001, cmap := bits }
  return finishDecIfEnd d

/-- The element `LIT b` (43 R183, R190): the capacity test comes before anything is written. -/
def litOp (b : Byte) (d : Dec) : Except Fault Dec :=
  if d.dcap.toNat ≤ d.dpos.toNat then .ok (raiseDec .wouldOverflow d)
  else do
    let d ← pushDdst b d
    advanceDec 1 d

/-- The byte `off` back from the write cursor (43 R189). -/
def replayByte (d : Dec) (off : Nat) : Except Fault Byte :=
  if off ≤ d.dpos.toNat then readDdst d (d.dpos.toNat - off) else .error (.outOfRange .ddst d.dpos.toNat)

/-- 43 R189: one byte at a time, forward; every read sees every earlier write. -/
def replayFrom (off : Nat) : Nat → Dec → Except Fault Dec
  | 0, d => .ok d
  | n + 1, d => do
    let v ← replayByte d off
    let d ← pushDdst v d
    replayFrom off n d

/-- `D.REPLAY(mlen, off)` on the wires `D.MATCH` has set (43 R189). -/
def replayOp (d : Dec) : Except Fault Dec := replayFrom d.w.off.toNat (mlenOf d.w.len) d

/-- The element `MATCH len, off` (43 R184): the checks in the order truncated (R185), before the start (R186), offset
zero (R187), too long (R188); a raise leaves the cursor at the token and writes nothing. -/
def matchOp (len : LenField) (off : OffField) (d : Dec) : Except Fault Dec :=
  if d.slen.toNat < d.spos.toNat + 2 then .ok (raiseDec .badData d)
  else if d.dpos.toNat < off.toNat then .ok (raiseDec .badData d)
  else if off = 0 then
    match Config.decZeroOffset with
    | .badData => .ok (raiseDec .badData d)
    | .replayUnwritten =>
      if d.dcap.toNat < d.dpos.toNat + mlenOf len then .ok (raiseDec .wouldOverflow d)
      else advanceDec 2 { d with dpos := wordOf (d.dpos.toNat + mlenOf len) }
  else if d.dcap.toNat < d.dpos.toNat + mlenOf len then .ok (raiseDec .wouldOverflow d)
  else do
    let d ← advanceDec 2 { d with w := { d.w with len := len, off := off } }
    replayOp d

/-- Run a decoded stream element. The decoder's decode gives no other instruction (`decodeElement`). -/
def elementOp (i : Instr) (d : Dec) : Except Fault Dec :=
  match i with
  | .map bits => mapOp bits d
  | .lit b => litOp b d
  | .matchTok len off => matchOp len off d
  | .matchReserved len => matchOp len 0 d
  | .encStart _ | .decStart _ | .wr _ _ | .rd _ => .ok d
  | .eTailguard | .eHash3 | .eTindex | .eTlookup | .eOffset | .eCand | .eCmp3 | .eAccept | .eAdvance => .ok d
  | .eFrame | .eHeadroom | .eMapalloc | .eSetbit | .eExtend | .eEmitMatch | .eEmitLit | .eStep => .ok d
  | .dFrame | .dSelect | .dLit | .dMatch | .dReplay | .dStep => .ok d
  | .group _ | .lits _ | .waitEnc | .waitDec => .ok d

/-- Fetch and decode the element at the stream cursor, of the kind its position gives it (30 R97). -/
def fetchElement (kind : ElementKind) (d : Dec) : Except DecodeError Instr :=
  match decodeElement kind (fetchWindow d) with
  | .ok (i, _) => .ok i
  | .error e => .error e

/-- 43 R180: shift the mask; at a group boundary fetch the copy-map byte and run it. -/
def decFrameOp (d : Dec) : Except Fault Dec :=
  let d := { d with cmask := shiftMask d.cmask }
  if isNewGroup d.cmask then
    match fetchElement .map d with
    | .ok i => elementOp i d
    | .error _ => .error (.stepPrecondition .decoder)
  else .ok d

/-- 43 R182. -/
def selectOp (d : Dec) : Except Fault Dec :=
  .ok { d with w := { d.w with ismatch := mapBit d.cmap d.cmask } }

/-- `D.LIT` (43 R183): fetch the literal byte and run it. -/
def decLitOp (d : Dec) : Except Fault Dec :=
  match fetchElement .lit d with
  | .ok i => elementOp i d
  | .error _ => .error (.stepPrecondition .decoder)

/-- `D.MATCH` (43 R184): fetch the two bytes and run the match; a token cut off by the end of the stream is BAD_DATA
(R185). -/
def decMatchOp (d : Dec) : Except Fault Dec :=
  match fetchElement .mat d with
  | .ok i => elementOp i d
  | .error _ => .ok (raiseDec .badData d)

/-- The wires hold nothing between steps (10 R23, log entry 7). -/
def clearDecWires (d : Dec) : Dec := { d with w := .none }

/-- 43 R191. -/
def decStepOp (d : Dec) : Except Fault Dec := do
  let d ← decFrameOp d
  if d.mode = .busy then
    let d ← selectOp d
    let d ← if d.w.ismatch then decMatchOp d else decLitOp d
    return clearDecWires (finishDecIfEnd d)
  else return clearDecWires d

/-- `D.REPLAY` runs inside a token step whose token is already consumed, so it asks for no source byte (43 R184). -/
def whenDecBusy (f : Dec → Except Fault Dec) (d : Dec) : Except Fault Dec :=
  if d.mode = .busy then f d else .ok d

/-- `MAP v`. -/
def execMap (bits : Byte) (s : State) : Host.Outcome State Fault Refusal := onDec (whenDec (mapOp bits)) s

/-- `LIT v`. -/
def execLit (b : Byte) (s : State) : Host.Outcome State Fault Refusal := onDec (whenDec (litOp b)) s

/-- `MATCH len, off`. -/
def execMatchTok (len : LenField) (off : OffField) (s : State) : Host.Outcome State Fault Refusal :=
  onDec (whenDec (matchOp len off)) s

/-- `MATCH.RESERVED_OFF0` (43 R187). -/
def execMatchReserved (len : LenField) (s : State) : Host.Outcome State Fault Refusal :=
  onDec (whenDec (matchOp len 0)) s

/-- `D.FRAME`. -/
def execDFrame (s : State) : Host.Outcome State Fault Refusal := onDec (whenDec decFrameOp) s

/-- `D.SELECT`. -/
def execDSelect (s : State) : Host.Outcome State Fault Refusal := onDec (whenDec selectOp) s

/-- `D.LIT`. -/
def execDLit (s : State) : Host.Outcome State Fault Refusal := onDec (whenDec decLitOp) s

/-- `D.MATCH`. -/
def execDMatch (s : State) : Host.Outcome State Fault Refusal := onDec (whenDec decMatchOp) s

/-- `D.REPLAY`. -/
def execDReplay (s : State) : Host.Outcome State Fault Refusal := onDec (whenDecBusy replayOp) s

/-- `D.STEP`. -/
def execDStep (s : State) : Host.Outcome State Fault Refusal := onDec (whenDec decStepOp) s

end Sys2Proof.Machine
end

