-- ==== Sys2Proof/Machine/Framer.lean ====
section
/-! DEFINITION. The copy-map bitmap framer (41_copymap_framer). -/

namespace Sys2Proof.Machine

/-- 41 R141: the sum is exact, so it cannot wrap. -/
def headroomOp (e : Enc) : Except Fault Enc :=
  if e.dlen.toNat ≤ e.dpos.toNat + Config.encAbortSlack then .ok (fallbackEnc e) else .ok e

/-- 41 R142. -/
def mapallocOp (e : Enc) : Except Fault Enc :=
  pushEdst 0 { e with cmask := 0x001, mapaddr := e.dpos, mapval := 0 }

/-- 41 R140: shift the mask; at a group boundary check the headroom and, unless the call fell back, allocate. -/
def frameOp (e : Enc) : Except Fault Enc := do
  let e := { e with cmask := shiftMask e.cmask }
  if isNewGroup e.cmask then
    let e ← headroomOp e
    whenEnc mapallocOp e
  else return e

/-- 41 R143: OR the mask into the shadow and write it through. -/
def setbitOp (e : Enc) : Except Fault Enc :=
  let v := e.mapval ||| maskBits e.cmask
  writeEdst { e with mapval := v } e.mapaddr.toNat v

/-- `E.FRAME`. -/
def execEFrame (s : State) : Host.Outcome State Fault Refusal := onEnc (whenEnc frameOp) s

/-- `E.HEADROOM`. Run by name off a group boundary (mask not `0x100`), where 41 R141 gives no effect, it makes the same
test and can fall back, the mask staying as it is: DESIGN CHOICE, log entry 27. -/
def execEHeadroom (s : State) : Host.Outcome State Fault Refusal := onEnc (whenEnc headroomOp) s

/-- `E.MAPALLOC`. Run by name without a new group or without a passed headroom check, where 41 R142 gives no effect, it
allocates all the same: DESIGN CHOICE, log entry 27. -/
def execEMapalloc (s : State) : Host.Outcome State Fault Refusal := onEnc (whenEnc mapallocOp) s

/-- `E.SETBIT`. Run by name without an accepted match, where 41 R143 gives no effect, it sets the bit all the same:
DESIGN CHOICE, log entry 27. -/
def execESetbit (s : State) : Host.Outcome State Fault Refusal := onEnc (whenEnc setbitOp) s

end Sys2Proof.Machine
end

