-- ==== Sys2Proof/Machine/HostCommands.lean ====
section
/-! DEFINITION. Host commands and register access (44_host_interface). -/

namespace Sys2Proof.Machine

/-- `ENC_START` on the encoder (44 R210): ignored when BUSY, else every working register and the table start afresh. -/
def startEnc (e : Enc) : Enc :=
  if e.mode = .busy then e
  else
    { e with
      spos := 0, dpos := 0, cmask := 0x080, mapaddr := 0, mapval := 0, table := []
      result := 0, fallback := false
      mode := if e.slen = 0 then .done else .busy }

/-- `DEC_START` on the decoder (44 R211). -/
def startDec (d : Dec) : Dec :=
  if d.mode = .busy then d
  else
    { d with
      spos := 0, dpos := 0, cmask := 0x080, cmap := 0
      count := 0, code := .ok
      mode := if d.slen = 0 then .done else .busy }

/-- A host write to the encoder's registers 0 to 4 (44 R212, 10 R30 to R35): parameters are ignored when BUSY, a
control write without bit 0 and writes to read-only registers always. -/
def writeEncReg (e : Enc) (reg : Nat) (v : Word) : Enc :=
  if reg = 0 then if e.mode = .busy then e else { e with slen := v }
  else if reg = 1 then if e.mode = .busy then e else { e with dlen := v }
  else if reg = 2 then if v.getLsbD 0 then startEnc e else e
  else e

/-- A host write to the decoder's registers 5 to 9 (44 R212, 10 R36 to R40). -/
def writeDecReg (d : Dec) (reg : Nat) (v : Word) : Dec :=
  if reg = 5 then if d.mode = .busy then d else { d with slen := v }
  else if reg = 6 then if d.mode = .busy then d else { d with dcap := v }
  else if reg = 7 then if v.getLsbD 0 then startDec d else d
  else d

/-- A host read (44 R213): the current value; control registers and numbers above 9 read 0. -/
def readReg (s : State) (reg : Nat) : Word :=
  if reg = 0 then s.enc.slen
  else if reg = 1 then s.enc.dlen
  else if reg = 3 then encStatus s.enc
  else if reg = 4 then s.enc.result
  else if reg = 5 then s.dec.slen
  else if reg = 6 then s.dec.dcap
  else if reg = 8 then decStatus s.dec
  else if reg = 9 then s.dec.count
  else 0

/-- The value a host read returns goes to the host (log entry 14). -/
def returnData (s : State) (v : Word) : State := { s with host := { s.host with rdata := v } }

/-- Put a host operation back in front: it is repeated at the host's next move (log entry 18). -/
def repeatOp (s : State) (op : HostOp) : State := { s with host := { s.host with prog := op :: s.host.prog } }

/-- `ENC_START`: the other bits of the value are ignored, and without bit 0 it is no start (30 R104, 10 R33). -/
def execEncStart (value : Word) (s : State) : Host.Outcome State Fault Refusal :=
  .next { s with enc := if value.getLsbD 0 then startEnc s.enc else s.enc }

/-- `DEC_START` (30 R104, 10 R38). -/
def execDecStart (value : Word) (s : State) : Host.Outcome State Fault Refusal :=
  .next { s with dec := if value.getLsbD 0 then startDec s.dec else s.dec }

/-- `WR reg, value` (44 R212). -/
def execWr (reg : Nat) (value : Word) (s : State) : Host.Outcome State Fault Refusal :=
  .next { s with enc := writeEncReg s.enc reg value, dec := writeDecReg s.dec reg value }

/-- `RD reg` (44 R213): no side effect. -/
def execRd (reg : Nat) (s : State) : Host.Outcome State Fault Refusal :=
  .next (returnData s (readReg s reg))

/-- `WAIT ENC`: read `ENC_STATUS`; while bit 1 (DONE) reads 0, do it again (30 R107). -/
def execWaitEnc (s : State) : Host.Outcome State Fault Refusal :=
  if (readReg s 3).getLsbD 1 then .next (returnData s (readReg s 3))
  else .next (repeatOp (returnData s (readReg s 3)) (.wait .encoder))

/-- `WAIT DEC`: read `DEC_STATUS`; while bit 1 (DONE) reads 0, do it again (30 R107). -/
def execWaitDec (s : State) : Host.Outcome State Fault Refusal :=
  if (readReg s 8).getLsbD 1 then .next (returnData s (readReg s 8))
  else .next (repeatOp (returnData s (readReg s 8)) (.wait .decoder))

end Sys2Proof.Machine
end

