-- ==== Sys2Proof/Machine/Operands.lean ====
section
/-! DEFINITION. The computed operands of the match finder (40_match_finder): every quantity is unsigned (R128). -/

namespace Sys2Proof.Machine

/-- `tail := (ENC_SLEN - E.spos) < 66` (40 R120). -/
def tailTest (slen spos : Word) : Bool := decide (slen.toNat - spos.toNat < Config.matchMax)

/-- `h0 := (b0 << 16) + (b1 << 8) + b2` (40 R121). PRESUMED by the spec itself (G1): log entry 2. -/
def hashSeed (b0 b1 b2 : Byte) : BitVec 32 :=
  (b0.setWidth 32 <<< 16) + (b1.setWidth 32 <<< 8) + b2.setWidth 32

/-- The two mixing steps: `h1 := h0 + (h0 >> 9)`, `h := h1 + (h1 >> 5)` (40 R121). -/
def hashMix (h0 : BitVec 32) : BitVec 32 :=
  let h1 := h0 + (h0 >>> 9)
  h1 + (h1 >>> 5)

/-- The hash of three source bytes (40 R121). -/
def hash3 (b0 b1 b2 : Byte) : BitVec 32 := hashMix (hashSeed b0 b1 b2)

/-- `idx := h & 1023` (40 R122). -/
def tableIndex (h : BitVec 32) : OffField := h.setWidth 10

/-- `off := (E.spos - old) mod 1024`, the one subtraction that wraps (40 R124). -/
def matchOffset (spos old : Word) : OffField := (spos - old).setWidth 10

/-- `inrange := off <= E.spos` (40 R125). -/
def offsetInRange (spos : Word) (off : OffField) : Bool := decide (off.toNat ≤ spos.toNat)

/-- `cand := E.spos - off`, meaningful only in range; out of range a free value (40 R125, log entry 8). -/
def candidate (spos : Word) (off : OffField) : Word :=
  if offsetInRange spos off then wordOf (spos.toNat - off.toNat) else Config.candOutOfRange spos off

/-- `accept := inrange and (off != 0) and eq3` (40 R127). -/
def acceptTest (inrange : Bool) (off : OffField) (eq3 : Bool) : Bool := inrange && (off != 0) && eq3

end Sys2Proof.Machine
end

