-- ==== Sys2Proof/Machine/MatchFinder.lean ====
section
/-! DEFINITION. The LZ77 match finder (40_match_finder): what each micro-operation does to the encoder, and its meaning
as an instruction. -/

namespace Sys2Proof.Machine

/-- 40 R120. -/
def tailguardOp (e : Enc) : Except Fault Enc :=
  .ok { e with w := { e.w with tail := tailTest e.slen e.spos } }

/-- 40 R121: the three bytes at the cursor. -/
def hash3Op (e : Enc) : Except Fault Enc := do
  let b0 ← readEsrc e e.spos.toNat
  let b1 ← readEsrc e (e.spos.toNat + 1)
  let b2 ← readEsrc e (e.spos.toNat + 2)
  return { e with w := { e.w with h := hash3 b0 b1 b2 } }

/-- 40 R122. -/
def tindexOp (e : Enc) : Except Fault Enc :=
  .ok { e with w := { e.w with idx := tableIndex e.w.h } }

/-- 40 R123: read first, then write, always. -/
def tlookupOp (e : Enc) : Except Fault Enc :=
  .ok { e with
    w := { e.w with old := cellRead e.table e.w.idx.toNat }
    table := cellWrite e.table e.w.idx.toNat e.spos }

/-- 40 R124. -/
def offsetOp (e : Enc) : Except Fault Enc :=
  .ok { e with w := { e.w with off := matchOffset e.spos e.w.old } }

/-- 40 R125. -/
def candOp (e : Enc) : Except Fault Enc :=
  .ok { e with w := { e.w with inrange := offsetInRange e.spos e.w.off, cand := candidate e.spos e.w.off } }

/-- 40 R126, evaluated only when `inrange` holds and `off` is not 0 (R127). -/
def cmp3Op (e : Enc) : Except Fault Enc :=
  if e.w.inrange && e.w.off != 0 then do
    let a0 ← readEsrc e e.spos.toNat
    let c0 ← readEsrc e e.w.cand.toNat
    let a1 ← readEsrc e (e.spos.toNat + 1)
    let c1 ← readEsrc e (e.w.cand.toNat + 1)
    let a2 ← readEsrc e (e.spos.toNat + 2)
    let c2 ← readEsrc e (e.w.cand.toNat + 2)
    return { e with w := { e.w with eq3 := a0 == c0 && a1 == c1 && a2 == c2 } }
  else .ok e

/-- 40 R127. -/
def acceptOp (e : Enc) : Except Fault Enc :=
  .ok { e with w := { e.w with accept := acceptTest e.w.inrange e.w.off e.w.eq3 } }

/-- The bytes the token of this step covers: 1 for a literal, `mlen` for a match (40 R129, log entry 21). -/
def tokenSpan (w : EncWires) : Nat := if !w.tail && w.accept then mlenOf w.len else 1

/-- 40 R129. -/
def advanceOp (e : Enc) : Except Fault Enc := advanceEnc (tokenSpan e.w) e

/-- `E.TAILGUARD`. -/
def execETailguard (s : State) : Host.Outcome State Fault Refusal := onEnc (whenEnc tailguardOp) s

/-- `E.HASH3`. Run by name in the tail, which bypasses it (40 R120), it hashes the three bytes if they exist: DESIGN
CHOICE, log entry 27. -/
def execEHash3 (s : State) : Host.Outcome State Fault Refusal := onEnc (whenEnc hash3Op) s

/-- `E.TINDEX`. -/
def execETindex (s : State) : Host.Outcome State Fault Refusal := onEnc (whenEnc tindexOp) s

/-- `E.TLOOKUP`. Run by name in the tail, which bypasses it (40 R120), it reads and records all the same: DESIGN CHOICE,
log entry 27. -/
def execETlookup (s : State) : Host.Outcome State Fault Refusal := onEnc (whenEnc tlookupOp) s

/-- `E.OFFSET`. -/
def execEOffset (s : State) : Host.Outcome State Fault Refusal := onEnc (whenEnc offsetOp) s

/-- `E.CAND`. -/
def execECand (s : State) : Host.Outcome State Fault Refusal := onEnc (whenEnc candOp) s

/-- `E.CMP3`. -/
def execECmp3 (s : State) : Host.Outcome State Fault Refusal := onEnc (whenEnc cmp3Op) s

/-- `E.ACCEPT`. -/
def execEAccept (s : State) : Host.Outcome State Fault Refusal := onEnc (whenEnc acceptOp) s

/-- `E.ADVANCE`. -/
def execEAdvance (s : State) : Host.Outcome State Fault Refusal := onEnc (whenEnc advanceOp) s

end Sys2Proof.Machine
end

