-- ==== Sys2Proof/Machine/Pseudo.lean ====
section
/-! DEFINITION. The stream pseudo-instructions `GROUP` and `LITS` (30 R107): the decoder runs the elements they expand
to, with the mask advance and the end test of a token step (43 R191) between them. Log entry 19. -/

namespace Sys2Proof.Machine

/-- The element a token is. -/
def runToken (t : Token) (d : Dec) : Except Fault Dec :=
  match t with
  | .lit b => litOp b d
  | .mat len off => matchOp len off d

/-- The end of a token step (43 R191 part 4). -/
def endToken (d : Dec) : Dec := clearDecWires (finishDecIfEnd d)

/-- One token step, its token given: the mask moves to the token, the token runs as the element it is, whatever the
copy-map bit says, and the end test follows. A token after the 8th of a group goes on under the same copy map: DESIGN
CHOICE, log entry 19. -/
def tokenStepOp (t : Token) (d : Dec) : Except Fault Dec := do
  let d ← runToken t { d with cmask := nextTokenMask d.cmask }
  return endToken d

/-- Token steps in order; once the call has ended nothing more is looked at (60 R238). -/
def tokensOp : List Token → Dec → Except Fault Dec
  | [], d => .ok d
  | t :: ts, d => do
    let d ← whenDec (tokenStepOp t) d
    tokensOp ts d

/-- `GROUP`: the MAP byte, token 0 in the same step, then the other tokens (30 R107, 43 R191). -/
def groupOp (toks : List Token) (d : Dec) : Except Fault Dec := do
  let d ← mapOp (groupMap toks) d
  match toks with
  | [] => return d
  | t :: ts =>
    let d ← whenDec (fun d => do let d ← runToken t d; return endToken d) d
    tokensOp ts d

/-- `GROUP t0; ...; tn`. Run by name in the middle of a group it begins a group all the same, as its MAP does: DESIGN
CHOICE, log entry 28. -/
def execGroup (toks : List Token) (s : State) : Host.Outcome State Fault Refusal := onDec (whenDec (groupOp toks)) s

/-- `LITS "s"`: one `LIT` per character. -/
def execLits (bytes : List Byte) (s : State) : Host.Outcome State Fault Refusal :=
  onDec (tokensOp (bytes.map .lit)) s

end Sys2Proof.Machine
end

