-- ==== Sys2Proof/Machine/TokenEncoder.lean ====
section
/-! DEFINITION. The match/length/offset encoder and the encoder's token step (42_token_encoder). -/

namespace Sys2Proof.Machine

/-- 42 R155: lengthen the match while the next pair of bytes is equal; `fuel` is how much longer it may become. -/
def extendFrom (e : Enc) : Nat → Nat → Except Fault Nat
  | 0, mlen => .ok mlen
  | fuel + 1, mlen => do
    let a ← readEsrc e (e.spos.toNat + mlen)
    let c ← readEsrc e (e.w.cand.toNat + mlen)
    if a = c then extendFrom e fuel (mlen + 1) else return mlen

/-- 42 R155: from `MATCH_MIN` to at most `MATCH_MAX`. -/
def extendOp (e : Enc) : Except Fault Enc := do
  let mlen ← extendFrom e (Config.matchMax - Config.matchMin) Config.matchMin
  return { e with w := { e.w with len := lenFieldOf mlen } }

/-- 42 R156. -/
def emitMatchOp (e : Enc) : Except Fault Enc := do
  let e ← pushEdst (byte0Of e.w.len e.w.off) e
  let e ← pushEdst (byte1Of e.w.off) e
  advanceEnc (mlenOf e.w.len) e

/-- 42 R157. -/
def emitLitOp (e : Enc) : Except Fault Enc := do
  let b ← readEsrc e e.spos.toNat
  let e ← pushEdst b e
  advanceEnc 1 e

/-- The match finder's part of a token step, parts 3 and 4 of 42 R158 up to the decision. -/
def findOp (e : Enc) : Except Fault Enc := do
  let e ← hash3Op e
  let e ← tindexOp e
  let e ← tlookupOp e
  let e ← offsetOp e
  let e ← candOp e
  let e ← cmp3Op e
  acceptOp e

/-- The token of a step, parts 2 to 5 of 42 R158. -/
def tokenOp (e : Enc) : Except Fault Enc := do
  let e ← tailguardOp e
  if e.w.tail then emitLitOp e
  else
    let e ← findOp e
    if e.w.accept then
      let e ← setbitOp e
      let e ← extendOp e
      emitMatchOp e
    else emitLitOp e

/-- Part 6 of 42 R158: the call ends when the source is used up (R159). -/
def finishEncIfEnd (e : Enc) : Enc := if e.spos = e.slen then finishEnc e else e

/-- The wires hold nothing between steps (10 R23, log entry 7). -/
def clearEncWires (e : Enc) : Enc := { e with w := .none }

/-- 42 R158: the frame step first; if it fell back the step and the call end there. -/
def encStepOp (e : Enc) : Except Fault Enc := do
  let e ← frameOp e
  if e.mode = .busy then
    let e ← tokenOp e
    return clearEncWires (finishEncIfEnd e)
  else return clearEncWires e

/-- `E.EXTEND`. Run by name without an accepted candidate (42 R155) it measures from the candidate in the wires: DESIGN
CHOICE, log entry 27. -/
def execEExtend (s : State) : Host.Outcome State Fault Refusal := onEnc (whenEnc extendOp) s

/-- `E.EMIT_MATCH`. -/
def execEEmitMatch (s : State) : Host.Outcome State Fault Refusal := onEnc (whenEnc emitMatchOp) s

/-- `E.EMIT_LIT`. -/
def execEEmitLit (s : State) : Host.Outcome State Fault Refusal := onEnc (whenEnc emitLitOp) s

/-- `E.STEP`. -/
def execEStep (s : State) : Host.Outcome State Fault Refusal := onEnc (whenEnc encStepOp) s

end Sys2Proof.Machine
end

