-- ==== Sys2Proof/Machine/Dispatch.lean ====
section
/-! DEFINITION. The dispatch: one arm per constructor of Instr. -/

namespace Sys2Proof.Machine

def exec (i : Instr) (s : State) : Host.Outcome State Fault Refusal :=
  match i with
  | .map bits => Sys2Proof.Machine.execMap bits s
  | .lit b => Sys2Proof.Machine.execLit b s
  | .matchTok len off => Sys2Proof.Machine.execMatchTok len off s
  | .matchReserved len => Sys2Proof.Machine.execMatchReserved len s
  | .encStart value => Sys2Proof.Machine.execEncStart value s
  | .decStart value => Sys2Proof.Machine.execDecStart value s
  | .wr reg value => Sys2Proof.Machine.execWr reg value s
  | .rd reg => Sys2Proof.Machine.execRd reg s
  | .eTailguard => Sys2Proof.Machine.execETailguard s
  | .eHash3 => Sys2Proof.Machine.execEHash3 s
  | .eTindex => Sys2Proof.Machine.execETindex s
  | .eTlookup => Sys2Proof.Machine.execETlookup s
  | .eOffset => Sys2Proof.Machine.execEOffset s
  | .eCand => Sys2Proof.Machine.execECand s
  | .eCmp3 => Sys2Proof.Machine.execECmp3 s
  | .eAccept => Sys2Proof.Machine.execEAccept s
  | .eAdvance => Sys2Proof.Machine.execEAdvance s
  | .eFrame => Sys2Proof.Machine.execEFrame s
  | .eHeadroom => Sys2Proof.Machine.execEHeadroom s
  | .eMapalloc => Sys2Proof.Machine.execEMapalloc s
  | .eSetbit => Sys2Proof.Machine.execESetbit s
  | .eExtend => Sys2Proof.Machine.execEExtend s
  | .eEmitMatch => Sys2Proof.Machine.execEEmitMatch s
  | .eEmitLit => Sys2Proof.Machine.execEEmitLit s
  | .eStep => Sys2Proof.Machine.execEStep s
  | .dFrame => Sys2Proof.Machine.execDFrame s
  | .dSelect => Sys2Proof.Machine.execDSelect s
  | .dLit => Sys2Proof.Machine.execDLit s
  | .dMatch => Sys2Proof.Machine.execDMatch s
  | .dReplay => Sys2Proof.Machine.execDReplay s
  | .dStep => Sys2Proof.Machine.execDStep s
  | .group toks => Sys2Proof.Machine.execGroup toks s
  | .lits bytes => Sys2Proof.Machine.execLits bytes s
  | .waitEnc => Sys2Proof.Machine.execWaitEnc s
  | .waitDec => Sys2Proof.Machine.execWaitDec s

end Sys2Proof.Machine
end

