-- ==== Sys2Proof/Machine/Sequencer.lean ====
section
/-! DEFINITION. Who moves next, what each agent's move is, and how a word is laid where the decoder fetches. -/

namespace Sys2Proof.Machine

/-- The agent that moves next and the schedule after it; an empty schedule stands for one more round of the three
agents (20 R71, log entry 13). -/
def nextAgent (sched : List Agent) : Agent × List Agent :=
  match sched with
  | [] => (.host, [.encoder, .decoder])
  | a :: rest => (a, rest)

/-- One operation of the host. It has no move on the spaces of a BUSY engine (20 R77, log entry 15). -/
def hostOpStep (op : HostOp) (s : State) : Host.Outcome State Fault Refusal :=
  match op with
  | .access a => exec (decodeAccess a) s
  | .wait .encoder => exec .waitEnc s
  | .wait .decoder => exec .waitDec s
  | .store sp a b =>
    if engineBusy s (spaceOwner sp) then .refused (.hostTouchesBusySpace sp) else .next (hostWrite s sp a b)
  | .load sp a =>
    if engineBusy s (spaceOwner sp) then .refused (.hostTouchesBusySpace sp)
    else .next (returnData s ((hostRead s sp a).setWidth 32))
  | .reset => .next (resetBlock s)

/-- The host's move: its next operation, if it has one. -/
def hostMove (s : State) : Host.Outcome State Fault Refusal :=
  match s.host.prog with
  | [] => .next s
  | op :: rest => hostOpStep op { s with host := { s.host with prog := rest } }

/-- An agent's move: an engine performs its token step (42 R160, 43 R194), which for the decoder fetches, decodes and
runs the stream at `D.spos`. -/
def agentMove (a : Agent) (s : State) : Host.Outcome State Fault Refusal :=
  match a with
  | .host => hostMove s
  | .encoder => exec .eStep s
  | .decoder => exec .dStep s

/-- One step of the machine. -/
def machineStep (s : State) : Host.Outcome State Fault Refusal :=
  agentMove (nextAgent s.sched).1 { s with sched := (nextAgent s.sched).2 }

/-- Store bytes at consecutive addresses. -/
def layBytes (m : Mem) (a : Nat) : List Byte → Mem
  | [] => m
  | b :: rest => layBytes (cellWrite m a b) (a + 1) rest

/-- The decoder with a table word as the rest of its stream, BUSY and at a position of the word's kind: a group
boundary for one byte, a token whose copy-map bit is 1 for two. The stream cursor stays where it is when the word fits
there. It stands for the host's loading of a stream and its start command: log entry 14. -/
def placeWord (d : Dec) (nbits w : Nat) : Dec :=
  let bytes := tableWordBytes nbits w
  let p := if d.spos.toNat + 2 < Config.spaceSize then d.spos.toNat else 0
  { d with
    mode := .busy
    src := layBytes d.src p bytes
    slen := wordOf (p + bytes.length)
    spos := wordOf p
    cmask := if nbits = 8 then 0x080 else 0x001
    cmap := if nbits = 8 then d.cmap else 0x02 }

/-- The state in which the decoder's next step fetches and runs the word; a size the table does not have changes
nothing. -/
def placeWordState (s : State) (nbits w : Nat) : State :=
  if nbits = 8 ∨ nbits = 16 then { s with dec := placeWord s.dec nbits w, sched := .decoder :: s.sched } else s

end Sys2Proof.Machine
end

