-- ==== Sys2Proof/Machine/Step.lean ====
section
/-! DEFINITION. The step of the machine. -/

namespace Sys2Proof.Machine

/-- One move of the agent the schedule names (00 R10). -/
def step (s : State) : Host.Outcome State Fault Refusal := machineStep s

/-- `s` with the word laid where the decoder fetches its next element (log entry 14). -/
def State.withFetchWord (s : State) (nbits w : Nat) : State := placeWordState s nbits w

end Sys2Proof.Machine
end

