-- ==== Sys2Proof/Machine/Reference.lean ====
section
/-! DEFINITION. The reference functions of the spec: `compress` (42 R161) and `decompress` (43 R195), plain loops over lists
of bytes, against which the step machine can be held. Positions are natural numbers. -/

namespace Sys2Proof.Machine

/-- What a call of `compress` returns (42 R161). -/
structure CompressResult where
  result : Nat
  fallback : Bool
  out : List Byte
deriving DecidableEq, Repr

/-- What a call of `decompress` returns (43 R195). -/
structure DecompressResult where
  code : Code
  count : Nat
  out : List Byte
deriving DecidableEq, Repr

/-- Byte `i` of a buffer. -/
def byteAt (l : List Byte) (i : Nat) : Byte := l.getD i 0

/-- The inner loop of `compress`: lengthen while the next pair is equal. -/
def refExtend (src : List Byte) (spos off : Nat) : Nat → Nat → Nat
  | 0, mlen => mlen
  | fuel + 1, mlen =>
    if byteAt src (spos + mlen) = byteAt src (spos - off + mlen) then refExtend src spos off fuel (mlen + 1) else mlen

/-- The variables of the loop of `compress`. -/
structure CompressVars where
  spos : Nat
  cmask : BitVec 9
  mapaddr : Nat
  table : List (Nat × Nat)
  out : List Byte
deriving DecidableEq, Repr

/-- A slot of the reference table; the newest entry stands first, and a slot without one holds 0. -/
def refSlot : List (Nat × Nat) → Nat → Nat
  | [], _ => 0
  | (k, v) :: rest, i => if k = i then v else refSlot rest i

/-- Emit `src[spos]` as a literal. -/
def refLit (src : List Byte) (v : CompressVars) : CompressVars :=
  { v with out := v.out ++ [byteAt src v.spos], spos := v.spos + 1 }

/-- The token of one iteration of `compress`, after the copy-map byte is in place. -/
def refToken (src : List Byte) (v : CompressVars) : CompressVars :=
  if src.length - v.spos < 66 then refLit src v
  else
    let idx := (tableIndex (hash3 (byteAt src v.spos) (byteAt src (v.spos + 1)) (byteAt src (v.spos + 2)))).toNat
    let off := (v.spos % 1024 + 1024 - refSlot v.table idx % 1024) % 1024
    let v := { v with table := (idx, v.spos) :: v.table }
    if off ≠ 0 ∧ off ≤ v.spos ∧ byteAt src v.spos = byteAt src (v.spos - off)
        ∧ byteAt src (v.spos + 1) = byteAt src (v.spos - off + 1)
        ∧ byteAt src (v.spos + 2) = byteAt src (v.spos - off + 2) then
      let mlen := refExtend src v.spos off 63 3
      { v with
        out := v.out.set v.mapaddr (byteAt v.out v.mapaddr ||| maskBits v.cmask)
          ++ [BitVec.ofNat 8 ((mlen - 3) * 4 + off / 256), BitVec.ofNat 8 off]
        spos := v.spos + mlen }
    else refLit src v

/-- The loop of `compress`; every iteration takes at least one source byte, so `fuel` is the bytes left. -/
def refCompressLoop (src : List Byte) (dlen : Nat) : Nat → CompressVars → CompressResult
  | 0, v => ⟨v.out.length, false, v.out⟩
  | fuel + 1, v =>
    if v.spos < src.length then
      let m := shiftMask v.cmask
      if isNewGroup m then
        if v.out.length + Config.encAbortSlack ≥ dlen then ⟨src.length, true, v.out⟩
        else
          refCompressLoop src dlen fuel
            (refToken src { v with cmask := 0x001, mapaddr := v.out.length, out := v.out ++ [0] })
      else refCompressLoop src dlen fuel (refToken src { v with cmask := m })
    else ⟨v.out.length, false, v.out⟩

/-- `compress(src, d_len)` (42 R161). -/
def compress (src : List Byte) (dlen : Nat) : CompressResult :=
  refCompressLoop src dlen src.length ⟨0, 0x080, 0, [], []⟩

/-- Append `n` times the byte `off` back from the end. -/
def refReplay (off : Nat) : Nat → List Byte → List Byte
  | 0, out => out
  | n + 1, out => refReplay off n (out ++ [byteAt out (out.length - off)])

/-- The loop of `decompress`; every iteration takes at least one stream byte, so `fuel` is the bytes left. -/
def refDecompressLoop (src : List Byte) (cap : Nat) : Nat → Nat → BitVec 9 → Byte → List Byte → DecompressResult
  | 0, _, _, _, out => ⟨.ok, out.length, out⟩
  | fuel + 1, spos, cmask, cmap, out =>
    if spos < src.length then
      let m := shiftMask cmask
      let fresh := isNewGroup m
      let cmask := if fresh then 0x001 else m
      let cmap := if fresh then byteAt src spos else cmap
      let spos := if fresh then spos + 1 else spos
      if spos = src.length then ⟨.ok, out.length, out⟩
      else if mapBit cmap cmask then
        if src.length - spos < 2 then ⟨.badData, 0, out⟩
        else
          let mlen := (byteAt src spos).toNat / 4 + 3
          let off := ((byteAt src spos).toNat * 256 + (byteAt src (spos + 1)).toNat) % 1024
          if off > out.length then ⟨.badData, 0, out⟩
          else if off = 0 then ⟨.badData, 0, out⟩
          else if mlen > cap - out.length then ⟨.wouldOverflow, 0, out⟩
          else refDecompressLoop src cap fuel (spos + 2) cmask cmap (refReplay off mlen out)
      else if out.length ≥ cap then ⟨.wouldOverflow, 0, out⟩
      else refDecompressLoop src cap fuel (spos + 1) cmask cmap (out ++ [byteAt src spos])
    else ⟨.ok, out.length, out⟩

/-- `decompress(src, cap)` (43 R195). -/
def decompress (src : List Byte) (cap : Nat) : DecompressResult :=
  refDecompressLoop src cap src.length 0 0x080 0 []

end Sys2Proof.Machine
end

