-- ==== Sys2Proof/Safety.lean ====
section
/-! DEFINITION. The terms claims are stated in: when an engine is inside a call, the invariants of the two engines, the size
bound, well-formed streams, runs of the machine. -/

namespace Sys2Proof.Machine

/-- The encoder can take a token step (42 R158). -/
abbrev encActive (e : Enc) : Prop := e.mode = .busy ∧ e.spos.toNat < e.slen.toNat

/-- The decoder can take a token step (43 R191). -/
abbrev decActive (d : Dec) : Prop := d.mode = .busy ∧ d.spos.toNat < d.slen.toNat

/-- The values of a mask between two steps of a call (10 R28). -/
def isTokenMask (m : BitVec 9) : Bool :=
  m == 0x001 || m == 0x002 || m == 0x004 || m == 0x008 || m == 0x010 || m == 0x020 || m == 0x040 || m == 0x080

/-- The tokens a group can still take after the token the mask points at (10 R28). -/
def tokensLeft (m : BitVec 9) : Nat :=
  if m = 0x001 then 7 else if m = 0x002 then 6 else if m = 0x004 then 5 else if m = 0x008 then 4
  else if m = 0x010 then 3 else if m = 0x020 then 2 else if m = 0x040 then 1 else 0

/-- The encoder between steps. During a call the cursors are in their buffers (10 R25, R27), the mask is one-hot
(R28), the open group has room for its remaining tokens (41 R144) and a copy-map byte below the cursor (41 R143), and
the results read 0 (44 R213); outside a call of its own the fallback flag is 0 (10 R34). -/
structure EncInv (e : Enc) : Prop where
  srcWf : Memory.wf e.src = true
  dstWf : Memory.wf e.dst = true
  tableWf : Table.wf e.table = true
  wires : e.w = EncWires.none
  idle : e.mode = .idle → e.result = 0 ∧ e.fallback = false
  busyResult : e.mode = .busy → e.result = 0 ∧ e.fallback = false
  cursor : e.mode = .busy → e.spos.toNat < e.slen.toNat
  mask : e.mode = .busy → isTokenMask e.cmask = true
  room : e.mode = .busy → e.dpos.toNat + 2 * tokensLeft e.cmask ≤ e.dlen.toNat
  mapBelow : e.mode = .busy → e.cmask ≠ 0x080 → e.mapaddr.toNat < e.dpos.toNat

/-- The decoder between steps (10 R26 to R28, R40; 44 R213). -/
structure DecInv (d : Dec) : Prop where
  srcWf : Memory.wf d.src = true
  dstWf : Memory.wf d.dst = true
  wires : d.w = DecWires.none
  idle : d.mode = .idle → d.count = 0 ∧ d.code = .ok
  busyResult : d.mode = .busy → d.count = 0 ∧ d.code = .ok
  failCount : d.code ≠ .ok → d.count = 0
  cursor : d.mode = .busy → d.spos.toNat < d.slen.toNat
  mask : d.mode = .busy → isTokenMask d.cmask = true
  room : d.mode = .busy → d.dpos.toNat ≤ d.dcap.toNat

/-- The invariant of the machine. -/
structure Inv (s : State) : Prop where
  enc : EncInv s.enc
  dec : DecInv s.dec

/-- Every table entry is a position not above the cursor (40 R124, R130). -/
def TablePast (e : Enc) : Prop := ∀ i : Nat, (cellRead e.table i).toNat ≤ e.spos.toNat

/-- `s_len + ceil(s_len/8) + 16`, the host's size bound (44 R214). -/
def sizeBound (slen : Nat) : Nat := slen + (slen + 7) / 8 + Config.boundPad

/-- What a call into a destination of at least the size bound keeps (41 R146): a byte written per source byte, and an
eighth for the groups, less what the open group has not used. -/
structure BoundInv (e : Enc) : Prop where
  bound : sizeBound e.slen.toNat ≤ e.dlen.toNat
  written : e.mode = .busy → 8 * e.dpos.toNat ≤ 9 * e.spos.toNat + tokensLeft e.cmask

/-- The bytes of a space below address `n`, in order. -/
def prefixBytes (m : Mem) (n : Nat) : List Byte := (List.range n).map (cellRead m)

/-- A stream is well-formed for a capacity when decoding it ends in OK (30 R108). -/
def wellFormedFor (stream : List Byte) (cap : Nat) : Prop := (decompress stream cap).code = .ok

/-- `n` steps of the machine. -/
def runSteps (n : Nat) (s : State) : Host.Outcome State Fault Refusal := Sys2Proof.core.run n s

/-- The machine with the next `n` moves given to one agent. -/
def scheduled (a : Agent) (n : Nat) (s : State) : State := { s with sched := List.replicate n a ++ s.sched }

/-- Go on from a next state; a fault or a refusal ends the run. -/
def andThen (o : Host.Outcome State Fault Refusal) (f : State → Host.Outcome State Fault Refusal) :
    Host.Outcome State Fault Refusal :=
  match o with
  | .next s => f s
  | .fault r => .fault r
  | .refused r => .refused r

/-- Run instructions one after another. -/
def execAll : List Instr → State → Host.Outcome State Fault Refusal
  | [], s => .next s
  | i :: is, s => andThen (exec i s) (execAll is)

/-- The bytes a token adds to what is already produced (43 R183, R189). -/
def tokenOutput (t : Token) (out : List Byte) : List Byte :=
  match t with
  | .lit b => out ++ [b]
  | .mat len off => refReplay off.toNat (mlenOf len) out

/-- The bytes produced after a list of tokens. -/
def tokensOutput : List Token → List Byte → List Byte
  | [], out => out
  | t :: ts, out => tokensOutput ts (tokenOutput t out)

/-- Every match of the list points into what is produced before it (30 R108). -/
def offsetsValid : List Token → List Byte → Prop
  | [], _ => True
  | t :: ts, out =>
    (match t with
      | .lit _ => True
      | .mat _ off => 1 ≤ off.toNat ∧ off.toNat ≤ out.length) ∧ offsetsValid ts (tokenOutput t out)

end Sys2Proof.Machine
end

