-- ==== Sys2Proof/Certificates/Slice0/Obligations.lean ====
section
/-! DEFINITION. The statements for the provers, from the numbered rules of spec/. -/

open Sys2Proof Sys2Proof.Machine

/-! ### Encodings -/

/-- 30 R91 to R95, R99, R104: decoding the encoding of a well-formed instruction gives it back, for every instruction
that has an encoding and every operand. -/
def Obligations.DecodeEncodeRoundTrip : Prop :=
  ∀ (i : Instr) (w : Encoding), i.wf = true → encode i = some w → decode w = .ok i

/-- 30 R94, R95, R96: the two bytes of a match token and its length and offset, in plain numbers both ways, and the
map between byte pairs and field pairs is a bijection. -/
def Obligations.MatchFieldsBijection : Prop :=
  (∀ b0 b1 : Byte,
    mlenOf (lenOfByte0 b0) = b0.toNat / 4 + 3 ∧ 3 ≤ mlenOf (lenOfByte0 b0) ∧ mlenOf (lenOfByte0 b0) ≤ 66 ∧
    (offOfBytes b0 b1).toNat = (b0.toNat * 256 + b1.toNat) % 1024 ∧
    byte0Of (lenFieldOf (mlenOf (lenOfByte0 b0))) (offOfBytes b0 b1) = b0 ∧ byte1Of (offOfBytes b0 b1) = b1) ∧
  ∀ (mlen offset : Nat), 3 ≤ mlen → mlen ≤ 66 → offset ≤ 1023 →
    (byte0Of (lenFieldOf mlen) (BitVec.ofNat 10 offset)).toNat = (mlen - 3) * 4 + offset / 256 ∧
    (byte1Of (BitVec.ofNat 10 offset)).toNat = offset % 256 ∧
    mlenOf (lenOfByte0 (byte0Of (lenFieldOf mlen) (BitVec.ofNat 10 offset))) = mlen ∧
    (offOfBytes (byte0Of (lenFieldOf mlen) (BitVec.ofNat 10 offset)) (byte1Of (BitVec.ofNat 10 offset))).toNat = offset

/-- Words written out from 30 R91 to R95, R99, R104, and the vectors V1, V2, V6, V7 of 95_test_vectors. -/
def Obligations.SampleWordsDecode : Prop :=
  decode (.element .map [0b00001010#8]) = .ok (.map 0x0A) ∧
  decode (.element .lit [0b01100010#8]) = .ok (.lit 0x62) ∧
  decode (.element .mat [0b00000000#8, 0b00000001#8]) = .ok (.matchTok 0 1) ∧
  decode (.element .mat [0b11111111#8, 0b11111111#8]) = .ok (.matchTok 63 1023) ∧
  decode (.element .mat [0b00011101#8, 0b00101100#8]) = .ok (.matchTok 7 300) ∧
  decode (.element .mat [0b11111100#8, 0b00000000#8]) = .ok (.matchReserved 63) ∧
  decode (.element .mat [0b11111100#8]) = .error .truncatedMatch ∧
  decode (.access (.write 2 3)) = .ok (.encStart 3) ∧
  decode (.access (.write 7 1)) = .ok (.decStart 1) ∧
  decode (.access (.write 2 2)) = .ok (.wr 2 2) ∧
  decode (.access (.read 8)) = .ok (.rd 8)

/-- 30 R97, R106, R107: bit `i` of a group's MAP byte says whether token `i` is a match, and walking the assembled
bytes of a group gives the MAP and the tokens back. -/
def Obligations.GroupDisassembles : Prop :=
  ∀ toks : List Token, 1 ≤ toks.length → toks.length ≤ 8 →
    (∀ i (h : i < toks.length), (groupMap toks).getLsbD i = tokenIsMatch (toks[i])) ∧
    (∀ i, toks.length ≤ i → (groupMap toks).getLsbD i = false) ∧
    disassemble (assemble (.group toks)) =
      .ok (.map (groupMap toks) :: toks.map (fun t =>
        match t with
        | .lit b => .lit b
        | .mat len off => if off = 0 then .matchReserved len else .matchTok len off))

/-! ### A step runs the decoded instruction -/

/-- 30 R97, 43 R191: when the decoder moves next inside a call and the position is a token's, the step is the decoded
token run on the state whose mask has moved on, with the end test of the token step after it. -/
def Obligations.StepRunsDecodedToken : Prop :=
  ∀ (s : State) (rest : List Agent) (i : Instr) (t : State),
    s.sched = .decoder :: rest → decActive s.dec →
    isNewGroup (shiftMask s.dec.cmask) = false →
    fetchElement (if mapBit s.dec.cmap (shiftMask s.dec.cmask) then .mat else .lit) s.dec = .ok i →
    exec i { s with
      sched := rest
      dec := { s.dec with
        cmask := shiftMask s.dec.cmask
        w := { s.dec.w with ismatch := mapBit s.dec.cmap (shiftMask s.dec.cmask) } } } = .next t →
    i.wf = true ∧ step s = .next { t with dec := clearDecWires (finishDecIfEnd t.dec) }

/-- 43 R180, R181, R191: at a group boundary the step runs the decoded MAP, which ends the call if it is the last
byte, and otherwise the token after it. -/
def Obligations.StepRunsDecodedMap : Prop :=
  ∀ (s : State) (rest : List Agent) (i : Instr) (t : State),
    s.sched = .decoder :: rest → decActive s.dec →
    isNewGroup (shiftMask s.dec.cmask) = true →
    fetchElement .map s.dec = .ok i →
    exec i { s with sched := rest, dec := { s.dec with cmask := 0x100 } } = .next t →
    i.wf = true ∧
    (s.dec.spos.toNat + 1 = s.dec.slen.toNat → step s = .next { t with dec := clearDecWires t.dec }) ∧
    (s.dec.spos.toNat + 1 < s.dec.slen.toNat →
      step s = andThen (execAll [.dSelect, if mapBit t.dec.cmap t.dec.cmask then .dMatch else .dLit] t)
        fun u => .next { u with dec := clearDecWires (finishDecIfEnd u.dec) })

/-- 30 R104, 44 R212, R213: when the host moves next, the step is its decoded register access; when the encoder moves
next, the step is its token step (42 R160). -/
def Obligations.StepRunsHostAndEncoder : Prop :=
  (∀ (s : State) (rest : List Agent) (a : HostAccess) (ops : List HostOp),
    s.sched = .host :: rest → s.host.prog = .access a :: ops →
    decode (.access a) = .ok (decodeAccess a) ∧
    step s = exec (decodeAccess a) { s with sched := rest, host := { s.host with prog := ops } }) ∧
  ∀ (s : State) (rest : List Agent), s.sched = .encoder :: rest → step s = exec .eStep { s with sched := rest }

/-! ### Reset -/

/-- 10 R47, 70 R260: what reset leaves, and every host register reads 0 after it. The memory contents and the table,
which the spec leaves unspecified, are not named here. -/
def Obligations.ResetValues : Prop :=
  State.reset.enc.mode = .idle ∧ State.reset.enc.slen = 0 ∧ State.reset.enc.dlen = 0 ∧
  State.reset.enc.fallback = false ∧ State.reset.enc.result = 0 ∧ State.reset.enc.spos = 0 ∧
  State.reset.enc.dpos = 0 ∧ State.reset.enc.cmask = 0x080 ∧ State.reset.enc.mapaddr = 0 ∧
  State.reset.enc.mapval = 0 ∧
  State.reset.dec.mode = .idle ∧ State.reset.dec.slen = 0 ∧ State.reset.dec.dcap = 0 ∧ State.reset.dec.code = .ok ∧
  State.reset.dec.count = 0 ∧ State.reset.dec.spos = 0 ∧ State.reset.dec.dpos = 0 ∧
  State.reset.dec.cmask = 0x080 ∧ State.reset.dec.cmap = 0 ∧
  (∀ reg : Nat, readReg State.reset reg = 0) ∧
  encDoneOut State.reset.enc = false ∧ decDoneOut State.reset.dec = false

/-- The invariant holds at reset. -/
def Obligations.ResetHoldsInvariant : Prop :=
  Inv State.reset ∧ TablePast State.reset.enc

/-- 70 R260, R261: the reset input puts every register at its reset value from any state, touches no source space, and
touches a destination only inside the capacity of a call it abandons (free bytes there: log entry 16). R47 and R260
leave the match table unspecified; that it is all 0 after reset is the model's choice (log entry 6), and so is that the
wires, which have no value between steps, are 0 (log entry 7). -/
def Obligations.ResetInputEffect : Prop :=
  ∀ s : State, ∃ t : State,
    hostOpStep .reset s = .next t ∧
    t.enc = Enc.resetWith s.enc.src t.enc.dst ∧ t.dec = Dec.resetWith s.dec.src t.dec.dst ∧
    t.host = s.host ∧ t.sched = s.sched ∧
    (∀ a : Nat, (s.enc.mode = .busy → s.enc.dlen.toNat ≤ a) → cellRead t.enc.dst a = cellRead s.enc.dst a) ∧
    (∀ a : Nat, (s.dec.mode = .busy → s.dec.dcap.toNat ≤ a) → cellRead t.dec.dst a = cellRead s.dec.dst a) ∧
    (Memory.wf s.enc.dst = true → Memory.wf t.enc.dst = true) ∧
    (Memory.wf s.dec.dst = true → Memory.wf t.dec.dst = true)

/-! ### Invariants of the machine -/

/-- Every step keeps the invariant: canonical memory, one-hot masks, cursors inside their buffers, room for the open
group, results 0 outside DONE (10 R25 to R28, R40; 41 R144; 44 R213). -/
def Obligations.StepKeepsInvariant : Prop :=
  ∀ s t : State, Inv s → step s = .next t → Inv t

/-- 60 R234, 20 R68, R69: from an invariant state no step faults; the one refusal is the host touching a space of a
BUSY engine. -/
def Obligations.StepNeverFaults : Prop :=
  ∀ s : State, Inv s →
    (∃ t, step s = .next t) ∨ ∃ sp : Space, step s = .refused (.hostTouchesBusySpace sp) ∧
      engineBusy s (spaceOwner sp) = true

/-- 41 R146: a call into a destination of at least the size bound never falls back; the bound on the bytes written
holds at the start command and is kept by every token step. -/
def Obligations.SizeBoundNeverFallsBack : Prop :=
  (∀ e : Enc, e.mode ≠ .busy → sizeBound e.slen.toNat ≤ e.dlen.toNat → BoundInv (startEnc e)) ∧
  ∀ s t : State, EncInv s.enc → BoundInv s.enc → s.enc.mode = .busy → exec .eStep s = .next t →
    t.enc.fallback = false ∧ BoundInv t.enc ∧ t.enc.dpos.toNat ≤ t.enc.dlen.toNat

/-- 40 R130: the table holds only positions not above the cursor, from the start command on, so at every lookup the
offset is not above the cursor and the range test is true. -/
def Obligations.CandidateAlwaysInRange : Prop :=
  (∀ e : Enc, e.mode ≠ .busy → TablePast (startEnc e)) ∧
  (∀ s t : State, TablePast s.enc → s.enc.mode = .busy → exec .eStep s = .next t → TablePast t.enc) ∧
  ∀ e : Enc, TablePast e → ∀ idx : OffField,
    offsetInRange e.spos (matchOffset e.spos (cellRead e.table idx.toNat)) = true

/-- 10 R21, 30 R98, 41 R143, R145: between steps of a call the copy-map byte in `EDST` is the shadow register, and
its bits above the current token are 0. -/
def Obligations.CopyMapByteIsShadow : Prop :=
  ∀ s t : State, EncInv s.enc → s.enc.mode = .busy →
    (s.enc.cmask ≠ 0x080 →
      cellRead s.enc.dst s.enc.mapaddr.toNat = s.enc.mapval ∧ s.enc.mapval.toNat < 2 * s.enc.cmask.toNat) →
    exec .eStep s = .next t → t.enc.fallback = false →
    cellRead t.enc.dst t.enc.mapaddr.toNat = t.enc.mapval ∧ t.enc.mapval.toNat < 2 * t.enc.cmask.toNat

/-- 42 R160, 43 R194, 70 R271: given the moves, a call of either engine ends after at most as many token steps as
there are source bytes left. -/
def Obligations.CallsEnd : Prop :=
  (∀ s : State, EncInv s.enc → s.enc.mode = .busy →
    ∃ t, runSteps (s.enc.slen.toNat - s.enc.spos.toNat)
        (scheduled .encoder (s.enc.slen.toNat - s.enc.spos.toNat) s) = .next t ∧ t.enc.mode = .done ∧ t.dec = s.dec) ∧
  ∀ s : State, DecInv s.dec → s.dec.mode = .busy →
    ∃ t, runSteps (s.dec.slen.toNat - s.dec.spos.toNat)
        (scheduled .decoder (s.dec.slen.toNat - s.dec.spos.toNat) s) = .next t ∧ t.dec.mode = .done ∧ t.enc = s.enc

/-! ### The step machine and the reference functions -/

/-- 43 R195: a whole decoder call is `decompress` of the stream and the capacity. -/
def Obligations.DecoderCallIsDecompress : Prop :=
  ∀ s : State, s.dec.mode ≠ .busy →
    ∃ t, runSteps s.dec.slen.toNat
        (scheduled .decoder s.dec.slen.toNat { s with dec := startDec s.dec }) = .next t ∧
      t.dec.mode = .done ∧
      t.dec.code = (decompress (prefixBytes s.dec.src s.dec.slen.toNat) s.dec.dcap.toNat).code ∧
      t.dec.count.toNat = (decompress (prefixBytes s.dec.src s.dec.slen.toNat) s.dec.dcap.toNat).count ∧
      prefixBytes t.dec.dst t.dec.dpos.toNat =
        (decompress (prefixBytes s.dec.src s.dec.slen.toNat) s.dec.dcap.toNat).out

/-- 42 R161: a whole encoder call is `compress` of the source and the capacity. -/
def Obligations.EncoderCallIsCompress : Prop :=
  ∀ s : State, s.enc.mode ≠ .busy →
    ∃ t, runSteps s.enc.slen.toNat
        (scheduled .encoder s.enc.slen.toNat { s with enc := startEnc s.enc }) = .next t ∧
      t.enc.mode = .done ∧
      t.enc.fallback = (compress (prefixBytes s.enc.src s.enc.slen.toNat) s.enc.dlen.toNat).fallback ∧
      t.enc.result.toNat = (compress (prefixBytes s.enc.src s.enc.slen.toNat) s.enc.dlen.toNat).result ∧
      prefixBytes t.enc.dst t.enc.dpos.toNat =
        (compress (prefixBytes s.enc.src s.enc.slen.toNat) s.enc.dlen.toNat).out

/-- 42 R162: a call that does not fall back leaves a stream that decodes to the source in any destination large
enough. -/
def Obligations.RoundTrip : Prop :=
  ∀ (src : List Byte) (dlen cap : Nat), (compress src dlen).fallback = false → src.length ≤ cap →
    decompress (compress src dlen).out cap = ⟨.ok, src.length, src⟩

/-- 43 R196: decoding a stream that is well-formed for some capacity into less than its decoded length gives
WOULD_OVERFLOW, and into at least that length gives the same bytes. -/
def Obligations.OverflowDetection : Prop :=
  ∀ (stream : List Byte) (cap cap' : Nat), wellFormedFor stream cap →
    (cap' < (decompress stream cap).out.length → (decompress stream cap').code = .wouldOverflow) ∧
    ((decompress stream cap).out.length ≤ cap' → decompress stream cap' = decompress stream cap)

/-! ### Host commands -/

/-- 44 R210, R211: the start commands. Each is ignored when its engine is BUSY; else every working register, the
table and the results start afresh, and the mode is BUSY, or DONE for an empty source. -/
def Obligations.StartCommands : Prop :=
  ∀ (s : State) (v : Word), v.getLsbD 0 = true →
    (s.enc.mode = .busy → exec (.encStart v) s = .next s) ∧
    (s.enc.mode ≠ .busy → ∃ t : State, exec (.encStart v) s = .next t ∧
      t = { s with enc := { s.enc with
        spos := 0, dpos := 0, cmask := 0x080, mapaddr := 0, mapval := 0, table := t.enc.table
        result := 0, fallback := false, mode := if s.enc.slen = 0 then .done else .busy } } ∧
      (∀ i : Nat, cellRead t.enc.table i = 0) ∧ Table.wf t.enc.table = true) ∧
    (s.dec.mode = .busy → exec (.decStart v) s = .next s) ∧
    (s.dec.mode ≠ .busy → exec (.decStart v) s = .next { s with dec := { s.dec with
      spos := 0, dpos := 0, cmask := 0x080, cmap := 0, count := 0, code := .ok
      mode := if s.dec.slen = 0 then .done else .busy } })

/-- 44 R212, 30 R104: host register writes. A parameter write takes effect unless its engine is BUSY, a control write
with bit 0 set is the start command, every other write is ignored. -/
def Obligations.RegisterWriteEffect : Prop :=
  ∀ (s : State) (v : Word),
    (exec (.wr 0 v) s = .next (if s.enc.mode = .busy then s else { s with enc := { s.enc with slen := v } })) ∧
    (exec (.wr 1 v) s = .next (if s.enc.mode = .busy then s else { s with enc := { s.enc with dlen := v } })) ∧
    (exec (.wr 5 v) s = .next (if s.dec.mode = .busy then s else { s with dec := { s.dec with slen := v } })) ∧
    (exec (.wr 6 v) s = .next (if s.dec.mode = .busy then s else { s with dec := { s.dec with dcap := v } })) ∧
    (exec (.wr 2 v) s = if v.getLsbD 0 then exec (.encStart v) s else .next s) ∧
    (exec (.wr 7 v) s = if v.getLsbD 0 then exec (.decStart v) s else .next s) ∧
    ∀ reg : Nat, reg = 3 ∨ reg = 4 ∨ reg = 8 ∨ 9 ≤ reg → exec (.wr reg v) s = .next s

/-- 44 R213, 10 R30: host register reads give the current value and change nothing but the data the host receives. -/
def Obligations.RegisterReadEffect : Prop :=
  ∀ (s : State) (reg : Nat), ∃ v : Word,
    exec (.rd reg) s = .next { s with host := { s.host with rdata := v } } ∧
    (reg = 0 → v = s.enc.slen) ∧ (reg = 1 → v = s.enc.dlen) ∧ (reg = 4 → v = s.enc.result) ∧
    (reg = 5 → v = s.dec.slen) ∧ (reg = 6 → v = s.dec.dcap) ∧ (reg = 9 → v = s.dec.count) ∧
    (reg = 2 ∨ reg = 7 ∨ 9 < reg → v = 0) ∧
    (reg = 3 → v.getLsbD 0 = (s.enc.mode == .busy) ∧ v.getLsbD 1 = (s.enc.mode == .done) ∧
      v.getLsbD 2 = s.enc.fallback ∧ ∀ k, 3 ≤ k → v.getLsbD k = false) ∧
    (reg = 8 → v.getLsbD 0 = (s.dec.mode == .busy) ∧ v.getLsbD 1 = (s.dec.mode == .done) ∧
      v.getLsbD 2 = (s.dec.code == .badData) ∧ v.getLsbD 3 = (s.dec.code == .wouldOverflow) ∧
      ∀ k, 4 ≤ k → v.getLsbD k = false)

/-- 30 R107: the waits read the status register and are over when DONE reads 1, else they are the host's next operation
again (log entry 18). -/
def Obligations.WaitLoops : Prop :=
  ∀ s : State,
    (s.enc.mode = .done → exec .waitEnc s = .next { s with host := { s.host with rdata := encStatus s.enc } }) ∧
    (s.enc.mode ≠ .done → exec .waitEnc s = .next { s with
      host := { prog := .wait .encoder :: s.host.prog, rdata := encStatus s.enc } }) ∧
    (s.dec.mode = .done → exec .waitDec s = .next { s with host := { s.host with rdata := decStatus s.dec } }) ∧
    (s.dec.mode ≠ .done → exec .waitDec s = .next { s with
      host := { prog := .wait .decoder :: s.host.prog, rdata := decStatus s.dec } })

/-- 20 R62, R66, R77: the host reads and writes single bytes of a space whose engine is not BUSY, and has no move on a
space of a BUSY engine (refused: log entry 15). A store changes that byte and nothing else: no register of either
engine, no table entry, no other byte. That the host reaches every 32-bit position whatever the length is the model's
choice (log entry 25), and so is the zero-extended byte in `rdata` (log entry 14). -/
def Obligations.HostMemoryAccess : Prop :=
  ∀ (s : State) (sp : Space) (a : Word) (b : Byte),
    (engineBusy s (spaceOwner sp) = true →
      hostOpStep (.store sp a b) s = .refused (.hostTouchesBusySpace sp) ∧
      hostOpStep (.load sp a) s = .refused (.hostTouchesBusySpace sp)) ∧
    (engineBusy s (spaceOwner sp) = false →
      hostOpStep (.load sp a) s = .next { s with host := { s.host with rdata := (hostRead s sp a).setWidth 32 } } ∧
      ∃ t : State, hostOpStep (.store sp a b) s = .next t ∧
        t = { s with
          enc := { s.enc with src := t.enc.src, dst := t.enc.dst }
          dec := { s.dec with src := t.dec.src, dst := t.dec.dst } } ∧
        ∀ (sp' : Space) (a' : Word), hostRead t sp' a' = if sp' = sp ∧ a' = a then b else hostRead s sp' a')

/-- What the host commands leave unchanged: all four spaces, the schedule, the other engine, and for the reads and
waits both engines. -/
def Obligations.FrameHostCommands : Prop :=
  ∀ (s t : State) (v : Word) (reg : Nat),
    (exec (.encStart v) s = .next t → t.dec = s.dec ∧ t.host = s.host ∧ t.sched = s.sched ∧ t.freeCtr = s.freeCtr ∧
      t.enc.src = s.enc.src ∧ t.enc.dst = s.enc.dst ∧ t.enc.slen = s.enc.slen ∧ t.enc.dlen = s.enc.dlen) ∧
    (exec (.decStart v) s = .next t → t.enc = s.enc ∧ t.host = s.host ∧ t.sched = s.sched ∧ t.freeCtr = s.freeCtr ∧
      t.dec.src = s.dec.src ∧ t.dec.dst = s.dec.dst ∧ t.dec.slen = s.dec.slen ∧ t.dec.dcap = s.dec.dcap) ∧
    (exec (.wr reg v) s = .next t → t.host = s.host ∧ t.sched = s.sched ∧ t.freeCtr = s.freeCtr ∧
      t.enc.src = s.enc.src ∧ t.enc.dst = s.enc.dst ∧ t.dec.src = s.dec.src ∧ t.dec.dst = s.dec.dst ∧
      (reg < 5 → t.dec = s.dec) ∧ (5 ≤ reg → t.enc = s.enc)) ∧
    ∀ i ∈ [Instr.rd reg, .waitEnc, .waitDec], exec i s = .next t →
      t.enc = s.enc ∧ t.dec = s.dec ∧ t.sched = s.sched ∧ t.freeCtr = s.freeCtr

/-! ### The match finder -/

/-- 40 R120, R127: the tail guard, and the acceptance test. -/
def Obligations.GuardAndAccept : Prop :=
  ∀ s : State, encActive s.enc → ∃ a b : Bool,
    exec .eTailguard s = .next { s with enc := { s.enc with w := { s.enc.w with tail := a } } } ∧
    (a = true ↔ s.enc.slen.toNat - s.enc.spos.toNat < 66) ∧
    exec .eAccept s = .next { s with enc := { s.enc with w := { s.enc.w with accept := b } } } ∧
    (b = true ↔ s.enc.w.inrange = true ∧ s.enc.w.off ≠ 0 ∧ s.enc.w.eq3 = true)

/-- 40 R121, R122, R128: the hash of the three bytes at the cursor in plain numbers, so that no addition wraps, and
the table index. The seed is log entry 2; that the hash does the same in the tail is the model's choice (log entry
27). -/
def Obligations.HashAndIndex : Prop :=
  ∀ s : State, encActive s.enc →
    (s.enc.spos.toNat + 2 < s.enc.slen.toNat → ∃ h : BitVec 32,
      exec .eHash3 s = .next { s with enc := { s.enc with w := { s.enc.w with h := h } } } ∧
      ∃ h0 h1 : Nat,
        h0 = (cellRead s.enc.src s.enc.spos.toNat).toNat * 65536
          + (cellRead s.enc.src (s.enc.spos.toNat + 1)).toNat * 256
          + (cellRead s.enc.src (s.enc.spos.toNat + 2)).toNat ∧
        h1 = h0 + h0 / 512 ∧ h.toNat = h1 + h1 / 32) ∧
    ∃ idx : OffField, exec .eTindex s = .next { s with enc := { s.enc with w := { s.enc.w with idx := idx } } } ∧
      idx.toNat = s.enc.w.h.toNat % 1024

/-- 40 R123, 70 R265: the lookup gives what the entry held before and then records the position, always; no other
entry changes. That it does the same in the tail is the model's choice (log entry 27). -/
def Obligations.LookupExchanges : Prop :=
  ∀ s : State, encActive s.enc → ∃ t : State,
    exec .eTlookup s = .next t ∧
    t = { s with enc := { s.enc with w := { s.enc.w with old := cellRead s.enc.table s.enc.w.idx.toNat }
                                     table := t.enc.table } } ∧
    ∀ i : Nat, cellRead t.enc.table i = if i = s.enc.w.idx.toNat then s.enc.spos else cellRead s.enc.table i

/-- 40 R124, R125: the offset is the difference of the positions modulo 1024, whatever their order; the range test;
and the candidate where it holds. Where it does not, the candidate is the free value of log entry 8, of which nothing
is said. -/
def Obligations.OffsetAndCandidate : Prop :=
  ∀ s : State, encActive s.enc →
    (∃ off : OffField,
      exec .eOffset s = .next { s with enc := { s.enc with w := { s.enc.w with off := off } } } ∧
      (off.toNat : Int) = ((s.enc.spos.toNat : Int) - (s.enc.w.old.toNat : Int)) % 1024) ∧
    ∃ (r : Bool) (c : Word),
      exec .eCand s = .next { s with enc := { s.enc with w := { s.enc.w with inrange := r, cand := c } } } ∧
      (r = true ↔ s.enc.w.off.toNat ≤ s.enc.spos.toNat) ∧
      (r = true → c.toNat = s.enc.spos.toNat - s.enc.w.off.toNat)

/-- 40 R126, R127: the three bytes at the cursor against the three at the candidate, read only when the candidate is
in range and not the cursor itself. -/
def Obligations.CompareThreeBytes : Prop :=
  ∀ s : State, encActive s.enc →
    ((s.enc.w.inrange = true ∧ s.enc.w.off ≠ 0) → s.enc.spos.toNat + 2 < s.enc.slen.toNat →
      s.enc.w.cand.toNat ≤ s.enc.spos.toNat → ∃ b : Bool,
      exec .eCmp3 s = .next { s with enc := { s.enc with w := { s.enc.w with eq3 := b } } } ∧
      (b = true ↔ ∀ k < 3, cellRead s.enc.src (s.enc.spos.toNat + k) = cellRead s.enc.src (s.enc.w.cand.toNat + k))) ∧
    (¬(s.enc.w.inrange = true ∧ s.enc.w.off ≠ 0) → exec .eCmp3 s = .next s)

/-- 40 R129: the cursor moves by 1 after a literal and by the match length after a match. -/
def Obligations.AdvanceMovesCursor : Prop :=
  ∀ s : State, encActive s.enc →
    (s.enc.w.tail = true ∨ s.enc.w.accept = false → ∃ p : Word,
      exec .eAdvance s = .next { s with enc := { s.enc with spos := p } } ∧ p.toNat = s.enc.spos.toNat + 1) ∧
    (s.enc.w.tail = false → s.enc.w.accept = true → s.enc.spos.toNat + mlenOf s.enc.w.len ≤ s.enc.slen.toNat →
      ∃ p : Word, exec .eAdvance s = .next { s with enc := { s.enc with spos := p } } ∧
        p.toNat = s.enc.spos.toNat + mlenOf s.enc.w.len)

/-- 40 R131, 42 R155: every accepted match is genuine and as long as it can be: whatever the table held, the offset is
1 to the cursor, every byte of the match equals the byte that far back, and a match shorter than 66 stops at an unequal
pair. -/
def Obligations.AcceptedMatchIsGenuine : Prop :=
  ∀ e e1 e2 : Enc, e.spos.toNat + 66 ≤ e.slen.toNat → findOp e = .ok e1 → e1.w.accept = true → extendOp e1 = .ok e2 →
    1 ≤ e2.w.off.toNat ∧ e2.w.off.toNat ≤ e.spos.toNat ∧ e2.spos = e.spos ∧ e2.src = e.src ∧
    (∀ k < mlenOf e2.w.len, cellRead e.src (e.spos.toNat + k) = cellRead e.src (e.spos.toNat - e2.w.off.toNat + k)) ∧
    (mlenOf e2.w.len < 66 →
      cellRead e.src (e.spos.toNat + mlenOf e2.w.len)
        ≠ cellRead e.src (e.spos.toNat - e2.w.off.toNat + mlenOf e2.w.len))

/-- What the micro-operations of the match finder and the extender leave unchanged: everything but their wires, and
for the lookup all table entries but the one indexed; the advance changes the cursor only. -/
def Obligations.FrameMatchFinder : Prop :=
  ∀ s t : State,
    (∀ i ∈ [Instr.eTailguard, .eHash3, .eTindex, .eOffset, .eCand, .eCmp3, .eAccept, .eExtend], exec i s = .next t →
      t = { s with enc := { s.enc with w := t.enc.w } }) ∧
    (exec .eTlookup s = .next t →
      t = { s with enc := { s.enc with w := t.enc.w, table := t.enc.table } } ∧
      ∀ j : Nat, j ≠ s.enc.w.idx.toNat → cellRead t.enc.table j = cellRead s.enc.table j) ∧
    (exec .eAdvance s = .next t → t = { s with enc := { s.enc with spos := t.enc.spos } })

/-! ### The copy-map framer -/

/-- 41 R141, 60 R233: the headroom check. With fewer than 18 bytes free the call ends in fallback: result, flag and
mode, nothing else; otherwise nothing changes. The constant is log entry 3; that the check does the same off a group
boundary is the model's choice (log entry 27). -/
def Obligations.HeadroomCheck : Prop :=
  ∀ s : State, encActive s.enc →
    (s.enc.dlen.toNat < s.enc.dpos.toNat + 18 →
      exec .eHeadroom s = .next { s with enc := { s.enc with result := s.enc.slen, fallback := true, mode := .done } }) ∧
    (s.enc.dpos.toNat + 18 ≤ s.enc.dlen.toNat → exec .eHeadroom s = .next s)

/-- 41 R142: allocating the copy-map byte. That it does the same without a new group and a passed headroom check, given
room for the byte, is the model's choice (log entry 27). -/
def Obligations.MapByteAllocation : Prop :=
  ∀ s : State, encActive s.enc → s.enc.dpos.toNat < s.enc.dlen.toNat → ∃ t : State,
    exec .eMapalloc s = .next t ∧
    t = { s with enc := { s.enc with cmask := 0x001, mapaddr := s.enc.dpos, mapval := 0
                                     dst := t.enc.dst, dpos := t.enc.dpos } } ∧
    t.enc.dpos.toNat = s.enc.dpos.toNat + 1 ∧
    ∀ a : Nat, cellRead t.enc.dst a = if a = s.enc.dpos.toNat then 0 else cellRead s.enc.dst a

/-- 41 R143: the current mask bit is set in the shadow and the shadow written through. That it does the same without an
accepted match is the model's choice (log entry 27). -/
def Obligations.SetBitWritesThrough : Prop :=
  ∀ s : State, encActive s.enc → s.enc.mapaddr.toNat < s.enc.dlen.toNat → ∃ t : State,
    exec .eSetbit s = .next t ∧
    t = { s with enc := { s.enc with mapval := s.enc.mapval ||| s.enc.cmask.setWidth 8, dst := t.enc.dst } } ∧
    ∀ a : Nat, cellRead t.enc.dst a =
      if a = s.enc.mapaddr.toNat then s.enc.mapval ||| s.enc.cmask.setWidth 8 else cellRead s.enc.dst a

/-- 41 R140, R141, R142: the frame step moves the mask; at a boundary it checks the headroom and allocates the copy-map
byte, and a refused group writes nothing. -/
def Obligations.FrameStep : Prop :=
  ∀ s : State, encActive s.enc →
    (s.enc.cmask.setWidth 8 ≠ 0x80#8 →
      exec .eFrame s = .next { s with enc := { s.enc with cmask := s.enc.cmask <<< 1 } }) ∧
    (s.enc.cmask.setWidth 8 = 0x80#8 → s.enc.dlen.toNat < s.enc.dpos.toNat + 18 →
      exec .eFrame s = .next { s with enc := { s.enc with
        cmask := 0x100, result := s.enc.slen, fallback := true, mode := .done } }) ∧
    (s.enc.cmask.setWidth 8 = 0x80#8 → s.enc.dpos.toNat + 18 ≤ s.enc.dlen.toNat → ∃ t : State,
      exec .eFrame s = .next t ∧
      t = { s with enc := { s.enc with cmask := 0x001, mapaddr := s.enc.dpos, mapval := 0
                                       dst := t.enc.dst, dpos := t.enc.dpos } } ∧
      t.enc.dpos.toNat = s.enc.dpos.toNat + 1 ∧
      ∀ a : Nat, cellRead t.enc.dst a = if a = s.enc.dpos.toNat then 0 else cellRead s.enc.dst a)

/-! ### The token encoder -/

/-- 42 R155: the extender answers a length of 3 to 66 with every pair below it from 3 on equal and the next pair, if
the length is below 66, unequal. That it does the same for a candidate that was not accepted is the model's
choice (log entry 27). -/
def Obligations.ExtendMeasures : Prop :=
  ∀ s : State, encActive s.enc → s.enc.spos.toNat + 66 ≤ s.enc.slen.toNat → s.enc.w.cand.toNat ≤ s.enc.spos.toNat →
    ∃ len : LenField,
      exec .eExtend s = .next { s with enc := { s.enc with w := { s.enc.w with len := len } } } ∧
      3 ≤ mlenOf len ∧ mlenOf len ≤ 66 ∧
      (∀ k, 3 ≤ k → k < mlenOf len →
        cellRead s.enc.src (s.enc.spos.toNat + k) = cellRead s.enc.src (s.enc.w.cand.toNat + k)) ∧
      (mlenOf len < 66 →
        cellRead s.enc.src (s.enc.spos.toNat + mlenOf len) ≠ cellRead s.enc.src (s.enc.w.cand.toNat + mlenOf len))

/-- 42 R156: the match token's two bytes at the write cursor, and both cursors. -/
def Obligations.EmitMatchToken : Prop :=
  ∀ s : State, encActive s.enc → s.enc.dpos.toNat + 1 < s.enc.dlen.toNat →
    s.enc.spos.toNat + mlenOf s.enc.w.len ≤ s.enc.slen.toNat → ∃ t : State,
    exec .eEmitMatch s = .next t ∧
    t = { s with enc := { s.enc with dst := t.enc.dst, dpos := t.enc.dpos, spos := t.enc.spos } } ∧
    t.enc.dpos.toNat = s.enc.dpos.toNat + 2 ∧ t.enc.spos.toNat = s.enc.spos.toNat + mlenOf s.enc.w.len ∧
    (cellRead t.enc.dst s.enc.dpos.toNat).toNat = (mlenOf s.enc.w.len - 3) * 4 + s.enc.w.off.toNat / 256 ∧
    (cellRead t.enc.dst (s.enc.dpos.toNat + 1)).toNat = s.enc.w.off.toNat % 256 ∧
    ∀ a : Nat, a ≠ s.enc.dpos.toNat → a ≠ s.enc.dpos.toNat + 1 → cellRead t.enc.dst a = cellRead s.enc.dst a

/-- 42 R157: the literal token. -/
def Obligations.EmitLiteralToken : Prop :=
  ∀ s : State, encActive s.enc → s.enc.dpos.toNat < s.enc.dlen.toNat → ∃ t : State,
    exec .eEmitLit s = .next t ∧
    t = { s with enc := { s.enc with dst := t.enc.dst, dpos := t.enc.dpos, spos := t.enc.spos } } ∧
    t.enc.dpos.toNat = s.enc.dpos.toNat + 1 ∧ t.enc.spos.toNat = s.enc.spos.toNat + 1 ∧
    ∀ a : Nat, cellRead t.enc.dst a =
      if a = s.enc.dpos.toNat then cellRead s.enc.src s.enc.spos.toNat else cellRead s.enc.dst a

/-- 42 R158, R159: the encoder's token step is its micro-operations in the fixed order, then the end test; the wires
are let go (log entry 7). -/
def Obligations.EncoderStepIsItsMicroOperations : Prop :=
  ∀ s : State, encActive s.enc →
    let fin : State → Host.Outcome State Fault Refusal := fun u =>
      .next { u with enc := { u.enc with
        w := .none
        result := if u.enc.spos = u.enc.slen then u.enc.dpos else u.enc.result
        mode := if u.enc.spos = u.enc.slen then .done else u.enc.mode } }
    exec .eStep s =
      andThen (exec .eFrame s) fun s1 =>
        if s1.enc.mode = .done then .next { s1 with enc := { s1.enc with w := .none } }
        else andThen (exec .eTailguard s1) fun s2 =>
          if s2.enc.w.tail then andThen (exec .eEmitLit s2) fin
          else andThen (execAll [.eHash3, .eTindex, .eTlookup, .eOffset, .eCand, .eCmp3, .eAccept] s2) fun s3 =>
            if s3.enc.w.accept then andThen (execAll [.eSetbit, .eExtend, .eEmitMatch] s3) fin
            else andThen (exec .eEmitLit s3) fin

/-- 42 R158, R160, 40 R129: from an invariant state in a call, the token step completes: it falls back with the source
cursor where it was, or it takes 1 byte or 3 to 66 bytes of the source and writes 1 to 3 bytes. -/
def Obligations.EncoderStepCompletes : Prop :=
  ∀ s : State, EncInv s.enc → s.enc.mode = .busy → ∃ t : State, exec .eStep s = .next t ∧
    ((t.enc = { s.enc with cmask := 0x100, result := s.enc.slen, fallback := true, mode := .done } ∧
        s.enc.cmask = 0x080 ∧ s.enc.dlen.toNat < s.enc.dpos.toNat + 18) ∨
      (∃ n k : Nat, (n = 1 ∨ (3 ≤ n ∧ n ≤ 66)) ∧ 1 ≤ k ∧ k ≤ 3 ∧
        t.enc.spos.toNat = s.enc.spos.toNat + n ∧ t.enc.dpos.toNat = s.enc.dpos.toNat + k ∧
        t.enc.fallback = false ∧
        (t.enc.mode = .done ↔ t.enc.spos = t.enc.slen) ∧
        (t.enc.mode = .done → t.enc.result = t.enc.dpos)))

/-- 42 R165: two encoders that differ only in capacity and destination contents take the same step, unless one of
them falls back (DONE with source left): the same registers after it, and the same byte wherever the bytes were the
same or were written. -/
def Obligations.CapacityDoesNotChangeTheBytes : Prop :=
  ∀ (s t u : State) (m : Mem) (n : Word), encActive s.enc → exec .eStep s = .next t →
    exec .eStep { s with enc := { s.enc with dst := m, dlen := n } } = .next u →
    t.enc.mode = .busy ∨ t.enc.spos = t.enc.slen → u.enc.mode = .busy ∨ u.enc.spos = u.enc.slen →
    u = { t with enc := { t.enc with dst := u.enc.dst, dlen := n } } ∧
    (∀ a : Nat, cellRead m a = cellRead s.enc.dst a → cellRead u.enc.dst a = cellRead t.enc.dst a) ∧
    ∀ a : Nat, s.enc.dpos.toNat ≤ a → a < t.enc.dpos.toNat → cellRead u.enc.dst a = cellRead t.enc.dst a

/-- What the storing operations of the encoder leave unchanged: everything but the registers named, and every byte but
those they store: the framer's at `E.dpos` or `E.mapaddr`, a token's from `E.dpos` on. -/
def Obligations.FrameEncoderStores : Prop :=
  ∀ s t : State,
    (exec .eHeadroom s = .next t → t = { s with enc := { s.enc with
      result := t.enc.result, fallback := t.enc.fallback, mode := t.enc.mode } }) ∧
    (exec .eMapalloc s = .next t → t = { s with enc := { s.enc with
      cmask := t.enc.cmask, mapaddr := t.enc.mapaddr, mapval := t.enc.mapval, dst := t.enc.dst
      dpos := t.enc.dpos } }) ∧
    (exec .eFrame s = .next t → t = { s with enc := { s.enc with
      cmask := t.enc.cmask, mapaddr := t.enc.mapaddr, mapval := t.enc.mapval, dst := t.enc.dst
      dpos := t.enc.dpos, result := t.enc.result, fallback := t.enc.fallback, mode := t.enc.mode } }) ∧
    (exec .eSetbit s = .next t →
      t = { s with enc := { s.enc with mapval := t.enc.mapval, dst := t.enc.dst } } ∧
      ∀ a : Nat, a ≠ s.enc.mapaddr.toNat → cellRead t.enc.dst a = cellRead s.enc.dst a) ∧
    (∀ i ∈ [Instr.eEmitLit, .eEmitMatch], exec i s = .next t → t = { s with enc := { s.enc with
      dst := t.enc.dst, dpos := t.enc.dpos, spos := t.enc.spos } }) ∧
    (∀ i ∈ [Instr.eMapalloc, .eFrame, .eEmitLit, .eEmitMatch], exec i s = .next t →
      ∀ a : Nat, a < s.enc.dpos.toNat ∨ t.enc.dpos.toNat ≤ a → cellRead t.enc.dst a = cellRead s.enc.dst a) ∧
    (exec .eStep s = .next t →
      t = { s with enc := { t.enc with slen := s.enc.slen, dlen := s.enc.dlen, src := s.enc.src } } ∧
      ∀ a : Nat, a ≠ s.enc.mapaddr.toNat → a < s.enc.dpos.toNat ∨ t.enc.dpos.toNat ≤ a →
        cellRead t.enc.dst a = cellRead s.enc.dst a)

/-! ### The decoder -/

/-- 43 R180, R181: the copy-map byte, and the trailing one. That it does the same in the middle of a group is the model's
choice (log entry 28). -/
def Obligations.MapElement : Prop :=
  ∀ (s : State) (bits : Byte), decActive s.dec → ∃ p : Word, p.toNat = s.dec.spos.toNat + 1 ∧
    (s.dec.spos.toNat + 1 < s.dec.slen.toNat →
      exec (.map bits) s = .next { s with dec := { s.dec with cmask := 0x001, cmap := bits, spos := p } }) ∧
    (s.dec.spos.toNat + 1 = s.dec.slen.toNat →
      exec (.map bits) s = .next { s with dec := { s.dec with
        cmask := 0x001, cmap := bits, spos := p, count := s.dec.dpos, code := .ok, mode := .done } })

/-- 43 R180, R182: the frame step moves the mask and at a boundary runs the MAP byte at the cursor; the select step
reads the copy-map bit under the mask. -/
def Obligations.DecoderFrameAndSelect : Prop :=
  ∀ s : State, decActive s.dec →
    (s.dec.cmask.setWidth 8 ≠ 0x80#8 →
      exec .dFrame s = .next { s with dec := { s.dec with cmask := s.dec.cmask <<< 1 } }) ∧
    (s.dec.cmask.setWidth 8 = 0x80#8 →
      exec .dFrame s = exec (.map (cellRead s.dec.src s.dec.spos.toNat)) s ∧ ∃ t, exec .dFrame s = .next t) ∧
    ∃ b : Bool, exec .dSelect s = .next { s with dec := { s.dec with w := { s.dec.w with ismatch := b } } } ∧
      (b = true ↔ ∃ i < 8, s.dec.cmap.getLsbD i = true ∧ s.dec.cmask.getLsbD i = true)

/-- 43 R183: the literal, given as an element and fetched at the stream cursor; a full destination is WOULD_OVERFLOW
before anything is written. -/
def Obligations.LiteralElement : Prop :=
  ∀ (s : State) (b : Byte), decActive s.dec →
    exec .dLit s = exec (.lit (cellRead s.dec.src s.dec.spos.toNat)) s ∧
    (s.dec.dcap.toNat ≤ s.dec.dpos.toNat →
      exec (.lit b) s = .next { s with dec := { s.dec with code := .wouldOverflow, mode := .done } }) ∧
    (s.dec.dpos.toNat < s.dec.dcap.toNat → ∃ t : State, exec (.lit b) s = .next t ∧
      t = { s with dec := { s.dec with dst := t.dec.dst, dpos := t.dec.dpos, spos := t.dec.spos } } ∧
      t.dec.dpos.toNat = s.dec.dpos.toNat + 1 ∧ t.dec.spos.toNat = s.dec.spos.toNat + 1 ∧
      ∀ a : Nat, cellRead t.dec.dst a = if a = s.dec.dpos.toNat then b else cellRead s.dec.dst a)

/-- 43 R184 to R188, 30 R99, 60 R237, R238: the order of the checks on a match, each raise leaving everything but code
and mode; and the reserved offset 0, which this hardware's `DEC_ZERO_OFFSET` makes BAD_DATA (log entry 4). -/
def Obligations.MatchCheckOrder : Prop :=
  ∀ (s : State) (len : LenField) (off : OffField), decActive s.dec →
    (s.dec.slen.toNat - s.dec.spos.toNat < 2 ∨ s.dec.dpos.toNat < off.toNat ∨ off.toNat = 0 →
      exec (.matchTok len off) s = .next { s with dec := { s.dec with code := .badData, mode := .done } }) ∧
    (2 ≤ s.dec.slen.toNat - s.dec.spos.toNat → 1 ≤ off.toNat → off.toNat ≤ s.dec.dpos.toNat →
      s.dec.dcap.toNat - s.dec.dpos.toNat < mlenOf len →
      exec (.matchTok len off) s = .next { s with dec := { s.dec with code := .wouldOverflow, mode := .done } }) ∧
    exec (.matchReserved len) s = .next { s with dec := { s.dec with code := .badData, mode := .done } }

/-- 43 R184, R189: a match that passes the checks takes its two bytes and fills `mlen` bytes with the `off` bytes before
the cursor, repeated cyclically. -/
def Obligations.MatchElementReplays : Prop :=
  ∀ (s : State) (len : LenField) (off : OffField), decActive s.dec →
    s.dec.spos.toNat + 2 ≤ s.dec.slen.toNat → 1 ≤ off.toNat → off.toNat ≤ s.dec.dpos.toNat →
    s.dec.dpos.toNat + mlenOf len ≤ s.dec.dcap.toNat → ∃ t : State, exec (.matchTok len off) s = .next t ∧
    t = { s with dec := { s.dec with
      dst := t.dec.dst, dpos := t.dec.dpos, spos := t.dec.spos, w := { s.dec.w with len := len, off := off } } } ∧
    t.dec.spos.toNat = s.dec.spos.toNat + 2 ∧ t.dec.dpos.toNat = s.dec.dpos.toNat + mlenOf len ∧
    (∀ i < mlenOf len, cellRead t.dec.dst (s.dec.dpos.toNat + i) =
      cellRead s.dec.dst (s.dec.dpos.toNat - off.toNat + i % off.toNat)) ∧
    ∀ a : Nat, a < s.dec.dpos.toNat ∨ s.dec.dpos.toNat + mlenOf len ≤ a → cellRead t.dec.dst a = cellRead s.dec.dst a

/-- 43 R189, 70 R264: the replay unit alone, on the length and offset it is handed. -/
def Obligations.ReplayClosedForm : Prop :=
  ∀ s : State, s.dec.mode = .busy → 1 ≤ s.dec.w.off.toNat → s.dec.w.off.toNat ≤ s.dec.dpos.toNat →
    s.dec.dpos.toNat + mlenOf s.dec.w.len ≤ s.dec.dcap.toNat → ∃ t : State, exec .dReplay s = .next t ∧
    t = { s with dec := { s.dec with dst := t.dec.dst, dpos := t.dec.dpos } } ∧
    t.dec.dpos.toNat = s.dec.dpos.toNat + mlenOf s.dec.w.len ∧
    (∀ i < mlenOf s.dec.w.len, cellRead t.dec.dst (s.dec.dpos.toNat + i) =
      cellRead s.dec.dst (s.dec.dpos.toNat - s.dec.w.off.toNat + i % s.dec.w.off.toNat)) ∧
    ∀ a : Nat, a < s.dec.dpos.toNat ∨ s.dec.dpos.toNat + mlenOf s.dec.w.len ≤ a →
      cellRead t.dec.dst a = cellRead s.dec.dst a

/-- 43 R183 to R185, R189: the micro-operations that fetch a token complete with the effect of the element they fetch;
a match cut off by the end of the stream is BAD_DATA; neither ever stops. -/
def Obligations.TokenFetchRunsElement : Prop :=
  ∀ s : State, decActive s.dec →
    (s.dec.dpos.toNat < s.dec.dcap.toNat → ∃ t : State, exec .dLit s = .next t ∧
      t.dec.spos.toNat = s.dec.spos.toNat + 1 ∧ t.dec.dpos.toNat = s.dec.dpos.toNat + 1 ∧
      cellRead t.dec.dst s.dec.dpos.toNat = cellRead s.dec.src s.dec.spos.toNat) ∧
    (s.dec.spos.toNat + 2 ≤ s.dec.slen.toNat →
      exec .dMatch s = exec (decodeMatch (cellRead s.dec.src s.dec.spos.toNat)
        (cellRead s.dec.src (s.dec.spos.toNat + 1))) s) ∧
    (∀ off mlen : Nat, s.dec.spos.toNat + 2 ≤ s.dec.slen.toNat →
      off = ((cellRead s.dec.src s.dec.spos.toNat).toNat * 256
        + (cellRead s.dec.src (s.dec.spos.toNat + 1)).toNat) % 1024 →
      mlen = (cellRead s.dec.src s.dec.spos.toNat).toNat / 4 + 3 →
      1 ≤ off → off ≤ s.dec.dpos.toNat → s.dec.dpos.toNat + mlen ≤ s.dec.dcap.toNat →
      ∃ t : State, exec .dMatch s = .next t ∧
        t.dec.spos.toNat = s.dec.spos.toNat + 2 ∧ t.dec.dpos.toNat = s.dec.dpos.toNat + mlen ∧
        ∀ i < mlen, cellRead t.dec.dst (s.dec.dpos.toNat + i) =
          cellRead s.dec.dst (s.dec.dpos.toNat - off + i % off)) ∧
    (s.dec.slen.toNat = s.dec.spos.toNat + 1 →
      exec .dMatch s = .next { s with dec := { s.dec with code := .badData, mode := .done } }) ∧
    (∃ t, exec .dLit s = .next t) ∧ ∃ t, exec .dMatch s = .next t

/-- 43 R191, R192, R194, 60 R238: from an invariant state in a call, the decoder's token step completes: the call has
ended with the stream used up (OK, and the count), or in an error with a count of 0, or the stream cursor has moved by
1 to 3. -/
def Obligations.DecoderStepCompletes : Prop :=
  ∀ s : State, DecInv s.dec → s.dec.mode = .busy → ∃ t : State, exec .dStep s = .next t ∧
    ((t.dec.mode = .done ∧ t.dec.code = .ok ∧ t.dec.spos = t.dec.slen ∧ t.dec.count = t.dec.dpos) ∨
      (t.dec.mode = .done ∧ t.dec.code ≠ .ok ∧ t.dec.count = 0 ∧ t.dec.dst = s.dec.dst ∧ t.dec.dpos = s.dec.dpos) ∨
      (t.dec.mode = .busy ∧ s.dec.spos.toNat < t.dec.spos.toNat ∧ t.dec.spos.toNat ≤ s.dec.spos.toNat + 3 ∧
        t.dec.spos.toNat < t.dec.slen.toNat))

/-- What the decoder's elements and operations leave unchanged: everything but the registers named, and every byte but
those from the write cursor before to the write cursor after. -/
def Obligations.FrameDecoder : Prop :=
  ∀ (s t : State) (b : Byte) (len : LenField) (off : OffField) (toks : List Token) (bytes : List Byte),
    (∀ i ∈ [Instr.map b, .dFrame], exec i s = .next t → t = { s with dec := { s.dec with
      cmask := t.dec.cmask, cmap := t.dec.cmap, spos := t.dec.spos, count := t.dec.count, code := t.dec.code
      mode := t.dec.mode } }) ∧
    (∀ i ∈ [Instr.lit b, .dLit], exec i s = .next t → t = { s with dec := { s.dec with
      dst := t.dec.dst, dpos := t.dec.dpos, spos := t.dec.spos, code := t.dec.code, mode := t.dec.mode } }) ∧
    (∀ i ∈ [Instr.matchTok len off, .dMatch], exec i s = .next t → t = { s with dec := { s.dec with
      dst := t.dec.dst, dpos := t.dec.dpos, spos := t.dec.spos, code := t.dec.code, mode := t.dec.mode
      w := { s.dec.w with len := t.dec.w.len, off := t.dec.w.off } } }) ∧
    (exec (.matchReserved len) s = .next t →
      t = { s with dec := { s.dec with code := t.dec.code, mode := t.dec.mode } }) ∧
    (exec .dSelect s = .next t → t = { s with dec := { s.dec with w := { s.dec.w with ismatch := t.dec.w.ismatch } } }) ∧
    (exec .dReplay s = .next t → t = { s with dec := { s.dec with dst := t.dec.dst, dpos := t.dec.dpos } }) ∧
    (∀ i ∈ [Instr.dStep, .group toks, .lits bytes], exec i s = .next t →
      t = { s with dec := { t.dec with slen := s.dec.slen, dcap := s.dec.dcap, src := s.dec.src } }) ∧
    ∀ i ∈ [Instr.lit b, .matchTok len off, .dLit, .dMatch, .dReplay, .dStep, .group toks, .lits bytes],
      exec i s = .next t →
      ∀ a : Nat, a < s.dec.dpos.toNat ∨ t.dec.dpos.toNat ≤ a → cellRead t.dec.dst a = cellRead s.dec.dst a

/-! ### The pseudo-instructions -/

/-- 30 R107: `GROUP` whose offsets are valid and whose output fits consumes its bytes and appends the output of its
tokens; the call has ended when these were the last bytes. That it does the same in the middle of a group is the model's
choice (log entry 28). -/
def Obligations.GroupAppendsItsOutput : Prop :=
  ∀ (s : State) (toks : List Token), s.dec.mode = .busy → (Instr.group toks).wf = true →
    s.dec.spos.toNat + (assemble (.group toks)).length ≤ s.dec.slen.toNat →
    offsetsValid toks (prefixBytes s.dec.dst s.dec.dpos.toNat) →
    (tokensOutput toks (prefixBytes s.dec.dst s.dec.dpos.toNat)).length ≤ s.dec.dcap.toNat →
    ∃ t : State, exec (.group toks) s = .next t ∧
      t.dec.spos.toNat = s.dec.spos.toNat + (assemble (.group toks)).length ∧
      prefixBytes t.dec.dst t.dec.dpos.toNat = tokensOutput toks (prefixBytes s.dec.dst s.dec.dpos.toNat) ∧
      t.dec.cmap = groupMap toks ∧ t.dec.cmask = 1#9 <<< (toks.length - 1) ∧
      t.dec.mode = (if t.dec.spos = s.dec.slen then .done else .busy)

/-- 30 R107, 43 R191: a `GROUP` that stands in the stream at a group boundary does exactly what the decoder's token
steps do on its bytes, whether or not they succeed. -/
def Obligations.GroupIsItsTokenSteps : Prop :=
  ∀ (s : State) (toks : List Token), s.dec.mode = .busy → (Instr.group toks).wf = true → s.dec.cmask = 0x080 →
    s.dec.spos.toNat + (assemble (.group toks)).length ≤ s.dec.slen.toNat →
    (∀ k (h : k < (assemble (.group toks)).length),
      cellRead s.dec.src (s.dec.spos.toNat + k) = (assemble (.group toks))[k]) →
    exec (.group toks) s = execAll (List.replicate toks.length .dStep) s

/-- 30 R107: `LITS` is one `LIT` per character, each a token step: the mask moves to the token, the literal runs, the end
test follows. The copy-map bit is not asked for and the mask of a token after the 8th is token 0's again: the model's
choices (log entry 19). -/
def Obligations.LitsIsItsLiterals : Prop :=
  ∀ s : State,
    exec (.lits []) s = .next s ∧
    ∀ (b : Byte) (rest : List Byte), decActive s.dec →
      exec (.lits (b :: rest)) s =
        andThen (exec (.lit b) { s with dec := { s.dec with
            cmask := if s.dec.cmask.setWidth 8 = 0x80#8 then 0x001 else s.dec.cmask <<< 1 } })
          fun t => exec (.lits rest) { t with dec := clearDecWires (finishDecIfEnd t.dec) }

/-- 30 R107, 43 R183, R190: `LITS` whose bytes are left appends them and moves the mask by their number, whatever the
copy map says and wherever the group stands (log entry 19); one that does not fit appends what fits and is
WOULD_OVERFLOW. It never stops. -/
def Obligations.LitsAppendsItsBytes : Prop :=
  ∀ (s : State) (bytes : List Byte), s.dec.mode = .busy →
    s.dec.spos.toNat + bytes.length ≤ s.dec.slen.toNat →
    (s.dec.dpos.toNat + bytes.length ≤ s.dec.dcap.toNat → ∃ t : State, exec (.lits bytes) s = .next t ∧
      t.dec.spos.toNat = s.dec.spos.toNat + bytes.length ∧
      prefixBytes t.dec.dst t.dec.dpos.toNat = prefixBytes s.dec.dst s.dec.dpos.toNat ++ bytes ∧
      t.dec.cmap = s.dec.cmap ∧
      (∀ k < 8, s.dec.cmask = 1#9 <<< k → t.dec.cmask = 1#9 <<< ((k + bytes.length) % 8)) ∧
      (bytes ≠ [] → t.dec.mode = if t.dec.spos = s.dec.slen then .done else .busy)) ∧
    (s.dec.dpos.toNat ≤ s.dec.dcap.toNat → s.dec.dcap.toNat < s.dec.dpos.toNat + bytes.length →
      ∃ t : State, exec (.lits bytes) s = .next t ∧
        t.dec.mode = .done ∧ t.dec.code = .wouldOverflow ∧ t.dec.count = s.dec.count ∧
        t.dec.spos.toNat = s.dec.spos.toNat + (s.dec.dcap.toNat - s.dec.dpos.toNat) ∧
        prefixBytes t.dec.dst t.dec.dpos.toNat =
          prefixBytes s.dec.dst s.dec.dpos.toNat ++ bytes.take (s.dec.dcap.toNat - s.dec.dpos.toNat))

/-! ### The two engines -/

/-- 60 R243: an engine that is not BUSY does nothing and holds its registers. -/
def Obligations.IdleEngineHolds : Prop :=
  ∀ s : State,
    (s.enc.mode ≠ .busy →
      ∀ i ∈ [Instr.eTailguard, .eHash3, .eTindex, .eTlookup, .eOffset, .eCand, .eCmp3, .eAccept, .eAdvance, .eFrame,
        .eHeadroom, .eMapalloc, .eSetbit, .eExtend, .eEmitMatch, .eEmitLit, .eStep], exec i s = .next s) ∧
    (s.dec.mode ≠ .busy → ∀ (b : Byte) (len : LenField) (off : OffField) (toks : List Token) (bytes : List Byte),
      ∀ i ∈ [Instr.map b, .lit b, .matchTok len off, .matchReserved len, .dFrame, .dSelect, .dLit, .dMatch, .dReplay,
        .dStep, .group toks, .lits bytes], exec i s = .next s)

/-- 20 R71, 44 R218: the engines' token steps commute. -/
def Obligations.EnginesCommute : Prop :=
  ∀ s t u : State, exec .eStep s = .next t → exec .dStep s = .next u →
    ∃ v : State, exec .dStep t = .next v ∧ exec .eStep u = .next v
end

