-- ==== Sys2Proof/Laws/Cells.lean ====
section
/-! SUPPORT. Laws of cells: read after write, and that every memory operation keeps the canonical form. -/

namespace Sys2Proof.Machine

variable {w : Nat}

@[simp] theorem cellRead_nil (a : Nat) : cellRead ([] : List (Nat × BitVec w)) a = 0 := rfl

theorem cellRead_erase (a b : Nat) (m : List (Nat × BitVec w)) :
    cellRead (cellErase a m) b = if b = a then 0 else cellRead m b := by
  induction m with
  | nil => simp [cellErase]
  | cons p rest ih =>
    obtain ⟨k, v⟩ := p
    by_cases hk : k = a <;> by_cases hb : b = a <;> by_cases hkb : k = b <;> simp_all [cellErase, cellRead]

theorem cellErase_no_key (a : Nat) (m : List (Nat × BitVec w)) : ∀ p ∈ cellErase a m, p.1 ≠ a := by
  induction m with
  | nil => simp [cellErase]
  | cons p rest ih =>
    obtain ⟨k, v⟩ := p
    by_cases hk : k = a
    · simpa [cellErase, hk] using ih
    · simp only [cellErase, hk, if_false, List.mem_cons]
      rintro q (rfl | hq)
      · exact hk
      · exact ih q hq

theorem cellRead_insert (a b : Nat) (v : BitVec w) (m : List (Nat × BitVec w)) (h : ∀ p ∈ m, p.1 ≠ a) :
    cellRead (cellInsert a v m) b = if b = a then v else cellRead m b := by
  induction m with
  | nil => by_cases hb : a = b <;> simp [cellInsert, cellRead, hb, eq_comm]
  | cons p rest ih =>
    obtain ⟨k, u⟩ := p
    have hk : k ≠ a := h (k, u) (by simp)
    have ih := ih (fun q hq => h q (by simp [hq]))
    by_cases hlt : a < k
    · by_cases hb : b = a
      · simp [cellInsert, cellRead, hlt, hb]
      · simp [cellInsert, cellRead, hlt, hb, Ne.symm hb]
    · by_cases hb : b = a
      · subst hb
        simpa [cellInsert, cellRead, hlt, hk] using ih
      · by_cases hkb : k = b
        · subst hkb; simp [cellInsert, cellRead, hlt, hb]
        · simpa [cellInsert, cellRead, hlt, hb, hkb] using ih

/-- A read after a write: the value written at its address, the old value everywhere else. -/
@[simp] theorem cellRead_write (m : List (Nat × BitVec w)) (a b : Nat) (v : BitVec w) :
    cellRead (cellWrite m a v) b = if b = a then v else cellRead m b := by
  unfold cellWrite
  split
  · rename_i hv; rw [cellRead_erase, hv]
  · rw [cellRead_insert _ _ _ _ (cellErase_no_key a m), cellRead_erase]
    split <;> rfl

theorem cellsWfFrom_mono {bound lo lo' : Nat} (h : lo' ≤ lo) (m : List (Nat × BitVec w))
    (hm : cellsWfFrom bound lo m = true) : cellsWfFrom bound lo' m = true := by
  cases m with
  | nil => rfl
  | cons p rest =>
    obtain ⟨k, v⟩ := p
    simp only [cellsWfFrom, Bool.and_eq_true, decide_eq_true_eq] at hm ⊢
    exact ⟨⟨⟨le_trans h hm.1.1.1, hm.1.1.2⟩, hm.1.2⟩, hm.2⟩

theorem cellsWfFrom_erase {bound : Nat} (a : Nat) (m : List (Nat × BitVec w)) :
    ∀ lo, cellsWfFrom bound lo m = true → cellsWfFrom bound lo (cellErase a m) = true := by
  induction m with
  | nil => intro lo h; exact h
  | cons p rest ih =>
    obtain ⟨k, v⟩ := p
    intro lo h
    simp only [cellsWfFrom, Bool.and_eq_true, decide_eq_true_eq] at h
    by_cases hk : k = a
    · simp only [cellErase, hk, if_true]
      exact cellsWfFrom_mono (by omega) _ (ih _ h.2)
    · simp only [cellErase, hk, if_false, cellsWfFrom, Bool.and_eq_true, decide_eq_true_eq]
      exact ⟨h.1, ih _ h.2⟩

theorem cellsWfFrom_insert {bound : Nat} (a : Nat) (v : BitVec w) (hv : v ≠ 0) (ha : a < bound)
    (m : List (Nat × BitVec w)) (hne : ∀ p ∈ m, p.1 ≠ a) :
    ∀ lo, lo ≤ a → cellsWfFrom bound lo m = true → cellsWfFrom bound lo (cellInsert a v m) = true := by
  induction m with
  | nil => intro lo hlo _; simpa [cellInsert, cellsWfFrom, hlo, ha] using hv
  | cons p rest ih =>
    obtain ⟨k, u⟩ := p
    intro lo hlo h
    have hk : k ≠ a := hne (k, u) (by simp)
    simp only [cellsWfFrom, Bool.and_eq_true, decide_eq_true_eq] at h
    by_cases hlt : a < k
    · simp only [cellInsert, hlt, if_true, cellsWfFrom, Bool.and_eq_true, decide_eq_true_eq]
      exact ⟨⟨⟨hlo, ha⟩, by simpa using hv⟩, ⟨⟨⟨by omega, h.1.1.2⟩, h.1.2⟩, h.2⟩⟩
    · simp only [cellInsert, hlt, if_false, cellsWfFrom, Bool.and_eq_true, decide_eq_true_eq]
      exact ⟨h.1, ih (fun q hq => hne q (by simp [hq])) _ (by omega) h.2⟩

/-- A write inside the bound keeps the canonical form. -/
theorem cellsWfFrom_write {bound : Nat} (m : List (Nat × BitVec w)) (a : Nat) (v : BitVec w) (ha : a < bound)
    (h : cellsWfFrom bound 0 m = true) : cellsWfFrom bound 0 (cellWrite m a v) = true := by
  unfold cellWrite
  split
  · exact cellsWfFrom_erase a m 0 h
  · rename_i hv
    exact cellsWfFrom_insert a v hv ha _ (cellErase_no_key a m) 0 (by omega) (cellsWfFrom_erase a m 0 h)

theorem cellRead_below {bound : Nat} (m : List (Nat × BitVec w)) :
    ∀ lo a, a < lo → cellsWfFrom bound lo m = true → cellRead m a = 0 := by
  induction m with
  | nil => intro lo a _ _; rfl
  | cons p rest ih =>
    obtain ⟨k, v⟩ := p
    intro lo a ha h
    simp only [cellsWfFrom, Bool.and_eq_true, decide_eq_true_eq] at h
    have hk : k ≠ a := by omega
    simp only [cellRead, hk, if_false]
    exact ih (k + 1) a (by omega) h.2

/-- Two canonical lists of cells that read the same everywhere are equal. -/
theorem cells_ext {bound : Nat} (m m' : List (Nat × BitVec w)) :
    ∀ lo lo', cellsWfFrom bound lo m = true → cellsWfFrom bound lo' m' = true →
      (∀ a, cellRead m a = cellRead m' a) → m = m' := by
  induction m generalizing m' with
  | nil =>
    intro lo lo' _ h' heq
    cases m' with
    | nil => rfl
    | cons p rest =>
      obtain ⟨k, v⟩ := p
      simp only [cellsWfFrom, Bool.and_eq_true, bne_iff_ne, ne_eq] at h'
      have := heq k
      simp [cellRead] at this
      exact absurd this.symm h'.1.2
  | cons p rest ih =>
    obtain ⟨k, v⟩ := p
    intro lo lo' h h' heq
    simp only [cellsWfFrom, Bool.and_eq_true, decide_eq_true_eq, bne_iff_ne, ne_eq] at h
    cases m' with
    | nil =>
      have := heq k
      simp [cellRead] at this
      exact absurd this h.1.2
    | cons p' rest' =>
      obtain ⟨k', v'⟩ := p'
      simp only [cellsWfFrom, Bool.and_eq_true, decide_eq_true_eq, bne_iff_ne, ne_eq] at h'
      have hk : k = k' := by
        rcases lt_trichotomy k k' with hlt | rfl | hgt
        · have := heq k
          rw [cellRead, cellRead, if_pos rfl, if_neg (by omega : k' ≠ k)] at this
          rw [cellRead_below rest' (k' + 1) k (by omega) h'.2] at this
          exact absurd this h.1.2
        · rfl
        · have := heq k'
          rw [cellRead, cellRead, if_pos rfl, if_neg (by omega : k ≠ k')] at this
          rw [cellRead_below rest (k + 1) k' (by omega) h.2] at this
          exact absurd this.symm h'.1.2
      subst hk
      have hv : v = v' := by simpa [cellRead] using heq k
      subst hv
      have : rest = rest' := by
        refine ih rest' (k + 1) (k + 1) h.2 h'.2 (fun a => ?_)
        by_cases ha : k = a
        · subst ha
          rw [cellRead_below rest (k + 1) k (by omega) h.2, cellRead_below rest' (k + 1) k (by omega) h'.2]
        · simpa [cellRead, ha] using heq a
      rw [this]

theorem Memory.wf_nil : Memory.wf [] = true := rfl

theorem Table.wf_nil : Table.wf [] = true := rfl

/-- Every write at a position keeps a memory space canonical. -/
theorem Memory.wf_write (m : Mem) (a : Nat) (b : Byte) (ha : a < Config.spaceSize) (h : Memory.wf m = true) :
    Memory.wf (cellWrite m a b) = true :=
  cellsWfFrom_write m a b ha h

/-- Every write at a table index keeps the table canonical. -/
theorem Table.wf_write (t : Table) (i : OffField) (v : Word) (h : Table.wf t = true) :
    Table.wf (cellWrite t i.toNat v) = true :=
  cellsWfFrom_write t i.toNat v (by have := i.isLt; simpa using this) h

/-- The host's byte write keeps both engines' spaces canonical. -/
theorem hostWrite_keeps_wf (s : State) (sp : Space) (a : Word) (b : Byte)
    (h : Memory.wf s.enc.src = true ∧ Memory.wf s.enc.dst = true ∧ Memory.wf s.dec.src = true ∧
      Memory.wf s.dec.dst = true) :
    Memory.wf (hostWrite s sp a b).enc.src = true ∧ Memory.wf (hostWrite s sp a b).enc.dst = true ∧
      Memory.wf (hostWrite s sp a b).dec.src = true ∧ Memory.wf (hostWrite s sp a b).dec.dst = true := by
  have ha : a.toNat < Config.spaceSize := a.isLt
  obtain ⟨h1, h2, h3, h4⟩ := h
  cases sp <;> simp only [hostWrite] <;> refine ⟨?_, ?_, ?_, ?_⟩ <;>
    first | assumption | exact Memory.wf_write _ _ _ ha (by assumption)

/-- Free bytes below a position keep a memory space canonical. -/
theorem Memory.wf_havoc (seed : Nat) (m : Mem) (h : Memory.wf m = true) :
    ∀ n, n ≤ Config.spaceSize → Memory.wf (havoc seed m n) = true := by
  intro n
  induction n with
  | zero => intro _; exact h
  | succ n ih => intro hn; exact Memory.wf_write _ _ _ (by omega) (ih (by omega))

/-- Free bytes below `n` leave every address from `n` on as it was. -/
theorem cellRead_havoc_above (seed : Nat) (m : Mem) (n a : Nat) (h : n ≤ a) :
    cellRead (havoc seed m n) a = cellRead m a := by
  induction n with
  | zero => rfl
  | succ n ih => rw [havoc, cellRead_write, if_neg (by omega), ih (by omega)]

end Sys2Proof.Machine
end

