-- ==== Sys2Proof/Laws/State.lean ====
section
/-! SUPPORT. What each field is after each named update of the state: one lemma per field, true by definition. -/

namespace Sys2Proof.Machine

/-! ### `raiseDec` -/

@[simp] theorem raiseDec_mode (c : Code) (d : Dec) : (raiseDec c d).mode = .done := rfl

@[simp] theorem raiseDec_slen (c : Code) (d : Dec) : (raiseDec c d).slen = d.slen := rfl

@[simp] theorem raiseDec_dcap (c : Code) (d : Dec) : (raiseDec c d).dcap = d.dcap := rfl

@[simp] theorem raiseDec_code (c : Code) (d : Dec) : (raiseDec c d).code = c := rfl

@[simp] theorem raiseDec_count (c : Code) (d : Dec) : (raiseDec c d).count = d.count := rfl

@[simp] theorem raiseDec_spos (c : Code) (d : Dec) : (raiseDec c d).spos = d.spos := rfl

@[simp] theorem raiseDec_dpos (c : Code) (d : Dec) : (raiseDec c d).dpos = d.dpos := rfl

@[simp] theorem raiseDec_cmask (c : Code) (d : Dec) : (raiseDec c d).cmask = d.cmask := rfl

@[simp] theorem raiseDec_cmap (c : Code) (d : Dec) : (raiseDec c d).cmap = d.cmap := rfl

@[simp] theorem raiseDec_src (c : Code) (d : Dec) : (raiseDec c d).src = d.src := rfl

@[simp] theorem raiseDec_dst (c : Code) (d : Dec) : (raiseDec c d).dst = d.dst := rfl

@[simp] theorem raiseDec_w (c : Code) (d : Dec) : (raiseDec c d).w = d.w := rfl

/-! ### `finishDec` -/

@[simp] theorem finishDec_mode (d : Dec) : (finishDec d).mode = .done := rfl

@[simp] theorem finishDec_slen (d : Dec) : (finishDec d).slen = d.slen := rfl

@[simp] theorem finishDec_dcap (d : Dec) : (finishDec d).dcap = d.dcap := rfl

@[simp] theorem finishDec_code (d : Dec) : (finishDec d).code = .ok := rfl

@[simp] theorem finishDec_count (d : Dec) : (finishDec d).count = d.dpos := rfl

@[simp] theorem finishDec_spos (d : Dec) : (finishDec d).spos = d.spos := rfl

@[simp] theorem finishDec_dpos (d : Dec) : (finishDec d).dpos = d.dpos := rfl

@[simp] theorem finishDec_cmask (d : Dec) : (finishDec d).cmask = d.cmask := rfl

@[simp] theorem finishDec_cmap (d : Dec) : (finishDec d).cmap = d.cmap := rfl

@[simp] theorem finishDec_src (d : Dec) : (finishDec d).src = d.src := rfl

@[simp] theorem finishDec_dst (d : Dec) : (finishDec d).dst = d.dst := rfl

@[simp] theorem finishDec_w (d : Dec) : (finishDec d).w = d.w := rfl

/-! ### `fallbackEnc` -/

@[simp] theorem fallbackEnc_mode (e : Enc) : (fallbackEnc e).mode = .done := rfl

@[simp] theorem fallbackEnc_slen (e : Enc) : (fallbackEnc e).slen = e.slen := rfl

@[simp] theorem fallbackEnc_dlen (e : Enc) : (fallbackEnc e).dlen = e.dlen := rfl

@[simp] theorem fallbackEnc_fallback (e : Enc) : (fallbackEnc e).fallback = true := rfl

@[simp] theorem fallbackEnc_result (e : Enc) : (fallbackEnc e).result = e.slen := rfl

@[simp] theorem fallbackEnc_spos (e : Enc) : (fallbackEnc e).spos = e.spos := rfl

@[simp] theorem fallbackEnc_dpos (e : Enc) : (fallbackEnc e).dpos = e.dpos := rfl

@[simp] theorem fallbackEnc_cmask (e : Enc) : (fallbackEnc e).cmask = e.cmask := rfl

@[simp] theorem fallbackEnc_mapaddr (e : Enc) : (fallbackEnc e).mapaddr = e.mapaddr := rfl

@[simp] theorem fallbackEnc_mapval (e : Enc) : (fallbackEnc e).mapval = e.mapval := rfl

@[simp] theorem fallbackEnc_table (e : Enc) : (fallbackEnc e).table = e.table := rfl

@[simp] theorem fallbackEnc_src (e : Enc) : (fallbackEnc e).src = e.src := rfl

@[simp] theorem fallbackEnc_dst (e : Enc) : (fallbackEnc e).dst = e.dst := rfl

@[simp] theorem fallbackEnc_w (e : Enc) : (fallbackEnc e).w = e.w := rfl

/-! ### `finishEnc` -/

@[simp] theorem finishEnc_mode (e : Enc) : (finishEnc e).mode = .done := rfl

@[simp] theorem finishEnc_slen (e : Enc) : (finishEnc e).slen = e.slen := rfl

@[simp] theorem finishEnc_dlen (e : Enc) : (finishEnc e).dlen = e.dlen := rfl

@[simp] theorem finishEnc_fallback (e : Enc) : (finishEnc e).fallback = e.fallback := rfl

@[simp] theorem finishEnc_result (e : Enc) : (finishEnc e).result = e.dpos := rfl

@[simp] theorem finishEnc_spos (e : Enc) : (finishEnc e).spos = e.spos := rfl

@[simp] theorem finishEnc_dpos (e : Enc) : (finishEnc e).dpos = e.dpos := rfl

@[simp] theorem finishEnc_cmask (e : Enc) : (finishEnc e).cmask = e.cmask := rfl

@[simp] theorem finishEnc_mapaddr (e : Enc) : (finishEnc e).mapaddr = e.mapaddr := rfl

@[simp] theorem finishEnc_mapval (e : Enc) : (finishEnc e).mapval = e.mapval := rfl

@[simp] theorem finishEnc_table (e : Enc) : (finishEnc e).table = e.table := rfl

@[simp] theorem finishEnc_src (e : Enc) : (finishEnc e).src = e.src := rfl

@[simp] theorem finishEnc_dst (e : Enc) : (finishEnc e).dst = e.dst := rfl

@[simp] theorem finishEnc_w (e : Enc) : (finishEnc e).w = e.w := rfl

/-! ### `clearEncWires` -/

@[simp] theorem clearEncWires_mode (e : Enc) : (clearEncWires e).mode = e.mode := rfl

@[simp] theorem clearEncWires_slen (e : Enc) : (clearEncWires e).slen = e.slen := rfl

@[simp] theorem clearEncWires_dlen (e : Enc) : (clearEncWires e).dlen = e.dlen := rfl

@[simp] theorem clearEncWires_fallback (e : Enc) : (clearEncWires e).fallback = e.fallback := rfl

@[simp] theorem clearEncWires_result (e : Enc) : (clearEncWires e).result = e.result := rfl

@[simp] theorem clearEncWires_spos (e : Enc) : (clearEncWires e).spos = e.spos := rfl

@[simp] theorem clearEncWires_dpos (e : Enc) : (clearEncWires e).dpos = e.dpos := rfl

@[simp] theorem clearEncWires_cmask (e : Enc) : (clearEncWires e).cmask = e.cmask := rfl

@[simp] theorem clearEncWires_mapaddr (e : Enc) : (clearEncWires e).mapaddr = e.mapaddr := rfl

@[simp] theorem clearEncWires_mapval (e : Enc) : (clearEncWires e).mapval = e.mapval := rfl

@[simp] theorem clearEncWires_table (e : Enc) : (clearEncWires e).table = e.table := rfl

@[simp] theorem clearEncWires_src (e : Enc) : (clearEncWires e).src = e.src := rfl

@[simp] theorem clearEncWires_dst (e : Enc) : (clearEncWires e).dst = e.dst := rfl

@[simp] theorem clearEncWires_w (e : Enc) : (clearEncWires e).w = .none := rfl

/-! ### `clearDecWires` -/

@[simp] theorem clearDecWires_mode (d : Dec) : (clearDecWires d).mode = d.mode := rfl

@[simp] theorem clearDecWires_slen (d : Dec) : (clearDecWires d).slen = d.slen := rfl

@[simp] theorem clearDecWires_dcap (d : Dec) : (clearDecWires d).dcap = d.dcap := rfl

@[simp] theorem clearDecWires_code (d : Dec) : (clearDecWires d).code = d.code := rfl

@[simp] theorem clearDecWires_count (d : Dec) : (clearDecWires d).count = d.count := rfl

@[simp] theorem clearDecWires_spos (d : Dec) : (clearDecWires d).spos = d.spos := rfl

@[simp] theorem clearDecWires_dpos (d : Dec) : (clearDecWires d).dpos = d.dpos := rfl

@[simp] theorem clearDecWires_cmask (d : Dec) : (clearDecWires d).cmask = d.cmask := rfl

@[simp] theorem clearDecWires_cmap (d : Dec) : (clearDecWires d).cmap = d.cmap := rfl

@[simp] theorem clearDecWires_src (d : Dec) : (clearDecWires d).src = d.src := rfl

@[simp] theorem clearDecWires_dst (d : Dec) : (clearDecWires d).dst = d.dst := rfl

@[simp] theorem clearDecWires_w (d : Dec) : (clearDecWires d).w = .none := rfl

/-! ### Reset -/

@[simp] theorem encResetWith_mode (src dst : Mem) : (Enc.resetWith src dst).mode = .idle := rfl

@[simp] theorem encResetWith_slen (src dst : Mem) : (Enc.resetWith src dst).slen = 0 := rfl

@[simp] theorem encResetWith_dlen (src dst : Mem) : (Enc.resetWith src dst).dlen = 0 := rfl

@[simp] theorem encResetWith_fallback (src dst : Mem) : (Enc.resetWith src dst).fallback = false := rfl

@[simp] theorem encResetWith_result (src dst : Mem) : (Enc.resetWith src dst).result = 0 := rfl

@[simp] theorem encResetWith_spos (src dst : Mem) : (Enc.resetWith src dst).spos = 0 := rfl

@[simp] theorem encResetWith_dpos (src dst : Mem) : (Enc.resetWith src dst).dpos = 0 := rfl

@[simp] theorem encResetWith_cmask (src dst : Mem) : (Enc.resetWith src dst).cmask = 0x080 := rfl

@[simp] theorem encResetWith_mapaddr (src dst : Mem) : (Enc.resetWith src dst).mapaddr = 0 := rfl

@[simp] theorem encResetWith_mapval (src dst : Mem) : (Enc.resetWith src dst).mapval = 0 := rfl

@[simp] theorem encResetWith_table (src dst : Mem) : (Enc.resetWith src dst).table = [] := rfl

@[simp] theorem encResetWith_src (src dst : Mem) : (Enc.resetWith src dst).src = src := rfl

@[simp] theorem encResetWith_dst (src dst : Mem) : (Enc.resetWith src dst).dst = dst := rfl

@[simp] theorem encResetWith_w (src dst : Mem) : (Enc.resetWith src dst).w = .none := rfl

@[simp] theorem decResetWith_mode (src dst : Mem) : (Dec.resetWith src dst).mode = .idle := rfl

@[simp] theorem decResetWith_slen (src dst : Mem) : (Dec.resetWith src dst).slen = 0 := rfl

@[simp] theorem decResetWith_dcap (src dst : Mem) : (Dec.resetWith src dst).dcap = 0 := rfl

@[simp] theorem decResetWith_code (src dst : Mem) : (Dec.resetWith src dst).code = .ok := rfl

@[simp] theorem decResetWith_count (src dst : Mem) : (Dec.resetWith src dst).count = 0 := rfl

@[simp] theorem decResetWith_spos (src dst : Mem) : (Dec.resetWith src dst).spos = 0 := rfl

@[simp] theorem decResetWith_dpos (src dst : Mem) : (Dec.resetWith src dst).dpos = 0 := rfl

@[simp] theorem decResetWith_cmask (src dst : Mem) : (Dec.resetWith src dst).cmask = 0x080 := rfl

@[simp] theorem decResetWith_cmap (src dst : Mem) : (Dec.resetWith src dst).cmap = 0 := rfl

@[simp] theorem decResetWith_src (src dst : Mem) : (Dec.resetWith src dst).src = src := rfl

@[simp] theorem decResetWith_dst (src dst : Mem) : (Dec.resetWith src dst).dst = dst := rfl

@[simp] theorem decResetWith_w (src dst : Mem) : (Dec.resetWith src dst).w = .none := rfl

/-! ### The host's port -/

@[simp] theorem returnData_enc (s : State) (v : Word) : (returnData s v).enc = s.enc := rfl

@[simp] theorem returnData_dec (s : State) (v : Word) : (returnData s v).dec = s.dec := rfl

@[simp] theorem returnData_host (s : State) (v : Word) : (returnData s v).host = ⟨s.host.prog, v⟩ := rfl

@[simp] theorem returnData_sched (s : State) (v : Word) : (returnData s v).sched = s.sched := rfl

@[simp] theorem returnData_freeCtr (s : State) (v : Word) : (returnData s v).freeCtr = s.freeCtr := rfl

@[simp] theorem repeatOp_enc (s : State) (op : HostOp) : (repeatOp s op).enc = s.enc := rfl

@[simp] theorem repeatOp_dec (s : State) (op : HostOp) : (repeatOp s op).dec = s.dec := rfl

@[simp] theorem repeatOp_host (s : State) (op : HostOp) : (repeatOp s op).host = ⟨op :: s.host.prog, s.host.rdata⟩ := rfl

@[simp] theorem repeatOp_sched (s : State) (op : HostOp) : (repeatOp s op).sched = s.sched := rfl

@[simp] theorem repeatOp_freeCtr (s : State) (op : HostOp) : (repeatOp s op).freeCtr = s.freeCtr := rfl

/-! ### Start commands on an engine that is not BUSY (44 R210, R211) -/

theorem startEnc_mode (e : Enc) (h : e.mode ≠ .busy) : (startEnc e).mode = if e.slen = 0 then .done else .busy := by
  simp [startEnc, h]

theorem startEnc_slen (e : Enc) (h : e.mode ≠ .busy) : (startEnc e).slen = e.slen := by
  simp [startEnc, h]

theorem startEnc_dlen (e : Enc) (h : e.mode ≠ .busy) : (startEnc e).dlen = e.dlen := by
  simp [startEnc, h]

theorem startEnc_fallback (e : Enc) (h : e.mode ≠ .busy) : (startEnc e).fallback = false := by
  simp [startEnc, h]

theorem startEnc_result (e : Enc) (h : e.mode ≠ .busy) : (startEnc e).result = 0 := by
  simp [startEnc, h]

theorem startEnc_spos (e : Enc) (h : e.mode ≠ .busy) : (startEnc e).spos = 0 := by
  simp [startEnc, h]

theorem startEnc_dpos (e : Enc) (h : e.mode ≠ .busy) : (startEnc e).dpos = 0 := by
  simp [startEnc, h]

theorem startEnc_cmask (e : Enc) (h : e.mode ≠ .busy) : (startEnc e).cmask = 0x080 := by
  simp [startEnc, h]

theorem startEnc_mapaddr (e : Enc) (h : e.mode ≠ .busy) : (startEnc e).mapaddr = 0 := by
  simp [startEnc, h]

theorem startEnc_mapval (e : Enc) (h : e.mode ≠ .busy) : (startEnc e).mapval = 0 := by
  simp [startEnc, h]

theorem startEnc_table (e : Enc) (h : e.mode ≠ .busy) : (startEnc e).table = [] := by
  simp [startEnc, h]

theorem startEnc_src (e : Enc) (h : e.mode ≠ .busy) : (startEnc e).src = e.src := by
  simp [startEnc, h]

theorem startEnc_dst (e : Enc) (h : e.mode ≠ .busy) : (startEnc e).dst = e.dst := by
  simp [startEnc, h]

theorem startEnc_w (e : Enc) (h : e.mode ≠ .busy) : (startEnc e).w = e.w := by
  simp [startEnc, h]

theorem startDec_mode (d : Dec) (h : d.mode ≠ .busy) : (startDec d).mode = if d.slen = 0 then .done else .busy := by
  simp [startDec, h]

theorem startDec_slen (d : Dec) (h : d.mode ≠ .busy) : (startDec d).slen = d.slen := by
  simp [startDec, h]

theorem startDec_dcap (d : Dec) (h : d.mode ≠ .busy) : (startDec d).dcap = d.dcap := by
  simp [startDec, h]

theorem startDec_code (d : Dec) (h : d.mode ≠ .busy) : (startDec d).code = .ok := by
  simp [startDec, h]

theorem startDec_count (d : Dec) (h : d.mode ≠ .busy) : (startDec d).count = 0 := by
  simp [startDec, h]

theorem startDec_spos (d : Dec) (h : d.mode ≠ .busy) : (startDec d).spos = 0 := by
  simp [startDec, h]

theorem startDec_dpos (d : Dec) (h : d.mode ≠ .busy) : (startDec d).dpos = 0 := by
  simp [startDec, h]

theorem startDec_cmask (d : Dec) (h : d.mode ≠ .busy) : (startDec d).cmask = 0x080 := by
  simp [startDec, h]

theorem startDec_cmap (d : Dec) (h : d.mode ≠ .busy) : (startDec d).cmap = 0 := by
  simp [startDec, h]

theorem startDec_src (d : Dec) (h : d.mode ≠ .busy) : (startDec d).src = d.src := by
  simp [startDec, h]

theorem startDec_dst (d : Dec) (h : d.mode ≠ .busy) : (startDec d).dst = d.dst := by
  simp [startDec, h]

theorem startDec_w (d : Dec) (h : d.mode ≠ .busy) : (startDec d).w = d.w := by
  simp [startDec, h]

end Sys2Proof.Machine
end

