-- ==== Sys2Proof/Laws/Ops.lean ====
section
/-! SUPPORT. For each shared operation, once, everything it can do; the provers cite these and unfold nothing. -/

namespace Sys2Proof.Machine

/-! ### Sequences of operations -/

@[simp] theorem ok_bind {α β : Type} (a : α) (f : α → Except Fault β) : (Except.ok a >>= f) = f a := rfl

@[simp] theorem error_bind {α β : Type} (r : Fault) (f : α → Except Fault β) :
    ((Except.error r : Except Fault α) >>= f) = .error r := rfl

@[simp] theorem pure_eq_ok {α : Type} (a : α) : (pure a : Except Fault α) = .ok a := rfl

/-- A sequence answers exactly when its first part does and then the rest does. -/
theorem bind_eq_ok {α β : Type} {x : Except Fault α} {f : α → Except Fault β} {b : β} :
    (x >>= f) = .ok b ↔ ∃ a, x = .ok a ∧ f a = .ok b := by
  cases x with
  | ok a => simp
  | error r => simp

/-! ### Accesses -/

theorem readEsrc_eq_ok {e : Enc} {a : Nat} {b : Byte} :
    readEsrc e a = .ok b ↔ a < e.slen.toNat ∧ b = cellRead e.src a := by
  unfold readEsrc; split <;> simp_all [eq_comm]

theorem readEsrc_of_lt {e : Enc} {a : Nat} (h : a < e.slen.toNat) : readEsrc e a = .ok (cellRead e.src a) := by
  simp [readEsrc, h]

theorem writeEdst_eq_ok {e e' : Enc} {a : Nat} {b : Byte} :
    writeEdst e a b = .ok e' ↔ a < e.dlen.toNat ∧ e' = { e with dst := cellWrite e.dst a b } := by
  unfold writeEdst; split <;> simp_all [eq_comm]

theorem writeEdst_of_lt {e : Enc} {a : Nat} {b : Byte} (h : a < e.dlen.toNat) :
    writeEdst e a b = .ok { e with dst := cellWrite e.dst a b } := by
  simp [writeEdst, h]

theorem readDdst_eq_ok {d : Dec} {a : Nat} {b : Byte} :
    readDdst d a = .ok b ↔ a < d.dpos.toNat ∧ b = cellRead d.dst a := by
  unfold readDdst; split <;> simp_all [eq_comm]

theorem readDdst_of_lt {d : Dec} {a : Nat} (h : a < d.dpos.toNat) : readDdst d a = .ok (cellRead d.dst a) := by
  simp [readDdst, h]

theorem writeDdst_eq_ok {d d' : Dec} {a : Nat} {b : Byte} :
    writeDdst d a b = .ok d' ↔ a < d.dcap.toNat ∧ d' = { d with dst := cellWrite d.dst a b } := by
  unfold writeDdst; split <;> simp_all [eq_comm]

theorem writeDdst_of_lt {d : Dec} {a : Nat} {b : Byte} (h : a < d.dcap.toNat) :
    writeDdst d a b = .ok { d with dst := cellWrite d.dst a b } := by
  simp [writeDdst, h]

/-! ### Cursors -/

theorem advanceEnc_eq_ok {n : Nat} {e e' : Enc} :
    advanceEnc n e = .ok e' ↔
      e.spos.toNat + n ≤ e.slen.toNat ∧ e' = { e with spos := wordOf (e.spos.toNat + n) } := by
  unfold advanceEnc; split <;> simp_all [eq_comm]

theorem advanceEnc_of_le {n : Nat} {e : Enc} (h : e.spos.toNat + n ≤ e.slen.toNat) :
    advanceEnc n e = .ok { e with spos := wordOf (e.spos.toNat + n) } := by
  simp [advanceEnc, h]

theorem advanceDec_eq_ok {n : Nat} {d d' : Dec} :
    advanceDec n d = .ok d' ↔
      d.spos.toNat + n ≤ d.slen.toNat ∧ d' = { d with spos := wordOf (d.spos.toNat + n) } := by
  unfold advanceDec; split <;> simp_all [eq_comm]

theorem advanceDec_of_le {n : Nat} {d : Dec} (h : d.spos.toNat + n ≤ d.slen.toNat) :
    advanceDec n d = .ok { d with spos := wordOf (d.spos.toNat + n) } := by
  simp [advanceDec, h]

/-- A sum that is not above a length is held exactly. -/
theorem wordOf_toNat_of_le {n : Nat} {w : Word} (h : n ≤ w.toNat) : (wordOf n).toNat = n :=
  wordOf_toNat (lt_of_le_of_lt h w.isLt)

theorem pushEdst_eq_ok {b : Byte} {e e' : Enc} :
    pushEdst b e = .ok e' ↔
      e.dpos.toNat < e.dlen.toNat ∧
        e' = { e with dst := cellWrite e.dst e.dpos.toNat b, dpos := wordOf (e.dpos.toNat + 1) } := by
  unfold pushEdst
  rw [bind_eq_ok]
  constructor
  · rintro ⟨a, ha, h⟩
    obtain ⟨hlt, rfl⟩ := writeEdst_eq_ok.mp ha
    exact ⟨hlt, by simpa using h.symm⟩
  · rintro ⟨hlt, rfl⟩
    exact ⟨_, writeEdst_of_lt hlt, rfl⟩

theorem pushEdst_of_lt {b : Byte} {e : Enc} (h : e.dpos.toNat < e.dlen.toNat) :
    pushEdst b e =
      .ok { e with dst := cellWrite e.dst e.dpos.toNat b, dpos := wordOf (e.dpos.toNat + 1) } :=
  pushEdst_eq_ok.mpr ⟨h, rfl⟩

theorem pushDdst_eq_ok {b : Byte} {d d' : Dec} :
    pushDdst b d = .ok d' ↔
      d.dpos.toNat < d.dcap.toNat ∧
        d' = { d with dst := cellWrite d.dst d.dpos.toNat b, dpos := wordOf (d.dpos.toNat + 1) } := by
  unfold pushDdst
  rw [bind_eq_ok]
  constructor
  · rintro ⟨a, ha, h⟩
    obtain ⟨hlt, rfl⟩ := writeDdst_eq_ok.mp ha
    exact ⟨hlt, by simpa using h.symm⟩
  · rintro ⟨hlt, rfl⟩
    exact ⟨_, writeDdst_of_lt hlt, rfl⟩

theorem pushDdst_of_lt {b : Byte} {d : Dec} (h : d.dpos.toNat < d.dcap.toNat) :
    pushDdst b d =
      .ok { d with dst := cellWrite d.dst d.dpos.toNat b, dpos := wordOf (d.dpos.toNat + 1) } :=
  pushDdst_eq_ok.mpr ⟨h, rfl⟩

/-! ### When an engine acts, and on the whole state -/

theorem whenEnc_active {f : Enc → Except Fault Enc} {e : Enc} (hb : e.mode = .busy)
    (hs : e.spos.toNat < e.slen.toNat) : whenEnc f e = f e := by
  simp [whenEnc, hb, hs]

theorem whenEnc_not_busy {f : Enc → Except Fault Enc} {e : Enc} (hb : e.mode ≠ .busy) : whenEnc f e = .ok e := by
  simp [whenEnc, hb]

/-- An operation of the encoder answers in one of two ways: nothing happened, or it ran inside a step. -/
theorem whenEnc_eq_ok {f : Enc → Except Fault Enc} {e e' : Enc} :
    whenEnc f e = .ok e' ↔
      (e.mode ≠ .busy ∧ e' = e) ∨ (e.mode = .busy ∧ e.spos.toNat < e.slen.toNat ∧ f e = .ok e') := by
  unfold whenEnc
  by_cases hb : e.mode = .busy <;> by_cases hs : e.spos.toNat < e.slen.toNat <;> simp [hb, hs, eq_comm]

theorem whenDec_active {f : Dec → Except Fault Dec} {d : Dec} (hb : d.mode = .busy)
    (hs : d.spos.toNat < d.slen.toNat) : whenDec f d = f d := by
  simp [whenDec, hb, hs]

theorem whenDec_not_busy {f : Dec → Except Fault Dec} {d : Dec} (hb : d.mode ≠ .busy) : whenDec f d = .ok d := by
  simp [whenDec, hb]

/-- An operation of the decoder answers in one of two ways: nothing happened, or it ran inside a step. -/
theorem whenDec_eq_ok {f : Dec → Except Fault Dec} {d d' : Dec} :
    whenDec f d = .ok d' ↔
      (d.mode ≠ .busy ∧ d' = d) ∨ (d.mode = .busy ∧ d.spos.toNat < d.slen.toNat ∧ f d = .ok d') := by
  unfold whenDec
  by_cases hb : d.mode = .busy <;> by_cases hs : d.spos.toNat < d.slen.toNat <;> simp [hb, hs, eq_comm]

theorem onEnc_eq_next {f : Enc → Except Fault Enc} {s t : State} :
    onEnc f s = .next t ↔ ∃ e, f s.enc = .ok e ∧ t = { s with enc := e } := by
  unfold onEnc; cases f s.enc <;> simp [eq_comm]

theorem onEnc_of_ok {f : Enc → Except Fault Enc} {s : State} {e : Enc} (h : f s.enc = .ok e) :
    onEnc f s = .next { s with enc := e } :=
  onEnc_eq_next.mpr ⟨e, h, rfl⟩

theorem onDec_eq_next {f : Dec → Except Fault Dec} {s t : State} :
    onDec f s = .next t ↔ ∃ d, f s.dec = .ok d ∧ t = { s with dec := d } := by
  unfold onDec; cases f s.dec <;> simp [eq_comm]

theorem onDec_of_ok {f : Dec → Except Fault Dec} {s : State} {d : Dec} (h : f s.dec = .ok d) :
    onDec f s = .next { s with dec := d } :=
  onDec_eq_next.mpr ⟨d, h, rfl⟩

/-! ### The ends of a decoder step -/

theorem finishDecIfEnd_of_end {d : Dec} (hb : d.mode = .busy) (h : d.spos = d.slen) :
    finishDecIfEnd d = finishDec d := by
  simp [finishDecIfEnd, hb, h]

theorem finishDecIfEnd_of_not_busy {d : Dec} (h : d.mode ≠ .busy) : finishDecIfEnd d = d := by
  simp [finishDecIfEnd, h]

theorem finishDecIfEnd_of_ne {d : Dec} (h : d.spos ≠ d.slen) : finishDecIfEnd d = d := by
  simp [finishDecIfEnd, h]

end Sys2Proof.Machine
end

