-- ==== Sys2Proof/Laws/PerInstr.lean ====
section
/-! SUPPORT. Statements made per instruction, one lemma per constructor.
EncodedSize: an instruction that is a stream element is encoded by the bytes it assembles to, two for a match token and
one for every other element (30 R91 to R93, R106). -/

namespace Sys2Proof.Laws.EncodedSize

/-- The encoding of a stream element is the bytes it assembles to, of the size of its kind. -/
def Statement (i : Instr) : Prop :=
  ∀ (k : ElementKind) (bs : List Byte), encode i = some (.element k bs) →
    bs = assemble i ∧ bs.length = if k = .mat then 2 else 1

/-- An instruction without a stream encoding. -/
theorem of_no_element {i : Instr} (h : ∀ k bs, encode i ≠ some (.element k bs)) : Statement i :=
  fun k bs hk => absurd hk (h k bs)

/-- An instruction with one. -/
theorem of_element {i : Instr} {k : ElementKind} {bs : List Byte} (h : encode i = some (.element k bs))
    (ha : bs = assemble i) (hl : bs.length = if k = .mat then 2 else 1) : Statement i := by
  intro k' bs' h'
  rw [h] at h'
  cases h'
  exact ⟨ha, hl⟩

theorem map (bits : Byte) : Statement (.map bits) := of_element rfl rfl rfl

theorem lit (b : Byte) : Statement (.lit b) := of_element rfl rfl rfl

theorem matchTok (len : LenField) (off : OffField) : Statement (.matchTok len off) := of_element rfl rfl rfl

theorem matchReserved (len : LenField) : Statement (.matchReserved len) := of_element rfl rfl rfl

theorem encStart (value : Word) : Statement (.encStart value) := of_no_element nofun

theorem decStart (value : Word) : Statement (.decStart value) := of_no_element nofun

theorem wr (reg : Nat) (value : Word) : Statement (.wr reg value) := of_no_element nofun

theorem rd (reg : Nat) : Statement (.rd reg) := of_no_element nofun

theorem eTailguard : Statement .eTailguard := of_no_element nofun

theorem eHash3 : Statement .eHash3 := of_no_element nofun

theorem eTindex : Statement .eTindex := of_no_element nofun

theorem eTlookup : Statement .eTlookup := of_no_element nofun

theorem eOffset : Statement .eOffset := of_no_element nofun

theorem eCand : Statement .eCand := of_no_element nofun

theorem eCmp3 : Statement .eCmp3 := of_no_element nofun

theorem eAccept : Statement .eAccept := of_no_element nofun

theorem eAdvance : Statement .eAdvance := of_no_element nofun

theorem eFrame : Statement .eFrame := of_no_element nofun

theorem eHeadroom : Statement .eHeadroom := of_no_element nofun

theorem eMapalloc : Statement .eMapalloc := of_no_element nofun

theorem eSetbit : Statement .eSetbit := of_no_element nofun

theorem eExtend : Statement .eExtend := of_no_element nofun

theorem eEmitMatch : Statement .eEmitMatch := of_no_element nofun

theorem eEmitLit : Statement .eEmitLit := of_no_element nofun

theorem eStep : Statement .eStep := of_no_element nofun

theorem dFrame : Statement .dFrame := of_no_element nofun

theorem dSelect : Statement .dSelect := of_no_element nofun

theorem dLit : Statement .dLit := of_no_element nofun

theorem dMatch : Statement .dMatch := of_no_element nofun

theorem dReplay : Statement .dReplay := of_no_element nofun

theorem dStep : Statement .dStep := of_no_element nofun

theorem group (toks : List Token) : Statement (.group toks) := of_no_element nofun

theorem lits (bytes : List Byte) : Statement (.lits bytes) := of_no_element nofun

theorem waitEnc : Statement .waitEnc := of_no_element nofun

theorem waitDec : Statement .waitDec := of_no_element nofun

end Sys2Proof.Laws.EncodedSize
end

