-- ==== Sys2Proof/Laws/Units.lean ====
section
/-! SUPPORT. For each operation of the functional units, once, everything it can do when it answers. -/

namespace Sys2Proof.Machine

/-! ### The encoder's units -/

/-- The allocation writes one byte at the write cursor and restarts the group's registers (41 R142). -/
theorem mapallocOp_eq_ok {e e' : Enc} :
    mapallocOp e = .ok e' ↔ e.dpos.toNat < e.dlen.toNat ∧
      e' = { e with cmask := 0x001, mapaddr := e.dpos, mapval := 0, dst := cellWrite e.dst e.dpos.toNat 0
                    dpos := wordOf (e.dpos.toNat + 1) } := by
  simp [mapallocOp, pushEdst_eq_ok]

/-- The framer's write-through (41 R143). -/
theorem setbitOp_eq_ok {e e' : Enc} :
    setbitOp e = .ok e' ↔ e.mapaddr.toNat < e.dlen.toNat ∧
      e' = { e with mapval := e.mapval ||| maskBits e.cmask
                    dst := cellWrite e.dst e.mapaddr.toNat (e.mapval ||| maskBits e.cmask) } := by
  simp [setbitOp, writeEdst_eq_ok]

/-- The headroom check falls back or changes nothing (41 R141). -/
theorem headroomOp_eq_ok {e e' : Enc} :
    headroomOp e = .ok e' ↔
      (e.dlen.toNat ≤ e.dpos.toNat + 17 ∧ e' = fallbackEnc e) ∨ (e.dpos.toNat + 17 < e.dlen.toNat ∧ e' = e) := by
  unfold headroomOp
  by_cases h : e.dlen.toNat ≤ e.dpos.toNat + 17 <;> simp [h, eq_comm]
  omega

/-- The literal emitter (42 R157). -/
theorem emitLitOp_eq_ok {e e' : Enc} :
    emitLitOp e = .ok e' ↔
      e.spos.toNat < e.slen.toNat ∧ e.dpos.toNat < e.dlen.toNat ∧
        e' = { e with dst := cellWrite e.dst e.dpos.toNat (cellRead e.src e.spos.toNat)
                      dpos := wordOf (e.dpos.toNat + 1), spos := wordOf (e.spos.toNat + 1) } := by
  unfold emitLitOp
  simp only [bind_eq_ok, readEsrc_eq_ok, pushEdst_eq_ok, advanceEnc_eq_ok]
  constructor
  · rintro ⟨b, ⟨hs, rfl⟩, e1, ⟨hd, rfl⟩, -, rfl⟩
    exact ⟨hs, hd, rfl⟩
  · rintro ⟨hs, hd, rfl⟩
    exact ⟨_, ⟨hs, rfl⟩, _, ⟨hd, rfl⟩, hs, rfl⟩

/-- The match emitter (42 R156). -/
theorem emitMatchOp_eq_ok {e e' : Enc} :
    emitMatchOp e = .ok e' ↔
      e.dpos.toNat + 1 < e.dlen.toNat ∧ e.spos.toNat + mlenOf e.w.len ≤ e.slen.toNat ∧
        e' = { e with
          dst := cellWrite (cellWrite e.dst e.dpos.toNat (byte0Of e.w.len e.w.off)) (e.dpos.toNat + 1)
            (byte1Of e.w.off)
          dpos := wordOf (e.dpos.toNat + 2), spos := wordOf (e.spos.toNat + mlenOf e.w.len) } := by
  unfold emitMatchOp
  simp only [bind_eq_ok, pushEdst_eq_ok, advanceEnc_eq_ok]
  constructor
  · rintro ⟨e1, ⟨hd, rfl⟩, e2, ⟨hd', rfl⟩, hs, rfl⟩
    have hw : (wordOf (e.dpos.toNat + 1)).toNat = e.dpos.toNat + 1 := wordOf_toNat_of_le (w := e.dlen) hd
    simp only [hw] at hd' ⊢
    exact ⟨hd', hs, trivial⟩
  · rintro ⟨hd, hs, rfl⟩
    have hw : (wordOf (e.dpos.toNat + 1)).toNat = e.dpos.toNat + 1 :=
      wordOf_toNat_of_le (w := e.dlen) (by omega)
    exact ⟨_, ⟨by omega, rfl⟩, _, ⟨by simpa only [hw] using hd, rfl⟩, hs, by simp only [hw]⟩

/-- The extender stops between its start and its fuel; every pair it passed is equal, and a pair it stopped at is not
(42 R155). -/
theorem extendFrom_eq_ok {e : Enc} : ∀ {fuel m r : Nat}, extendFrom e fuel m = .ok r →
    m ≤ r ∧ r ≤ m + fuel ∧
    (∀ k, m ≤ k → k < r → cellRead e.src (e.spos.toNat + k) = cellRead e.src (e.w.cand.toNat + k)) ∧
    (r < m + fuel → cellRead e.src (e.spos.toNat + r) ≠ cellRead e.src (e.w.cand.toNat + r))
  | 0, m, r, h => by
    simp only [extendFrom, Except.ok.injEq] at h
    subst h
    exact ⟨le_refl _, by omega, fun k _ _ => by omega, fun _ => by omega⟩
  | fuel + 1, m, r, h => by
    simp only [extendFrom, bind_eq_ok, readEsrc_eq_ok] at h
    obtain ⟨a, ⟨-, rfl⟩, c, ⟨-, rfl⟩, h⟩ := h
    split at h
    · rename_i heq
      obtain ⟨h1, h2, h3, h4⟩ := extendFrom_eq_ok h
      refine ⟨by omega, by omega, fun k hk hr => ?_, fun hr => h4 (by omega)⟩
      rcases Nat.eq_or_lt_of_le hk with rfl | hlt
      · exact heq
      · exact h3 k hlt hr
    · rename_i hne
      simp only [pure_eq_ok, Except.ok.injEq] at h
      subst h
      exact ⟨le_refl _, by omega, fun k _ _ => by omega, fun _ => hne⟩

/-- With source bytes enough the extender answers (42 R155: all its reads are in range). -/
theorem extendFrom_total {e : Enc} (hc : e.w.cand.toNat ≤ e.spos.toNat) : ∀ {fuel m : Nat},
    e.spos.toNat + m + fuel ≤ e.slen.toNat → ∃ r, extendFrom e fuel m = .ok r
  | 0, m, _ => ⟨m, rfl⟩
  | fuel + 1, m, h => by
    have h1 : e.spos.toNat + m < e.slen.toNat := by omega
    have h2 : e.w.cand.toNat + m < e.slen.toNat := by omega
    simp only [extendFrom, readEsrc_of_lt h1, readEsrc_of_lt h2, ok_bind]
    split
    · exact extendFrom_total hc (by omega)
    · exact ⟨m, rfl⟩

/-! ### The decoder's units -/

/-- The map element moves the cursor past its byte and, if that was the last one, ends the call (43 R180, R181). -/
theorem mapOp_eq_ok {bits : Byte} {d d' : Dec} :
    mapOp bits d = .ok d' ↔ d.spos.toNat + 1 ≤ d.slen.toNat ∧
      d' = finishDecIfEnd { d with cmask := 0x001, cmap := bits, spos := wordOf (d.spos.toNat + 1) } := by
  unfold mapOp
  simp only [bind_eq_ok, advanceDec_eq_ok]
  constructor
  · rintro ⟨d1, ⟨h, rfl⟩, h'⟩
    exact ⟨h, by simpa [eq_comm] using h'⟩
  · rintro ⟨h, rfl⟩
    exact ⟨_, ⟨h, rfl⟩, rfl⟩

/-- The literal is WOULD_OVERFLOW or one byte at the write cursor (43 R183, R190). -/
theorem litOp_eq_ok {b : Byte} {d d' : Dec} :
    litOp b d = .ok d' ↔
      (d.dcap.toNat ≤ d.dpos.toNat ∧ d' = raiseDec .wouldOverflow d) ∨
      (d.dpos.toNat < d.dcap.toNat ∧ d.spos.toNat + 1 ≤ d.slen.toNat ∧
        d' = { d with dst := cellWrite d.dst d.dpos.toNat b, dpos := wordOf (d.dpos.toNat + 1)
                      spos := wordOf (d.spos.toNat + 1) }) := by
  unfold litOp
  by_cases h : d.dcap.toNat ≤ d.dpos.toNat
  · have h' : ¬ d.dpos.toNat < d.dcap.toNat := by omega
    simp [h, h', eq_comm]
  · have h' : d.dpos.toNat < d.dcap.toNat := by omega
    simp only [h, if_false, pushDdst_of_lt h', ok_bind, advanceDec_eq_ok, false_and, false_or, true_and, h']

/-- The replay stores only from the write cursor on, moves only the cursor, and by exactly its count (43 R189). -/
theorem replayFrom_eq_ok {off : Nat} : ∀ {n : Nat} {d d' : Dec}, replayFrom off n d = .ok d' →
    d' = { d with dst := d'.dst, dpos := d'.dpos } ∧ d'.dpos.toNat = d.dpos.toNat + n ∧
    ∀ a, a < d.dpos.toNat ∨ d.dpos.toNat + n ≤ a → cellRead d'.dst a = cellRead d.dst a
  | 0, d, d', h => by
    simp only [replayFrom, Except.ok.injEq] at h
    subst h
    exact ⟨rfl, rfl, fun _ _ => rfl⟩
  | n + 1, d, d', h => by
    simp only [replayFrom, bind_eq_ok, pushDdst_eq_ok] at h
    obtain ⟨v, -, d1, ⟨hlt, rfl⟩, h⟩ := h
    obtain ⟨h1, h2, h3⟩ := replayFrom_eq_ok h
    have hw : (wordOf (d.dpos.toNat + 1)).toNat = d.dpos.toNat + 1 := wordOf_toNat_of_le (w := d.dcap) hlt
    simp only [hw] at h2 h3
    refine ⟨h1, by omega, fun a ha => ?_⟩
    rw [h3 a (by omega), cellRead_write, if_neg (by omega)]

/-- In range the replay answers: every read is below the cursor and every write below the capacity (20 R69). -/
theorem replayFrom_total {off : Nat} (ho : 1 ≤ off) : ∀ {n : Nat} {d : Dec}, off ≤ d.dpos.toNat →
    d.dpos.toNat + n ≤ d.dcap.toNat → ∃ d', replayFrom off n d = .ok d'
  | 0, d, _, _ => ⟨d, rfl⟩
  | n + 1, d, h, hc => by
    have hr : d.dpos.toNat - off < d.dpos.toNat := by omega
    have hp : d.dpos.toNat < d.dcap.toNat := by omega
    have hw : (wordOf (d.dpos.toNat + 1)).toNat = d.dpos.toNat + 1 := wordOf_toNat_of_le (w := d.dcap) hp
    simp only [replayFrom, replayByte, h, if_true, readDdst_of_lt hr, ok_bind, pushDdst_of_lt hp]
    exact replayFrom_total ho (by simp only [hw]; omega) (by simp only [hw]; omega)

/-- The match's outcomes, in the order of its checks (43 R184 to R188). -/
theorem matchOp_cases {len : LenField} {off : OffField} {d d' : Dec} (h : matchOp len off d = .ok d') :
    (d' = raiseDec .badData d ∧
      (d.slen.toNat < d.spos.toNat + 2 ∨ d.dpos.toNat < off.toNat ∨ off = 0)) ∨
    (d' = raiseDec .wouldOverflow d ∧ d.spos.toNat + 2 ≤ d.slen.toNat ∧ off.toNat ≤ d.dpos.toNat ∧ off ≠ 0 ∧
      d.dcap.toNat < d.dpos.toNat + mlenOf len) ∨
    (d.spos.toNat + 2 ≤ d.slen.toNat ∧ off.toNat ≤ d.dpos.toNat ∧ off ≠ 0 ∧
      d.dpos.toNat + mlenOf len ≤ d.dcap.toNat ∧
      replayFrom off.toNat (mlenOf len)
        { d with spos := wordOf (d.spos.toNat + 2), w := { d.w with len := len, off := off } } = .ok d') := by
  unfold matchOp at h
  split at h
  · cases h; exact .inl ⟨rfl, .inl ‹_›⟩
  split at h
  · cases h; exact .inl ⟨rfl, .inr (.inl ‹_›)⟩
  split at h
  · simp only [Config.decZeroOffset, Except.ok.injEq] at h
    exact .inl ⟨h.symm, .inr (.inr ‹_›)⟩
  split at h
  · cases h; exact .inr (.inl ⟨rfl, by omega, by omega, ‹_›, ‹_›⟩)
  · simp only [bind_eq_ok, advanceDec_eq_ok] at h
    obtain ⟨d1, ⟨hs, rfl⟩, h⟩ := h
    exact .inr (.inr ⟨hs, by omega, ‹_›, by omega, h⟩)

/-! ### The stream pseudo-instructions -/

/-- The mask of the next token counts modulo 8 (10 R28). -/
theorem nextTokenMask_shift : ∀ k < 8, nextTokenMask (1#9 <<< k) = 1#9 <<< ((k + 1) % 8) := by decide

/-- A given token's step is its element on the moved mask, and the end test (30 R107, 43 R191). -/
theorem tokenStepOp_eq_ok {t : Token} {d d' : Dec} :
    tokenStepOp t d = .ok d' ↔
      ∃ d1, runToken t { d with cmask := nextTokenMask d.cmask } = .ok d1 ∧ d' = endToken d1 := by
  unfold tokenStepOp
  simp only [bind_eq_ok, pure_eq_ok, Except.ok.injEq, eq_comm (a := d')]

/-- Nothing is looked at once the call has ended (60 R238). -/
theorem tokensOp_of_not_busy {d : Dec} (h : d.mode ≠ .busy) : ∀ ts : List Token, tokensOp ts d = .ok d
  | [] => rfl
  | _ :: ts => by simp only [tokensOp, whenDec_not_busy h, ok_bind, tokensOp_of_not_busy h ts]

end Sys2Proof.Machine
end

