-- ==== Sys2Proof/Tests/Slice0.lean ====
section
/-! SUPPORT. Tests. Expected values come from spec/95_test_vectors (V1 to V84), the examples of the rules, or hand
calculation from the rules. The last part shows, for every statement with hypotheses, states that meet them. -/

namespace Sys2Proof.Tests

open Sys2Proof Sys2Proof.Machine

/-! ### Helpers -/

/-- `n` equal bytes from address 0. -/
def runOf (b : Byte) (n : Nat) : Mem := (List.range n).map fun a => (a, b)

/-- Bytes from address 0. -/
def memOf (l : List Byte) : Mem := layBytes [] 0 l

/-- A state with this encoder. -/
def withEnc (e : Enc) : State := { State.reset with enc := e }

/-- A state with this decoder. -/
def withDec (d : Dec) : State := { State.reset with dec := d }

/-- The encoder inside a call on 100 bytes 0x61 (V40). -/
def encAt (spos dpos dlen : Nat) : Enc :=
  { Enc.resetWith (runOf 0x61 100) [] with
    mode := .busy, slen := 100, dlen := wordOf dlen, spos := wordOf spos, dpos := wordOf dpos, cmask := 0x002 }

/-- The encoder at the first step of a call on some bytes. -/
def encOn (bytes : List Byte) (dlen : Nat) : Enc :=
  { Enc.resetWith (memOf bytes) [] with mode := .busy, slen := wordOf bytes.length, dlen := wordOf dlen }

/-- The decoder at the first step of a call on a stream. -/
def decOn (bytes : List Byte) (cap : Nat) : Dec :=
  { Dec.resetWith (memOf bytes) [] with mode := .busy, slen := wordOf bytes.length, dcap := wordOf cap }

/-- The encoder after an instruction that goes on. -/
def nextEnc : Host.Outcome State Fault Refusal → Option Enc
  | .next s => some s.enc
  | .fault _ => none
  | .refused _ => none

/-- The decoder after an instruction that goes on. -/
def nextDec : Host.Outcome State Fault Refusal → Option Dec
  | .next s => some s.dec
  | .fault _ => none
  | .refused _ => none

/-- The host's side after an instruction that goes on. -/
def nextHost : Host.Outcome State Fault Refusal → Option HostPort
  | .next s => some s.host
  | .fault _ => none
  | .refused _ => none

/-! ### Well-formedness: each check refuses an ill-formed term -/

theorem test_wf_match_offset_zero : (Instr.matchTok 5 0).wf = false ∧ (Instr.matchTok 5 1).wf = true := by decide
theorem test_wf_enc_start_bit0 : (Instr.encStart 2).wf = false ∧ (Instr.encStart 1).wf = true := by decide
theorem test_wf_dec_start_bit0 : (Instr.decStart 4).wf = false ∧ (Instr.decStart 5).wf = true := by decide
theorem test_wf_wr_start : (Instr.wr 2 1).wf = false ∧ (Instr.wr 7 3).wf = false ∧ (Instr.wr 2 2).wf = true := by decide
theorem test_wf_group_empty : (Instr.group []).wf = false ∧ (Instr.group [.lit 0]).wf = true := by decide
theorem test_wf_group_nine : (Instr.group (List.replicate 9 (.lit 0))).wf = false ∧
    (Instr.group (List.replicate 8 (.lit 0))).wf = true := by decide

/-! ### Decoding: words written out from 30 R91 to R95, R99, R104 -/

-- MAP: bits c7 .. c0; a group L,L,L,M has MAP 0x08 (V7a)
theorem test_decode_map : decode (.element .map [0b00001000#8]) = .ok (.map 8) := by decide
theorem test_decode_lit : decode (.element .lit [0b01100010#8]) = .ok (.lit 0x62) := by decide
-- V1: 3, 1; V5b: 35, 512; V6: 10, 300
theorem test_decode_match_smallest : decode (.element .mat [0b00000000#8, 0b00000001#8]) = .ok (.matchTok 0 1) := by
  decide
theorem test_decode_match_bit9 : decode (.element .mat [0b10000010#8, 0b00000000#8]) = .ok (.matchTok 32 512) := by
  decide
theorem test_decode_match_mixed : decode (.element .mat [0b00011101#8, 0b00101100#8]) = .ok (.matchTok 7 300) := by
  decide
-- V7: 3, 0 is reserved
theorem test_decode_reserved : decode (.element .mat [0b00000000#8, 0b00000000#8]) = .ok (.matchReserved 0) := by decide
theorem test_decode_enc_start : decode (.access (.write 2 1)) = .ok (.encStart 1) := by decide
theorem test_decode_dec_start : decode (.access (.write 7 1)) = .ok (.decStart 1) := by decide
theorem test_decode_wr : decode (.access (.write 0 1)) = .ok (.wr 0 1) := by decide
theorem test_decode_rd : decode (.access (.read 3)) = .ok (.rd 3) := by decide
theorem test_decode_truncated : decode (.element .mat [0b00000001#8]) = .error .truncatedMatch := by decide
theorem test_decode_nothing : decode (.element .map []) = .error .noBytes := by decide
theorem test_decode_trailing : decode (.element .lit [1, 2]) = .error .trailingBytes := by decide

-- V2, V6c encoded
theorem test_encode_match : encode (.matchTok 63 1023) = some (.element .mat [0xFF, 0xFF]) ∧
    encode (.matchTok 63 66) = some (.element .mat [0xFC, 0x42]) := by decide
-- 30 R107: GROUP LIT 'b'; MATCH 66, 1 assembles to 02 62 FC 01
theorem test_assemble_group : assemble (.group [.lit 0x62, .mat 63 1]) = [0x02, 0x62, 0xFC, 0x01] := by decide
-- V9
theorem test_disassemble : disassemble [0x08, 0x61, 0x62, 0x63, 0x04, 0x03] =
    .ok [.map 8, .lit 0x61, .lit 0x62, .lit 0x63, .matchTok 1 3] := by decide
-- the opcode table's words: T = byte0 ++ byte1 (30 R93)
theorem test_table_word_map : decodeTableWord 8 0x0A = some (.map 0x0A) := by decide
theorem test_table_word_match : decodeTableWord 16 0x1D2C = some (.matchTok 7 300) := by decide
theorem test_table_word_reserved : decodeTableWord 16 0xFC00 = some (.matchReserved 63) := by decide
theorem test_table_word_size : decodeTableWord 32 0 = none := by decide

/-! ### A word placed at the fetch runs as the first step after reset -/

theorem test_fetch_map : (nextDec (step (State.reset.withFetchWord 8 0x0A))).map (fun d => (d.cmap, d.spos)) =
    some (0x0A#8, 1#32) := by decide
-- V63: a match as the first token has nothing to copy
theorem test_fetch_match : (nextDec (step (State.reset.withFetchWord 16 0x0001))).map (fun d => (d.code, d.mode)) =
    some (.badData, .done) := by decide
theorem test_fetch_reserved : (nextDec (step (State.reset.withFetchWord 16 0))).map (fun d => (d.code, d.mode)) =
    some (.badData, .done) := by decide

/-! ### Stream elements -/

theorem test_map_fetches : (nextDec (exec (.map 0x02) (withDec (decOn [0x02, 0x62, 0xFC, 0x01] 67)))).map
    (fun d => (d.cmap, d.spos, d.cmask)) = some (0x02#8, 1#32, 0x001#9) := by decide
-- V51
theorem test_map_trailing : (nextDec (exec (.map 0x00) (withDec (decOn [0x00] 0)))).map
    (fun d => (d.code, d.count, d.mode)) = some (.ok, 0#32, .done) := by decide
-- 43 R183's example
theorem test_lit_stores : (nextDec (exec (.lit 0x62) (withDec { decOn [0x02, 0x62, 0xFC, 0x01] 67 with spos := 1 }))).map
    (fun d => (cellRead d.dst 0, d.spos, d.dpos)) = some (0x62#8, 2#32, 1#32) := by decide
-- V55, its second literal
theorem test_lit_overflow :
    (nextDec (exec (.lit 0x42) (withDec { decOn [0x00, 0x41, 0x42] 1 with spos := 2, dpos := 1 }))).map
    (fun d => (d.code, d.spos, d.dpos)) = some (.wouldOverflow, 2#32, 1#32) := by decide
-- V61: 66 more bytes of 0x62
theorem test_match_overlaps : (nextDec (exec (.matchTok 63 1) (withDec
    { decOn [0x02, 0x62, 0xFC, 0x01] 67 with spos := 2, dpos := 1, dst := [(0, 0x62)] }))).map
    (fun d => (d.dpos, d.spos, cellRead d.dst 66)) = some (67#32, 4#32, 0x62#8) := by decide +kernel
-- V66: the bad offset is reported before the missing room
theorem test_match_bad_before_overflow : (nextDec (exec (.matchTok 2 2) (withDec
    { decOn [0x02, 0x41, 0x08, 0x02] 3 with spos := 2, dpos := 1 }))).map
    (fun d => (d.code, d.mode, d.spos)) = some (.badData, .done, 2#32) := by decide
-- V65
theorem test_match_reserved : (nextDec (exec (.matchReserved 0) (withDec
    { decOn [0x02, 0x41, 0x00, 0x00] 10 with spos := 2, dpos := 1 }))).map
    (fun d => (d.code, d.count, d.dpos)) = some (.badData, 0#32, 1#32) := by decide

/-! ### Host commands -/

-- 44 R210, V84: a second start clears the results and the table
theorem test_enc_start_again : (nextEnc (exec (.encStart 1) (withEnc
    { encAt 100 41 129 with mode := .done, result := 41, fallback := true, table := [(673, 1)] }))).map
    (fun e => (e.mode, e.result, e.fallback, e.table)) = some (.busy, 0#32, false, []) := by decide
-- V30
theorem test_enc_start_empty : (nextEnc (exec (.encStart 1) State.reset)).map (fun e => (e.mode, e.result)) =
    some (.done, 0#32) := by decide
-- V50
theorem test_dec_start_empty : (nextDec (exec (.decStart 1) State.reset)).map (fun d => (d.mode, d.code, d.cmask)) =
    some (.done, .ok, 0x080#9) := by decide
theorem test_dec_start_busy_ignored : (nextDec (exec (.decStart 1) (withDec { decOn [0, 1] 5 with spos := 1 }))).map
    (fun d => d.spos) = some 1#32 := by decide
-- V83
theorem test_wr_busy_ignored : (nextEnc (exec (.wr 0 7) (withEnc (encAt 1 2 129)))).map (fun e => e.slen) =
    some 100#32 := by decide
-- V82: bit 0 is 0
theorem test_wr_ctrl_no_start : (nextEnc (exec (.wr 2 2) (withEnc { Enc.resetWith [] [] with slen := 3 }))).map
    (fun e => (e.mode, e.slen)) = some (.idle, 3#32) := by decide
-- V81: WOULD_OVERFLOW reads as DEC_STATUS 0xA
theorem test_rd_dec_status : (nextHost (exec (.rd 8) (withDec
    { Dec.resetWith [] [] with mode := .done, code := .wouldOverflow }))).map (fun h => h.rdata) = some 0xA#32 := by
  decide
-- V81: fallback reads as ENC_STATUS 0x6
theorem test_rd_enc_status : (nextHost (exec (.rd 3) (withEnc
    { Enc.resetWith [] [] with mode := .done, fallback := true }))).map (fun h => h.rdata) = some 0x6#32 := by decide
theorem test_wait_enc_loops : (nextHost (exec .waitEnc (withEnc (encAt 1 2 129)))).map (fun h => h) =
    some ⟨[.wait .encoder], 1#32⟩ := by decide
theorem test_wait_dec_ends : (nextHost (exec .waitDec (withDec { Dec.resetWith [] [] with mode := .done }))) =
    some ⟨[], 2#32⟩ := by decide

/-! ### The match finder -/

-- V11
theorem test_tailguard : (nextEnc (exec .eTailguard (withEnc (encAt 34 2 129)))).map (fun e => e.w.tail) = some false ∧
    (nextEnc (exec .eTailguard (withEnc (encAt 35 2 129)))).map (fun e => e.w.tail) = some true := by decide
-- V10
theorem test_hash3_abc : (nextEnc (exec .eHash3 (withEnc (encOn [0x61, 0x62, 0x63] 20)))).map (fun e => e.w.h) =
    some 0x649FAC#32 := by decide
theorem test_hash3_largest : (nextEnc (exec .eHash3 (withEnc (encOn [0xFF, 0xFF, 0xFF] 20)))).map (fun e => e.w.h) =
    some 0x10883FD#32 := by decide
theorem test_tindex : (nextEnc (exec .eTindex (withEnc
    { encAt 0 0 129 with w := { EncWires.none with h := 0x10883FD } }))).map (fun e => e.w.idx) = some 1021#10 := by
  decide
-- V13, the step at position 6
theorem test_tlookup : (nextEnc (exec .eTlookup (withEnc
    { encAt 6 6 129 with table := [(940, 3)], w := { EncWires.none with idx := 940 } }))).map
    (fun e => (e.w.old, e.table)) = some (3#32, [(940, 6#32)]) := by decide
-- V12: 1030 and 3; 1024 and 0
theorem test_offset_wraps : matchOffset 1030 3 = 3 ∧ matchOffset 1024 0 = 0 ∧
    (nextEnc (exec .eOffset (withEnc { encAt 4 4 129 with w := { EncWires.none with old := 3 } }))).map
      (fun e => e.w.off) = some 1#10 := by decide
theorem test_cand : (nextEnc (exec .eCand (withEnc { encAt 8 8 129 with w := { EncWires.none with off := 8 } }))).map
    (fun e => (e.w.inrange, e.w.cand)) = some (true, 0#32) := by decide
-- V14: "abcabc" and "abcdefgh"
theorem test_cmp3_equal : (nextEnc (exec .eCmp3 (withEnc { encOn [0x61, 0x62, 0x63, 0x61, 0x62, 0x63] 30 with
    spos := 3, w := { EncWires.none with inrange := true, off := 3 } }))).map (fun e => e.w.eq3) = some true := by decide
theorem test_cmp3_unequal : (nextEnc (exec .eCmp3 (withEnc { encOn [0x61, 0x62, 0x63, 0x64, 0x65] 30 with
    spos := 1, w := { EncWires.none with inrange := true, off := 1, eq3 := true } }))).map (fun e => e.w.eq3) =
    some false := by decide
-- V14: off = 0 is never accepted
theorem test_accept : (nextEnc (exec .eAccept (withEnc
    { encAt 1 2 129 with w := { EncWires.none with inrange := true, off := 1, eq3 := true } }))).map
      (fun e => e.w.accept) = some true ∧
    (nextEnc (exec .eAccept (withEnc
    { encAt 1 2 129 with w := { EncWires.none with inrange := true, off := 0, eq3 := true } }))).map
      (fun e => e.w.accept) = some false := by decide
-- 40 R129's example
theorem test_advance : (nextEnc (exec .eAdvance (withEnc
    { encAt 1 2 129 with w := { EncWires.none with accept := true, len := 63 } }))).map (fun e => e.spos) =
    some 67#32 := by decide
theorem test_advance_literal : (nextEnc (exec .eAdvance (withEnc (encAt 1 2 129)))).map (fun e => e.spos) =
    some 2#32 := by decide

/-! ### The framer and the token encoder -/

-- V20, and the first step of a call
theorem test_frame_opens : (nextEnc (exec .eFrame (withEnc (encOn [0x5A] 18)))).map
    (fun e => (e.cmask, e.mapaddr, e.dpos)) = some (0x001#9, 0#32, 1#32) := by decide
theorem test_frame_moves : (nextEnc (exec .eFrame (withEnc { encAt 1 2 129 with cmask := 0x001 }))).map
    (fun e => (e.cmask, e.dpos)) = some (0x002#9, 2#32) := by decide
-- V21
theorem test_headroom_refused : (nextEnc (exec .eHeadroom (withEnc (encAt 9 9 26)))).map
    (fun e => (e.mode, e.fallback, e.result)) = some (.done, true, 100#32) := by decide
theorem test_headroom_passed : (nextEnc (exec .eHeadroom (withEnc (encAt 9 9 27)))).map (fun e => e.mode) =
    some .busy := by decide
-- V22
theorem test_mapalloc : (nextEnc (exec .eMapalloc (withEnc { encAt 0 5 129 with dst := [(5, 7)] }))).map
    (fun e => (e.mapaddr, e.dpos, cellRead e.dst 5, e.cmask)) = some (5#32, 6#32, 0#8, 0x001#9) := by decide
theorem test_setbit : (nextEnc (exec .eSetbit (withEnc (encAt 1 2 129)))).map (fun e => (e.mapval, cellRead e.dst 0)) =
    some (0x02#8, 0x02#8) := by decide
-- 42 R155: 100 bytes 0x61 at 1 from 0
theorem test_extend_longest : (nextEnc (exec .eExtend (withEnc (encAt 1 2 129)))).map (fun e => mlenOf e.w.len) =
    some 66 := by decide +kernel
-- the fourth pair differs
theorem test_extend_shortest : (nextEnc (exec .eExtend (withEnc
    { encAt 10 2 129 with src := runOf 0x61 13 }))).map (fun e => mlenOf e.w.len) = some 3 := by decide
-- 42 R156: 10, 300 is 1D 2C
theorem test_emit_match : (nextEnc (exec .eEmitMatch (withEnc
    { encAt 1 2 129 with w := { EncWires.none with len := 7, off := 300 } }))).map
    (fun e => (cellRead e.dst 2, cellRead e.dst 3, e.dpos, e.spos)) = some (0x1D#8, 0x2C#8, 4#32, 11#32) := by decide
theorem test_emit_lit : (nextEnc (exec .eEmitLit (withEnc (encAt 0 1 129)))).map
    (fun e => (cellRead e.dst 1, e.dpos, e.spos)) = some (0x61#8, 2#32, 1#32) := by decide
-- V32, V31
theorem test_enc_step_literal : (nextEnc (exec .eStep (withEnc (encOn [0x5A] 18)))).map
    (fun e => (e.mode, e.result, cellRead e.dst 1)) = some (.done, 2#32, 0x5A#8) := by decide
theorem test_enc_step_fallback : (nextEnc (exec .eStep (withEnc (encOn [0x5A] 17)))).map
    (fun e => (e.mode, e.result, e.fallback, e.dst)) = some (.done, 1#32, true, []) := by decide

/-! ### The decoder's operations -/

-- 43 R180's example
theorem test_dec_frame : (nextDec (exec .dFrame (withDec (decOn [0x02, 0x62, 0xFC, 0x01] 67)))).map
    (fun d => (d.cmap, d.spos, d.cmask)) = some (0x02#8, 1#32, 0x001#9) := by decide
theorem test_dec_frame_moves : (nextDec (exec .dFrame (withDec
    { decOn [0x02, 0x62, 0xFC, 0x01] 67 with spos := 2, cmask := 0x001 }))).map (fun d => (d.cmask, d.spos)) =
    some (0x002#9, 2#32) := by decide
-- 43 R182's example
theorem test_select : (nextDec (exec .dSelect (withDec { decOn [0, 1] 9 with cmap := 2, cmask := 0x001 }))).map
      (fun d => d.w.ismatch) = some false ∧
    (nextDec (exec .dSelect (withDec { decOn [0, 1] 9 with cmap := 2, cmask := 0x002 }))).map
      (fun d => d.w.ismatch) = some true := by decide
theorem test_dec_lit : (nextDec (exec .dLit (withDec { decOn [0x02, 0x62, 0xFC, 0x01] 67 with spos := 1 }))).map
    (fun d => (cellRead d.dst 0, d.spos)) = some (0x62#8, 2#32) := by decide
-- 43 R184's example
theorem test_dec_match : (nextDec (exec .dMatch (withDec
    { decOn [0x02, 0x62, 0xFC, 0x01] 67 with spos := 2, dpos := 1, dst := [(0, 0x62)] }))).map
    (fun d => (d.dpos, d.spos, cellRead d.dst 66)) = some (67#32, 4#32, 0x62#8) := by decide +kernel
-- V64
theorem test_dec_match_truncated : (nextDec (exec .dMatch (withDec { decOn [0x01, 0x00] 10 with spos := 1 }))).map
    (fun d => (d.code, d.spos)) = some (.badData, 1#32) := by decide
-- 43 R189's example: 61 62 63, off 3, mlen 4
theorem test_replay : (nextDec (exec .dReplay (withDec
    { decOn [0, 1] 9 with dpos := 3, dst := memOf [0x61, 0x62, 0x63], w := ⟨true, 1, 3⟩ }))).map
    (fun d => (d.dpos, prefixBytes d.dst 7)) =
    some (7#32, [0x61#8, 0x62#8, 0x63#8, 0x61#8, 0x62#8, 0x63#8, 0x61#8]) := by decide
-- V63, one step
theorem test_dec_step_error : (nextDec (exec .dStep (withDec (decOn [0x01, 0x00, 0x01] 10)))).map
    (fun d => (d.code, d.mode, d.spos, d.cmask)) = some (.badData, .done, 1#32, 0x001#9) := by decide
-- V51
theorem test_dec_step_trailing : (nextDec (exec .dStep (withDec (decOn [0xFF] 0)))).map
    (fun d => (d.code, d.mode, d.spos)) = some (.ok, .done, 1#32) := by decide
-- V60: the match does not fit
theorem test_group : (nextDec (exec (.group [.lit 0x61, .lit 0x62, .lit 0x63, .mat 1 3])
    (withDec (decOn [0x08, 0x61, 0x62, 0x63, 0x04, 0x03] 6)))).map
    (fun d => (d.code, d.spos, d.cmask, prefixBytes d.dst 3)) =
    some (.wouldOverflow, 4#32, 0x008#9, [0x61#8, 0x62#8, 0x63#8]) := by decide
-- V59
theorem test_group_ends : (nextDec (exec (.group [.lit 0x61, .lit 0x62, .lit 0x63, .mat 1 3])
    (withDec (decOn [0x08, 0x61, 0x62, 0x63, 0x04, 0x03] 7)))).map (fun d => (d.code, d.mode, d.count)) =
    some (.ok, .done, 7#32) := by decide
theorem test_lits : (nextDec (exec (.lits [0x62, 0x63])
    (withDec { decOn [0x00, 0x61, 0x62, 0x63] 5 with spos := 2, dpos := 1, cmask := 0x001 }))).map
    (fun d => (d.count, d.mode, cellRead d.dst 2)) = some (3#32, .done, 0x63#8) := by decide

-- 43 R183 asks for no copy-map bit; 10 R28: after the 8th token the mask is token 0's again
theorem test_lits_any_position : (nextDec (exec (.lits [0x62, 0x63])
    (withDec { decOn [0x00, 0x61, 0x62, 0x63] 5 with spos := 1, cmask := 0x040, cmap := 0xFF }))).map
    (fun d => (d.cmask, d.spos, prefixBytes d.dst 2)) = some (0x001#9, 3#32, [0x62#8, 0x63#8]) := by decide

/-! ### The reference functions -/

-- V33, V34, V38
theorem test_compress_vectors : compress [0, 1, 2, 3, 4, 5, 6, 7, 8] 26 = ⟨9, true, [0, 0, 1, 2, 3, 4, 5, 6, 7]⟩ ∧
    compress (List.replicate 67 0x61) 92 = ⟨4, false, [0x02, 0x61, 0xFC, 0x01]⟩ := by decide
-- V59, V66
theorem test_decompress_vectors :
    decompress [0x08, 0x61, 0x62, 0x63, 0x04, 0x03] 7 = ⟨.ok, 7, [0x61, 0x62, 0x63, 0x61, 0x62, 0x63, 0x61]⟩ ∧
    decompress [0x02, 0x41, 0x08, 0x02] 3 = ⟨.badData, 0, [0x41]⟩ := by decide +kernel
-- V8
theorem test_size_bound : sizeBound 0 = 16 ∧ sizeBound 9 = 27 ∧ sizeBound 2000 = 2266 := by decide

/-! ### States that meet the hypotheses of the statements, each clause at a boundary of its range -/

/-- An instruction that goes on. -/
theorem goes {o : Host.Outcome State Fault Refusal} (h : (nextHost o).isSome = true) : ∃ t, o = .next t := by
  cases o with
  | next s => exact ⟨s, rfl⟩
  | fault r => cases h
  | refused r => cases h

/-- An engine operation that answers. -/
def okEnc : Except Fault Enc → Option Enc
  | .ok e => some e
  | .error _ => none

/-- An engine operation that answers. -/
theorem answers {x : Except Fault Enc} (h : (okEnc x).isSome = true) : x = .ok ((okEnc x).get h) := by
  cases x with
  | ok e => rfl
  | error r => cases h

/-- Both engines inside a call, after one token each: V40 and V61. -/
def bothBusy : State :=
  { State.reset with
    enc := { encAt 1 2 129 with cmask := 0x001, dst := [(1, 0x61)] }
    dec := { decOn [0x02, 0x62, 0xFC, 0x01] 67 with
      spos := 2, dpos := 1, cmask := 0x001, cmap := 0x02, dst := [(0, 0x62)] } }

/-- The encoder of `bothBusy` meets its invariant. -/
theorem test_hyps_enc_inv : EncInv bothBusy.enc := by
  constructor <;> decide

/-- The decoder of `bothBusy` meets its invariant. -/
theorem test_hyps_dec_inv : DecInv bothBusy.dec := by
  constructor <;> decide

theorem test_hyps_inv_step : Inv bothBusy ∧ bothBusy.enc.mode = .busy ∧ bothBusy.dec.mode = .busy ∧
    (∃ t, step bothBusy = .next t) ∧ (∃ t, step { bothBusy with sched := [.encoder] } = .next t) ∧
    ∃ t, step { bothBusy with sched := [.decoder] } = .next t :=
  ⟨⟨test_hyps_enc_inv, test_hyps_dec_inv⟩, rfl, rfl, goes (by decide), goes (by decide +kernel),
    goes (by decide +kernel)⟩

theorem test_hyps_round_trip_encoding : (Instr.matchTok 63 1023).wf = true ∧
    encode (.matchTok 63 1023) = some (.element .mat [0xFF, 0xFF]) ∧ (Instr.wr 2 0).wf = true ∧
    encode (.wr 2 0) = some (.access (.write 2 0)) := by decide

theorem test_hyps_fields : (3 ≤ 3 ∧ 3 ≤ 66 ∧ 0 ≤ 1023) ∧ (3 ≤ 66 ∧ 66 ≤ 66 ∧ 1023 ≤ 1023) := by decide

theorem test_hyps_group_lengths : ∃ a b : List Token, 1 ≤ a.length ∧ a.length ≤ 8 ∧ 0 < a.length ∧ a.length ≤ 1 ∧
    b.length = 8 := ⟨[.mat 0 0], List.replicate 8 (.lit 0), by decide⟩

/-- The state of `StepRunsDecodedToken`: V59 before its match. -/
def beforeMatch : State :=
  { withDec { decOn [0x08, 0x61, 0x62, 0x63, 0x04, 0x03] 7 with
      spos := 4, dpos := 3, cmask := 0x004, cmap := 0x08, dst := memOf [0x61, 0x62, 0x63] } with sched := [.decoder] }

theorem test_hyps_step_token : beforeMatch.sched = .decoder :: [] ∧ decActive beforeMatch.dec ∧
    isNewGroup (shiftMask beforeMatch.dec.cmask) = false ∧
    fetchElement (if mapBit beforeMatch.dec.cmap (shiftMask beforeMatch.dec.cmask) then .mat else .lit)
      beforeMatch.dec = .ok (.matchTok 1 3) ∧
    ∃ t, exec (.matchTok 1 3) { beforeMatch with
      sched := []
      dec := { beforeMatch.dec with
        cmask := shiftMask beforeMatch.dec.cmask
        w := { beforeMatch.dec.w with
          ismatch := mapBit beforeMatch.dec.cmap (shiftMask beforeMatch.dec.cmask) } } } = .next t :=
  ⟨rfl, by decide, by decide, by decide, goes (by decide +kernel)⟩

/-- A decoder that moves next and stands at the first byte of a stream. -/
def atMap (bytes : List Byte) : State := { withDec (decOn bytes 7) with sched := [.decoder] }

theorem test_hyps_step_map :
    (decActive (atMap [5]).dec ∧ isNewGroup (shiftMask (atMap [5]).dec.cmask) = true ∧
      fetchElement .map (atMap [5]).dec = .ok (.map 5) ∧
      (atMap [5]).dec.spos.toNat + 1 = (atMap [5]).dec.slen.toNat ∧
      ∃ t, exec (.map 5) { atMap [5] with sched := [], dec := { (atMap [5]).dec with cmask := 0x100 } } = .next t) ∧
    decActive (atMap [0, 1]).dec ∧ isNewGroup (shiftMask (atMap [0, 1]).dec.cmask) = true ∧
      fetchElement .map (atMap [0, 1]).dec = .ok (.map 0) ∧
      (atMap [0, 1]).dec.spos.toNat + 1 < (atMap [0, 1]).dec.slen.toNat ∧
      ∃ t, exec (.map 0) { atMap [0, 1] with sched := [], dec := { (atMap [0, 1]).dec with cmask := 0x100 } } =
        .next t :=
  ⟨⟨by decide, by decide, by decide, by decide, goes (by decide)⟩, by decide, by decide, by decide, by decide,
    goes (by decide)⟩

theorem test_hyps_step_host_encoder : ∃ s u : State, s.sched = .host :: [] ∧
    s.host.prog = .access (.read 3) :: [] ∧ u.sched = .encoder :: [] :=
  ⟨{ State.reset with sched := [.host], host := ⟨[.access (.read 3)], 0⟩ }, { State.reset with sched := [.encoder] },
    rfl, rfl, rfl⟩

theorem test_hyps_reset_input : bothBusy.enc.mode = .busy ∧ bothBusy.enc.dlen.toNat ≤ 129 ∧
    bothBusy.dec.dcap.toNat ≤ 67 ∧ Memory.wf bothBusy.enc.dst = true ∧ Memory.wf bothBusy.dec.dst = true ∧
    State.reset.enc.mode ≠ .busy := by decide

theorem test_hyps_size_bound : State.reset.enc.mode ≠ .busy ∧
    sizeBound 100 ≤ (129#32).toNat ∧ BoundInv bothBusy.enc ∧ EncInv bothBusy.enc ∧ bothBusy.enc.mode = .busy ∧
    ∃ t, exec .eStep bothBusy = .next t :=
  ⟨by decide, by decide, ⟨by decide, by decide⟩, test_hyps_enc_inv, rfl, goes (by decide +kernel)⟩

theorem test_hyps_table_past : TablePast bothBusy.enc ∧ bothBusy.enc.mode = .busy ∧
    ∃ t, exec .eStep bothBusy = .next t :=
  ⟨fun _ => Nat.zero_le _, rfl, goes (by decide +kernel)⟩

theorem test_hyps_shadow : EncInv bothBusy.enc ∧ bothBusy.enc.mode = .busy ∧
    cellRead bothBusy.enc.dst bothBusy.enc.mapaddr.toNat = bothBusy.enc.mapval ∧
    bothBusy.enc.mapval.toNat < 2 * bothBusy.enc.cmask.toNat ∧
    ∃ t, exec .eStep bothBusy = .next t ∧ t.enc.fallback = false := by
  refine ⟨test_hyps_enc_inv, rfl, by decide, by decide, ?_⟩
  obtain ⟨t, ht⟩ := goes (o := exec .eStep bothBusy) (by decide +kernel)
  refine ⟨t, ht, ?_⟩
  have h : nextEnc (exec .eStep bothBusy) = some t.enc := by rw [ht]; rfl
  have h' : (nextEnc (exec .eStep bothBusy)).map (fun e => e.fallback) = some false := by decide +kernel
  rw [h] at h'
  exact Option.some.inj h'

theorem test_hyps_calls : State.reset.enc.mode ≠ .busy ∧ State.reset.dec.mode ≠ .busy := by decide

-- V38 and V61
theorem test_hyps_round_trip : (compress (List.replicate 67 0x61) 92).fallback = false ∧
    (List.replicate 67 (0x61 : Byte)).length ≤ 67 := by decide +kernel

theorem test_hyps_overflow : (decompress [0x00, 0x41, 0x42] 2).code = .ok ∧
    1 < (decompress [0x00, 0x41, 0x42] 2).out.length ∧ (decompress [0x00, 0x41, 0x42] 2).out.length ≤ 2 := by decide

theorem test_hyps_start : (0xFFFFFFFF#32).getLsbD 0 = true ∧ bothBusy.enc.mode = .busy ∧ bothBusy.dec.mode = .busy ∧
    State.reset.enc.mode ≠ .busy ∧ State.reset.dec.mode ≠ .busy := by decide

theorem test_hyps_registers : (∀ reg ∈ [3, 4, 8, 9, 10], reg = 3 ∨ reg = 4 ∨ reg = 8 ∨ 9 ≤ reg) ∧
    ∀ reg ∈ [2, 7, 10], reg = 2 ∨ reg = 7 ∨ 9 < reg := by decide

theorem test_hyps_waits : bothBusy.enc.mode ≠ .done ∧ bothBusy.dec.mode ≠ .done ∧ (encAt 1 2 9).mode ≠ .done ∧
    ({ encAt 1 2 9 with mode := .done }).mode = .done ∧ ({ decOn [] 0 with mode := .done }).mode = .done := by decide

theorem test_hyps_host_memory : engineBusy bothBusy (spaceOwner .edst) = true ∧
    engineBusy bothBusy (spaceOwner .dsrc) = true ∧ engineBusy State.reset (spaceOwner .ddst) = false := by decide

theorem test_hyps_frame_host : ∀ i ∈ [Instr.encStart 1, .decStart 1, .wr 0 7, .wr 5 7, .wr 10 1, .rd 3, .waitEnc, .waitDec],
    (nextHost (exec i bothBusy)).isSome = true ∧ (nextHost (exec i State.reset)).isSome = true := by decide

theorem test_hyps_enc_active : encActive bothBusy.enc ∧ encActive (encAt 99 2 129) := by decide

theorem test_hyps_hash : encActive (encAt 97 2 129) ∧ (encAt 97 2 129).spos.toNat + 2 < (encAt 97 2 129).slen.toNat := by
  decide

/-- The encoder with a candidate in its wires. -/
def withCand (inrange : Bool) (off : OffField) (cand : Word) (e : Enc) : Enc :=
  { e with w := { EncWires.none with inrange := inrange, off := off, cand := cand } }

theorem test_hyps_compare :
    (encActive (withCand true 1 96 (encAt 97 2 129)) ∧ (withCand true 1 96 (encAt 97 2 129)).w.inrange = true ∧
      (withCand true 1 96 (encAt 97 2 129)).w.off ≠ 0 ∧ 97 + 2 < (encAt 97 2 129).slen.toNat ∧
      (withCand true 1 96 (encAt 97 2 129)).w.cand.toNat ≤ (encAt 97 2 129).spos.toNat) ∧
    encActive (withCand true 0 97 (encAt 97 2 129)) ∧
      ¬((withCand true 0 97 (encAt 97 2 129)).w.inrange = true ∧ (withCand true 0 97 (encAt 97 2 129)).w.off ≠ 0) := by
  decide

/-- The encoder with an accepted match of length field `len` in its wires. -/
def withLen (len : LenField) (e : Enc) : Enc :=
  { e with w := { EncWires.none with accept := true, len := len, off := 1 } }

theorem test_hyps_advance : encActive (withLen 63 (encAt 34 2 129)) ∧ (withLen 63 (encAt 34 2 129)).w.tail = false ∧
    (withLen 63 (encAt 34 2 129)).w.accept = true ∧
    (encAt 34 2 129).spos.toNat + mlenOf 63 ≤ (encAt 34 2 129).slen.toNat ∧
    encActive (encAt 99 2 129) ∧ (encAt 99 2 129).w.accept = false := by decide

/-- The last position of V40's source where a match is attempted, its predecessor recorded. -/
def lastAttempt : Enc := { encAt 34 2 129 with table := [(673, 33)] }

theorem test_hyps_genuine : ∃ e1 e2 : Enc, lastAttempt.spos.toNat + 66 ≤ lastAttempt.slen.toNat ∧
    findOp lastAttempt = .ok e1 ∧ e1.w.accept = true ∧ extendOp e1 = .ok e2 :=
  ⟨_, _, by decide, answers (by decide +kernel), by decide +kernel, answers (by decide +kernel)⟩

theorem test_hyps_frame_finder : ∀ i ∈ [Instr.eTailguard, .eHash3, .eTindex, .eTlookup, .eOffset, .eCand, .eCmp3, .eAccept,
    .eAdvance, .eExtend], (nextHost (exec i (withEnc lastAttempt))).isSome = true := by decide +kernel

theorem test_hyps_headroom : encActive (encAt 9 9 26) ∧ (encAt 9 9 26).dlen.toNat < (encAt 9 9 26).dpos.toNat + 18 ∧
    encActive (encAt 9 9 27) ∧ (encAt 9 9 27).dpos.toNat + 18 ≤ (encAt 9 9 27).dlen.toNat := by decide

theorem test_hyps_mapalloc : encActive (encAt 1 128 129) ∧ (encAt 1 128 129).dpos.toNat < (encAt 1 128 129).dlen.toNat ∧
    (encAt 1 128 129).mapaddr.toNat < (encAt 1 128 129).dlen.toNat := by decide

theorem test_hyps_frame_step : (encAt 1 2 129).cmask.setWidth 8 ≠ 0x80#8 ∧
    ({ encAt 9 9 26 with cmask := 0x080 }).cmask.setWidth 8 = 0x80#8 ∧ encActive { encAt 9 9 26 with cmask := 0x080 } ∧
    (encAt 9 9 26).dlen.toNat < (encAt 9 9 26).dpos.toNat + 18 ∧ encActive { encAt 9 9 27 with cmask := 0x080 } ∧
    (encAt 9 9 27).dpos.toNat + 18 ≤ (encAt 9 9 27).dlen.toNat := by decide

theorem test_hyps_extend : encActive (encAt 34 2 129) ∧ (encAt 34 2 129).spos.toNat + 66 ≤ (encAt 34 2 129).slen.toNat ∧
    (withCand true 1 33 (encAt 34 2 129)).w.cand.toNat ≤ (encAt 34 2 129).spos.toNat := by decide

theorem test_hyps_emit_match : encActive (withLen 63 (encAt 34 127 129)) ∧
    (encAt 34 127 129).dpos.toNat + 1 < (encAt 34 127 129).dlen.toNat ∧
    (encAt 34 127 129).spos.toNat + mlenOf (withLen 63 (encAt 34 127 129)).w.len ≤ (encAt 34 127 129).slen.toNat := by
  decide

theorem test_hyps_emit_lit : encActive (encAt 99 128 129) ∧
    (encAt 99 128 129).dpos.toNat < (encAt 99 128 129).dlen.toNat := by decide

theorem test_hyps_capacity : encActive (encAt 99 40 129) ∧
    (nextEnc (exec .eStep (withEnc (encAt 99 40 129)))).map (fun e => e.spos == e.slen) = some true ∧
    (nextEnc (exec .eStep (withEnc { encAt 99 40 129 with dst := [(3, 9)], dlen := 60 }))).map
      (fun e => e.spos == e.slen) = some true := by decide

theorem test_hyps_frame_stores : ∀ i ∈ [Instr.eHeadroom, .eMapalloc, .eFrame, .eSetbit, .eEmitLit, .eEmitMatch, .eStep],
    (nextHost (exec i (withEnc (withLen 63 (encAt 34 2 129))))).isSome = true := by decide +kernel

theorem test_hyps_map : decActive (decOn [5] 0) ∧ (decOn [5] 0).spos.toNat + 1 = (decOn [5] 0).slen.toNat ∧
    decActive (decOn [5, 6] 0) ∧ (decOn [5, 6] 0).spos.toNat + 1 < (decOn [5, 6] 0).slen.toNat := by decide

theorem test_hyps_dec_frame : decActive beforeMatch.dec ∧ beforeMatch.dec.cmask.setWidth 8 ≠ 0x80#8 ∧
    decActive (decOn [5] 0) ∧ (decOn [5] 0).cmask.setWidth 8 = 0x80#8 := by decide

theorem test_hyps_lit : decActive (decOn [5] 0) ∧ (decOn [5] 0).dcap.toNat ≤ (decOn [5] 0).dpos.toNat ∧
    decActive (decOn [5] 1) ∧ (decOn [5] 1).dpos.toNat < (decOn [5] 1).dcap.toNat := by decide

theorem test_hyps_match_checks :
    (decActive (decOn [1] 9) ∧ (decOn [1] 9).slen.toNat - (decOn [1] 9).spos.toNat < 2) ∧
    (decActive (decOn [0, 1] 9) ∧ (decOn [0, 1] 9).dpos.toNat < (1#10).toNat) ∧
    (decActive beforeMatch.dec ∧ (0#10).toNat = 0) ∧
    2 ≤ beforeMatch.dec.slen.toNat - beforeMatch.dec.spos.toNat ∧ 1 ≤ (3#10).toNat ∧
      (3#10).toNat ≤ beforeMatch.dec.dpos.toNat ∧
      beforeMatch.dec.dcap.toNat - beforeMatch.dec.dpos.toNat < mlenOf 2 := by decide

theorem test_hyps_match_replays : decActive beforeMatch.dec ∧
    beforeMatch.dec.spos.toNat + 2 ≤ beforeMatch.dec.slen.toNat ∧ 1 ≤ (3#10).toNat ∧
    (3#10).toNat ≤ beforeMatch.dec.dpos.toNat ∧
    beforeMatch.dec.dpos.toNat + mlenOf 1 ≤ beforeMatch.dec.dcap.toNat := by decide

theorem test_hyps_replay : ∃ d : Dec, d.mode = .busy ∧ 1 ≤ d.w.off.toNat ∧ d.w.off.toNat ≤ d.dpos.toNat ∧
    d.dpos.toNat + mlenOf d.w.len ≤ d.dcap.toNat :=
  ⟨{ beforeMatch.dec with w := ⟨true, 1, 3⟩ }, by decide⟩

theorem test_hyps_token_fetch : decActive beforeMatch.dec ∧
    beforeMatch.dec.spos.toNat + 2 ≤ beforeMatch.dec.slen.toNat ∧
    ((cellRead beforeMatch.dec.src 4).toNat * 256 + (cellRead beforeMatch.dec.src 5).toNat) % 1024 = 3 ∧
    (cellRead beforeMatch.dec.src 4).toNat / 4 + 3 = 4 ∧ 3 ≤ beforeMatch.dec.dpos.toNat ∧
    beforeMatch.dec.dpos.toNat + 4 ≤ beforeMatch.dec.dcap.toNat ∧
    decActive (decOn [1] 9) ∧ (decOn [1] 9).slen.toNat = (decOn [1] 9).spos.toNat + 1 ∧
    (decOn [1] 9).dpos.toNat < (decOn [1] 9).dcap.toNat := by decide

theorem test_hyps_frame_decoder : ∀ i ∈ [Instr.map 5, .dFrame, .lit 1, .dLit, .matchTok 1 3, .dMatch, .matchReserved 1,
    .dSelect, .dStep, .group [.lit 1], .lits []],
    (nextHost (exec i beforeMatch)).isSome = true := by decide +kernel

theorem test_hyps_frame_replay : (nextHost (exec .dReplay (withDec { beforeMatch.dec with w := ⟨true, 1, 3⟩ }))).isSome =
    true := by decide +kernel

/-- GROUP LIT 'a'; MATCH 3, 1 at the start of a stream that holds it. -/
def atGroup : Dec := decOn [0x02, 0x61, 0x00, 0x01] 4

theorem test_hyps_group : atGroup.mode = .busy ∧ (Instr.group [.lit 0x61, .mat 0 1]).wf = true ∧
    atGroup.spos.toNat + (assemble (.group [.lit 0x61, .mat 0 1])).length ≤ atGroup.slen.toNat ∧
    offsetsValid [.lit 0x61, .mat 0 1] (prefixBytes atGroup.dst atGroup.dpos.toNat) ∧
    (tokensOutput [.lit 0x61, .mat 0 1] (prefixBytes atGroup.dst atGroup.dpos.toNat)).length ≤ atGroup.dcap.toNat ∧
    atGroup.cmask = 0x080 ∧
    prefixBytes atGroup.src 4 = assemble (.group [.lit 0x61, .mat 0 1]) :=
  ⟨by decide, by decide, by decide, ⟨trivial, by decide, trivial⟩, by decide, by decide, by decide⟩

/-- A group of eight literals after its first token. -/
def inGroup : Dec := { decOn [0, 1, 2, 3, 4, 5, 6, 7, 8] 8 with spos := 2, dpos := 1, cmask := 0x001 }

theorem test_hyps_lits : inGroup.mode = .busy ∧ decActive inGroup ∧ inGroup.cmask = 1#9 <<< 0 ∧
    inGroup.spos.toNat + 7 ≤ inGroup.slen.toNat ∧ inGroup.dpos.toNat + 7 ≤ inGroup.dcap.toNat ∧
    { inGroup with dcap := 7 }.dpos.toNat ≤ { inGroup with dcap := 7 }.dcap.toNat ∧
    { inGroup with dcap := 7 }.dcap.toNat < { inGroup with dcap := 7 }.dpos.toNat + 7 := by decide

theorem test_hyps_commute : (∃ t, exec .eStep bothBusy = .next t) ∧ ∃ u, exec .dStep bothBusy = .next u :=
  ⟨goes (by decide +kernel), goes (by decide +kernel)⟩

end Sys2Proof.Tests
end

section
/-! PROOFS. The encoder's token step taken apart: the frame step, the token, the end of the step. -/

namespace Sys2Proof.Machine

/-! ### The copy-map mask (10 R28) -/

/-- A group opens exactly when the low 8 bits of the mask stand at token 7, the last of the group before. -/
theorem isNewGroup_shiftMask (m : BitVec 9) : isNewGroup (shiftMask m) = true ↔ m.setWidth 8 = 0x80#8 := by
  simp only [isNewGroup, shiftMask, beq_iff_eq, ← BitVec.toNat_inj, BitVec.toNat_shiftLeft, BitVec.toNat_setWidth,
    BitVec.toNat_ofNat, Nat.shiftLeft_eq]
  omega

theorem isNewGroup_shiftMask_eq_false (m : BitVec 9) :
    isNewGroup (shiftMask m) = false ↔ m.setWidth 8 ≠ 0x80#8 := by
  rw [← Bool.not_eq_true, isNewGroup_shiftMask]

/-- The shifted mask of a new group is `0x100`. -/
theorem shiftMask_of_newGroup {m : BitVec 9} (h : isNewGroup (shiftMask m) = true) : shiftMask m = 0x100 := by
  simpa [isNewGroup] using h

/-- The eight token masks, by the position of their one bit. -/
theorem isTokenMask_iff (m : BitVec 9) : isTokenMask m = true ↔ ∃ k < 8, m = 1#9 <<< k := by
  constructor
  · intro h
    simp only [isTokenMask, Bool.or_eq_true, beq_iff_eq, or_assoc] at h
    rcases h with rfl | rfl | rfl | rfl | rfl | rfl | rfl | rfl
    exacts [⟨0, by decide⟩, ⟨1, by decide⟩, ⟨2, by decide⟩, ⟨3, by decide⟩, ⟨4, by decide⟩, ⟨5, by decide⟩,
      ⟨6, by decide⟩, ⟨7, by decide⟩]
  · rintro ⟨k, hk, rfl⟩
    revert k
    decide

/-- Inside a group the next mask is again a token mask, with one token less to come. -/
theorem shiftMask_inside {m : BitVec 9} (hm : isTokenMask m = true) (h : isNewGroup (shiftMask m) = false) :
    isTokenMask (shiftMask m) = true ∧ m ≠ 0x080 ∧ tokensLeft m = tokensLeft (shiftMask m) + 1 ∧
      (shiftMask m).toNat = 2 * m.toNat := by
  obtain ⟨k, hk, rfl⟩ := (isTokenMask_iff m).mp hm
  revert k
  decide

/-- With the current token's bit added, the copy-map bits still end at the current token. -/
theorem or_maskBits_lt {m : BitVec 9} {v : Byte} (hm : isTokenMask m = true) (hv : v.toNat < m.toNat) :
    (v ||| maskBits m).toNat < 2 * m.toNat := by
  obtain ⟨k, hk, rfl⟩ := (isTokenMask_iff m).mp hm
  have hpow : ∀ j < 8, (1#9 <<< j).toNat = 2 ^ j ∧ (maskBits (1#9 <<< j)).toNat = 2 ^ j := by decide
  obtain ⟨hmask, hbits⟩ := hpow k hk
  rw [hmask] at hv ⊢
  rw [BitVec.toNat_or, hbits, ← Nat.pow_succ']
  exact Nat.or_lt_two_pow (by rw [Nat.pow_succ]; omega) (Nat.pow_lt_pow_right (by omega) (by omega))

/-! ### The frame step (41 R140 to R142) -/

/-- The encoder after a frame step that did not fall back: token 0 of a new group whose copy-map byte is written at
the cursor, or the next token of the open group. -/
def framed (e : Enc) : Enc :=
  if isNewGroup (shiftMask e.cmask) then
    { e with cmask := 0x001, mapaddr := e.dpos, mapval := 0, dst := cellWrite e.dst e.dpos.toNat 0
             dpos := wordOf (e.dpos.toNat + 1) }
  else { e with cmask := shiftMask e.cmask }

theorem framed_boundary {e : Enc} (h : isNewGroup (shiftMask e.cmask) = true) :
    framed e = { e with cmask := 0x001, mapaddr := e.dpos, mapval := 0, dst := cellWrite e.dst e.dpos.toNat 0
                        dpos := wordOf (e.dpos.toNat + 1) } := by
  simp [framed, h]

theorem framed_inside {e : Enc} (h : isNewGroup (shiftMask e.cmask) = false) :
    framed e = { e with cmask := shiftMask e.cmask } := by
  simp [framed, h]

@[simp] theorem framed_mode (e : Enc) : (framed e).mode = e.mode := by unfold framed; split <;> rfl

@[simp] theorem framed_fallback (e : Enc) : (framed e).fallback = e.fallback := by unfold framed; split <;> rfl

@[simp] theorem framed_result (e : Enc) : (framed e).result = e.result := by unfold framed; split <;> rfl

@[simp] theorem framed_slen (e : Enc) : (framed e).slen = e.slen := by unfold framed; split <;> rfl

@[simp] theorem framed_dlen (e : Enc) : (framed e).dlen = e.dlen := by unfold framed; split <;> rfl

@[simp] theorem framed_spos (e : Enc) : (framed e).spos = e.spos := by unfold framed; split <;> rfl

@[simp] theorem framed_table (e : Enc) : (framed e).table = e.table := by unfold framed; split <;> rfl

@[simp] theorem framed_src (e : Enc) : (framed e).src = e.src := by unfold framed; split <;> rfl

@[simp] theorem framed_w (e : Enc) : (framed e).w = e.w := by unfold framed; split <;> rfl

/-- A group without headroom falls back with the shifted mask and nothing written (41 R141, R142). -/
theorem frameOp_of_no_headroom {e : Enc} (hg : isNewGroup (shiftMask e.cmask) = true)
    (hr : e.dlen.toNat ≤ e.dpos.toNat + 17) : frameOp e = .ok (fallbackEnc { e with cmask := 0x100 }) := by
  have hh : headroomOp { e with cmask := shiftMask e.cmask } =
      .ok (fallbackEnc { e with cmask := shiftMask e.cmask }) :=
    headroomOp_eq_ok.mpr (.inl ⟨hr, rfl⟩)
  simp only [frameOp, hg, if_true, hh, ok_bind]
  rw [whenEnc_not_busy (by simp), shiftMask_of_newGroup hg]

/-- Otherwise the frame step answers `framed`. -/
theorem frameOp_of_headroom {e : Enc} (ha : encActive e)
    (hr : isNewGroup (shiftMask e.cmask) = true → e.dpos.toNat + 17 < e.dlen.toNat) : frameOp e = .ok (framed e) := by
  cases hg : isNewGroup (shiftMask e.cmask) with
  | false => simp [frameOp, hg, framed_inside hg]
  | true =>
    have hroom := hr hg
    have hh : headroomOp { e with cmask := shiftMask e.cmask } = .ok { e with cmask := shiftMask e.cmask } :=
      headroomOp_eq_ok.mpr (.inr ⟨hroom, rfl⟩)
    simp only [frameOp, hg, if_true, hh, ok_bind, framed_boundary hg]
    exact (whenEnc_active (e := { e with cmask := shiftMask e.cmask }) ha.1 ha.2).trans
      (mapallocOp_eq_ok.mpr ⟨by simp only; omega, rfl⟩)

/-! ### The token (42 R158 parts 2 to 5) -/

theorem hash3Op_eq_ok {e e' : Enc} :
    hash3Op e = .ok e' ↔ e.spos.toNat + 2 < e.slen.toNat ∧
      e' = { e with w := { e.w with h := hash3 (cellRead e.src e.spos.toNat) (cellRead e.src (e.spos.toNat + 1))
                                          (cellRead e.src (e.spos.toNat + 2)) } } := by
  simp only [hash3Op, bind_eq_ok, readEsrc_eq_ok, pure_eq_ok, Except.ok.injEq]
  constructor
  · rintro ⟨_, ⟨-, rfl⟩, _, ⟨-, rfl⟩, _, ⟨h, rfl⟩, rfl⟩
    exact ⟨h, rfl⟩
  · rintro ⟨h, rfl⟩
    exact ⟨_, ⟨by omega, rfl⟩, _, ⟨by omega, rfl⟩, _, ⟨h, rfl⟩, rfl⟩

/-- The comparison drives one wire. -/
theorem cmp3Op_frame {e e' : Enc} (h : cmp3Op e = .ok e') : ∃ b, e' = { e with w := { e.w with eq3 := b } } := by
  unfold cmp3Op at h
  split at h
  · simp only [bind_eq_ok, pure_eq_ok, Except.ok.injEq] at h
    obtain ⟨_, -, _, -, _, -, _, -, _, -, _, -, rfl⟩ := h
    exact ⟨_, rfl⟩
  · cases h
    exact ⟨e.w.eq3, rfl⟩

/-- The match finder drives wires and records the cursor in one entry of the table (40 R123). -/
theorem findOp_frame {e e' : Enc} (h : findOp e = .ok e') :
    ∃ (w : EncWires) (i : OffField), e' = { e with w := w, table := cellWrite e.table i.toNat e.spos } := by
  simp only [findOp, tindexOp, tlookupOp, offsetOp, candOp, acceptOp, ok_bind, bind_eq_ok, Except.ok.injEq] at h
  obtain ⟨e1, hhash, e2, hcmp, rfl⟩ := h
  obtain ⟨-, rfl⟩ := hash3Op_eq_ok.mp hhash
  obtain ⟨b, rfl⟩ := cmp3Op_frame hcmp
  exact ⟨_, _, rfl⟩

/-- The extender drives one wire. -/
theorem extendOp_frame {e e' : Enc} (h : extendOp e = .ok e') : ∃ l, e' = { e with w := { e.w with len := l } } := by
  simp only [extendOp, bind_eq_ok, pure_eq_ok, Except.ok.injEq] at h
  obtain ⟨m, -, rfl⟩ := h
  exact ⟨_, rfl⟩

/-- The table after a token: as it was where the tail guard bypasses the lookup, else with the cursor recorded. -/
def TokenTable (e : Enc) (t : Table) : Prop := t = e.table ∨ ∃ i : OffField, t = cellWrite e.table i.toNat e.spos

/-- The encoder after a literal token, with these wires and this table. -/
def litToken (e : Enc) (w : EncWires) (t : Table) : Enc :=
  { e with w := w, table := t, dst := cellWrite e.dst e.dpos.toNat (cellRead e.src e.spos.toNat)
           dpos := wordOf (e.dpos.toNat + 1), spos := wordOf (e.spos.toNat + 1) }

/-- The encoder after a match token, with these wires and this table: the copy-map bit is set first (41 R143). -/
def matchToken (e : Enc) (w : EncWires) (t : Table) : Enc :=
  { e with
    w := w, table := t, mapval := e.mapval ||| maskBits e.cmask
    dst := cellWrite (cellWrite (cellWrite e.dst e.mapaddr.toNat (e.mapval ||| maskBits e.cmask))
      e.dpos.toNat (byte0Of w.len w.off)) (e.dpos.toNat + 1) (byte1Of w.off)
    dpos := wordOf (e.dpos.toNat + 2), spos := wordOf (e.spos.toNat + mlenOf w.len) }

@[simp] theorem litToken_dlen (e : Enc) (w : EncWires) (t : Table) : (litToken e w t).dlen = e.dlen := rfl

@[simp] theorem litToken_cmask (e : Enc) (w : EncWires) (t : Table) : (litToken e w t).cmask = e.cmask := rfl

@[simp] theorem litToken_mapaddr (e : Enc) (w : EncWires) (t : Table) : (litToken e w t).mapaddr = e.mapaddr := rfl

@[simp] theorem litToken_mapval (e : Enc) (w : EncWires) (t : Table) : (litToken e w t).mapval = e.mapval := rfl

@[simp] theorem matchToken_dlen (e : Enc) (w : EncWires) (t : Table) : (matchToken e w t).dlen = e.dlen := rfl

@[simp] theorem matchToken_cmask (e : Enc) (w : EncWires) (t : Table) : (matchToken e w t).cmask = e.cmask := rfl

@[simp] theorem matchToken_mapaddr (e : Enc) (w : EncWires) (t : Table) : (matchToken e w t).mapaddr = e.mapaddr := rfl

@[simp] theorem matchToken_mapval (e : Enc) (w : EncWires) (t : Table) :
    (matchToken e w t).mapval = e.mapval ||| maskBits e.cmask := rfl

/-- A token is a literal of one byte or a match of two, and stays inside both buffers. -/
theorem tokenOp_cases {e e' : Enc} (h : tokenOp e = .ok e') :
    ∃ (w : EncWires) (t : Table), TokenTable e t ∧
      ((e.spos.toNat + 1 ≤ e.slen.toNat ∧ e.dpos.toNat + 1 ≤ e.dlen.toNat ∧ e' = litToken e w t) ∨
       (e.spos.toNat + mlenOf w.len ≤ e.slen.toNat ∧ e.dpos.toNat + 2 ≤ e.dlen.toNat ∧ e' = matchToken e w t)) := by
  simp only [tokenOp, tailguardOp, ok_bind] at h
  split at h
  case isTrue =>
    obtain ⟨hs, hd, rfl⟩ := emitLitOp_eq_ok.mp h
    exact ⟨_, e.table, .inl rfl, .inl ⟨hs, hd, rfl⟩⟩
  case isFalse =>
    obtain ⟨e1, hfind, h⟩ := bind_eq_ok.mp h
    obtain ⟨w, i, rfl⟩ := findOp_frame hfind
    split at h
    case isTrue =>
      simp only [bind_eq_ok] at h
      obtain ⟨e2, hset, e3, hext, hemit⟩ := h
      obtain ⟨-, rfl⟩ := setbitOp_eq_ok.mp hset
      obtain ⟨l, rfl⟩ := extendOp_frame hext
      obtain ⟨hd, hs, rfl⟩ := emitMatchOp_eq_ok.mp hemit
      exact ⟨_, _, .inr ⟨i, rfl⟩, .inr ⟨hs, hd, rfl⟩⟩
    case isFalse =>
      obtain ⟨hs, hd, rfl⟩ := emitLitOp_eq_ok.mp h
      exact ⟨_, _, .inr ⟨i, rfl⟩, .inl ⟨hs, hd, rfl⟩⟩

/-! ### The whole token step -/

/-- A token step of an active encoder falls back at a boundary without headroom, or frames and emits a token. -/
theorem encStepOp_cases {e e' : Enc} (ha : encActive e) (h : encStepOp e = .ok e') :
    (isNewGroup (shiftMask e.cmask) = true ∧ e.dlen.toNat ≤ e.dpos.toNat + 17 ∧
      e' = clearEncWires (fallbackEnc { e with cmask := 0x100 })) ∨
    ((isNewGroup (shiftMask e.cmask) = true → e.dpos.toNat + 17 < e.dlen.toNat) ∧
      ∃ e1, tokenOp (framed e) = .ok e1 ∧ e' = clearEncWires (finishEncIfEnd e1)) := by
  by_cases hf : isNewGroup (shiftMask e.cmask) = true ∧ e.dlen.toNat ≤ e.dpos.toNat + 17
  · obtain ⟨hg, hr⟩ := hf
    refine .inl ⟨hg, hr, ?_⟩
    simpa [encStepOp, frameOp_of_no_headroom hg hr, eq_comm] using h
  · have hr : isNewGroup (shiftMask e.cmask) = true → e.dpos.toNat + 17 < e.dlen.toNat := fun hg => by
      by_contra hlt
      exact hf ⟨hg, by omega⟩
    refine .inr ⟨hr, ?_⟩
    simp only [encStepOp, frameOp_of_headroom ha hr, ok_bind, framed_mode, ha.1, if_true, bind_eq_ok, pure_eq_ok,
      Except.ok.injEq] at h
    obtain ⟨e1, ht, rfl⟩ := h
    exact ⟨e1, ht, rfl⟩

theorem exec_eFrame (s : State) : exec .eFrame s = onEnc (whenEnc frameOp) s := rfl

theorem exec_eStep (s : State) : exec .eStep s = onEnc (whenEnc encStepOp) s := rfl

/-- Settles O38, from the frame step's two equations. -/
theorem frameStep : Obligations.FrameStep := by
  intro s ha
  rw [exec_eFrame]
  refine ⟨fun hm => ?inside, fun hm hr => ?fallback, fun hm hr => ?opens⟩
  case inside =>
    have hg := (isNewGroup_shiftMask_eq_false _).mpr hm
    have hf := frameOp_of_headroom ha (by simp [hg])
    rw [framed_inside hg] at hf
    exact onEnc_of_ok ((whenEnc_active ha.1 ha.2).trans hf)
  case fallback =>
    have hg := (isNewGroup_shiftMask _).mpr hm
    exact onEnc_of_ok ((whenEnc_active ha.1 ha.2).trans (frameOp_of_no_headroom hg (by omega)))
  case opens =>
    have hg := (isNewGroup_shiftMask _).mpr hm
    have hf := frameOp_of_headroom ha (fun _ => by omega)
    rw [framed_boundary hg] at hf
    exact ⟨_, onEnc_of_ok ((whenEnc_active ha.1 ha.2).trans hf), rfl,
      wordOf_toNat_of_le (w := s.enc.dlen) (by omega), fun a => cellRead_write s.enc.dst _ a 0⟩

end Sys2Proof.Machine
end

section
/-! PROOFS. The encoder's invariant and the copy-map shadow through a token step. -/

namespace Sys2Proof.Machine

/-! ### The invariant inside a token step -/

/-- The encoder inside a token step of a call, with `n` bytes of `EDST` still kept for the current token besides the
room of the tokens after it (41 R144). -/
structure EncMid (n : Nat) (e : Enc) : Prop where
  srcWf : Memory.wf e.src = true
  dstWf : Memory.wf e.dst = true
  tableWf : Table.wf e.table = true
  busy : e.mode = .busy
  busyResult : e.result = 0 ∧ e.fallback = false
  cursor : e.spos.toNat ≤ e.slen.toNat
  mask : isTokenMask e.cmask = true
  room : e.dpos.toNat + n + 2 * tokensLeft e.cmask ≤ e.dlen.toNat
  mapBelow : e.mapaddr.toNat < e.dpos.toNat

/-- A write at an encoder position keeps a memory space canonical. -/
theorem Memory.wf_write_word {m : Mem} (a : Word) (b : Byte) (h : Memory.wf m = true) :
    Memory.wf (cellWrite m a.toNat b) = true :=
  Memory.wf_write _ _ _ a.isLt h

/-- A write below a length keeps a memory space canonical. -/
theorem Memory.wf_write_below {m : Mem} {a : Nat} {n : Word} (b : Byte) (ha : a < n.toNat) (h : Memory.wf m = true) :
    Memory.wf (cellWrite m a b) = true :=
  Memory.wf_write _ _ _ (lt_trans ha n.isLt) h

/-- The frame step keeps the two bytes of the token, in an open group and in a new one. -/
theorem EncInv.frame {e : Enc} (hi : EncInv e) (hb : e.mode = .busy)
    (hr : isNewGroup (shiftMask e.cmask) = true → e.dpos.toNat + 17 < e.dlen.toNat) : EncMid 2 (framed e) := by
  have hroom := hi.room hb
  have hcur := hi.cursor hb
  cases hg : isNewGroup (shiftMask e.cmask) with
  | false =>
    obtain ⟨hmask, hne, hleft, -⟩ := shiftMask_inside (hi.mask hb) hg
    rw [framed_inside hg]
    exact { srcWf := hi.srcWf, dstWf := hi.dstWf, tableWf := hi.tableWf, busy := hb, busyResult := hi.busyResult hb
            cursor := hcur.le, mask := hmask, room := by simp only; omega, mapBelow := hi.mapBelow hb hne }
  | true =>
    have hlt := hr hg
    have hd : (wordOf (e.dpos.toNat + 1)).toNat = e.dpos.toNat + 1 := wordOf_toNat_of_le (w := e.dlen) (by omega)
    have hleft : tokensLeft 0x001 = 7 := rfl
    rw [framed_boundary hg]
    exact { srcWf := hi.srcWf, dstWf := Memory.wf_write_word e.dpos 0 hi.dstWf, tableWf := hi.tableWf, busy := hb
            busyResult := hi.busyResult hb, cursor := hcur.le, mask := rfl
            room := by simp only [hd, hleft]; omega, mapBelow := by simp only [hd]; omega }

theorem TokenTable.wf {e : Enc} {t : Table} (ht : TokenTable e t) (h : Table.wf e.table = true) :
    Table.wf t = true := by
  rcases ht with rfl | ⟨i, rfl⟩
  · exact h
  · exact Table.wf_write _ _ _ h

/-- The token uses at most the two bytes kept for it. -/
theorem EncMid.token {e e' : Enc} (hi : EncMid 2 e) (h : tokenOp e = .ok e') : EncMid 0 e' := by
  have hroom := hi.room
  have hmap := hi.mapBelow
  obtain ⟨w, t, ht, hcase⟩ := tokenOp_cases h
  have htable := ht.wf hi.tableWf
  rcases hcase with ⟨hs, hd, rfl⟩ | ⟨hs, hd, rfl⟩
  · have hpos : (litToken e w t).dpos.toNat = e.dpos.toNat + 1 := wordOf_toNat_of_le hd
    have hcur : (litToken e w t).spos.toNat = e.spos.toNat + 1 := wordOf_toNat_of_le hs
    exact { srcWf := hi.srcWf, dstWf := Memory.wf_write_word e.dpos _ hi.dstWf, tableWf := htable, busy := hi.busy
            busyResult := hi.busyResult, cursor := by rw [hcur]; exact hs, mask := hi.mask
            room := by simp only [hpos, litToken_cmask, litToken_dlen]; omega
            mapBelow := by simp only [hpos, litToken_mapaddr]; omega }
  · have hpos : (matchToken e w t).dpos.toNat = e.dpos.toNat + 2 := wordOf_toNat_of_le hd
    have hcur : (matchToken e w t).spos.toNat = e.spos.toNat + mlenOf w.len := wordOf_toNat_of_le hs
    have hwf := Memory.wf_write_word e.dpos (byte0Of w.len w.off)
      (Memory.wf_write_word e.mapaddr (e.mapval ||| maskBits e.cmask) hi.dstWf)
    exact { srcWf := hi.srcWf, dstWf := Memory.wf_write_below (n := e.dlen) _ hd hwf, tableWf := htable, busy := hi.busy
            busyResult := hi.busyResult, cursor := by rw [hcur]; exact hs, mask := hi.mask
            room := by simp only [hpos, matchToken_cmask, matchToken_dlen]; omega
            mapBelow := by simp only [hpos, matchToken_mapaddr]; omega }

/-- Outside a call only the canonical form, the wires and the results in IDLE are asked for. -/
theorem EncInv.of_not_busy {e : Enc} (hs : Memory.wf e.src = true) (hd : Memory.wf e.dst = true)
    (ht : Table.wf e.table = true) (hw : e.w = .none) (hb : e.mode ≠ .busy)
    (hidle : e.mode = .idle → e.result = 0 ∧ e.fallback = false) : EncInv e :=
  { srcWf := hs, dstWf := hd, tableWf := ht, wires := hw, idle := hidle
    busyResult := fun h => absurd h hb, cursor := fun h => absurd h hb, mask := fun h => absurd h hb
    room := fun h => absurd h hb, mapBelow := fun h => absurd h hb }

/-- The end of a token step gives the invariant between steps back: with the source used up the call is over. -/
theorem EncMid.finish {e : Enc} (hi : EncMid 0 e) : EncInv (clearEncWires (finishEncIfEnd e)) := by
  unfold finishEncIfEnd
  split
  case isTrue => exact .of_not_busy hi.srcWf hi.dstWf hi.tableWf rfl (by simp) (by simp)
  case isFalse hne =>
    have hne' : e.spos.toNat ≠ e.slen.toNat := fun h => hne (BitVec.eq_of_toNat_eq h)
    exact { srcWf := hi.srcWf, dstWf := hi.dstWf, tableWf := hi.tableWf, wires := rfl, idle := fun _ => hi.busyResult
            busyResult := fun _ => hi.busyResult, cursor := fun _ => lt_of_le_of_ne hi.cursor hne'
            mask := fun _ => hi.mask, room := fun _ => hi.room, mapBelow := fun _ _ => hi.mapBelow }

/-- A token step of the encoder that answers keeps the invariant. -/
theorem encStepOp_keeps_inv {e e' : Enc} (hi : EncInv e) (h : whenEnc encStepOp e = .ok e') : EncInv e' := by
  rcases whenEnc_eq_ok.mp h with ⟨-, rfl⟩ | ⟨hb, hs, h⟩
  · exact hi
  rcases encStepOp_cases ⟨hb, hs⟩ h with ⟨-, -, rfl⟩ | ⟨hr, e1, htok, rfl⟩
  · exact .of_not_busy hi.srcWf hi.dstWf hi.tableWf rfl (by simp) (by simp)
  · exact ((hi.frame hb hr).token htok).finish

/-! ### The copy-map byte and its shadow (41 R143, R145) -/

/-- The copy-map byte below the cursor equals its shadow, which has no bit from `bound` on. -/
structure MapShadow (bound : Nat) (e : Enc) : Prop where
  below : e.mapaddr.toNat < e.dpos.toNat
  byte : cellRead e.dst e.mapaddr.toNat = e.mapval
  bits : e.mapval.toNat < bound

/-- After the frame step the current token's bit is not set yet: the shadow moved under the mask or is fresh. -/
theorem framed_mapShadow {e : Enc} (hi : EncInv e) (hb : e.mode = .busy)
    (hr : isNewGroup (shiftMask e.cmask) = true → e.dpos.toNat + 17 < e.dlen.toNat)
    (hshadow : e.cmask ≠ 0x080 →
      cellRead e.dst e.mapaddr.toNat = e.mapval ∧ e.mapval.toNat < 2 * e.cmask.toNat) :
    MapShadow (framed e).cmask.toNat (framed e) := by
  have hbelow := (hi.frame hb hr).mapBelow
  cases hg : isNewGroup (shiftMask e.cmask) with
  | false =>
    obtain ⟨-, hne, -, htwice⟩ := shiftMask_inside (hi.mask hb) hg
    obtain ⟨hbyte, hbits⟩ := hshadow hne
    rw [framed_inside hg] at hbelow ⊢
    exact ⟨hbelow, hbyte, by simp only [htwice]; exact hbits⟩
  | true =>
    rw [framed_boundary hg] at hbelow ⊢
    exact ⟨hbelow, by simp, by simp⟩

/-- A token leaves byte and shadow equal: a literal touches neither, a match sets its bit in both. -/
theorem MapShadow.token {e e' : Enc} (hm : isTokenMask e.cmask = true) (hi : MapShadow e.cmask.toNat e)
    (h : tokenOp e = .ok e') :
    cellRead e'.dst e'.mapaddr.toNat = e'.mapval ∧ e'.mapval.toNat < 2 * e'.cmask.toNat := by
  obtain ⟨hbelow, hbyte, hbits⟩ := hi
  obtain ⟨w, t, -, ⟨-, -, rfl⟩ | ⟨-, -, rfl⟩⟩ := tokenOp_cases h
  · refine ⟨?_, by simp only [litToken_mapval, litToken_cmask]; omega⟩
    simp only [litToken, cellRead_write]
    rw [if_neg (by omega), hbyte]
  · refine ⟨?_, or_maskBits_lt hm hbits⟩
    simp only [matchToken, cellRead_write]
    rw [if_neg (by omega), if_neg (by omega), if_pos trivial]

@[simp] theorem finishEncIfEnd_dst (e : Enc) : (finishEncIfEnd e).dst = e.dst := by unfold finishEncIfEnd; split <;> rfl

@[simp] theorem finishEncIfEnd_mapaddr (e : Enc) : (finishEncIfEnd e).mapaddr = e.mapaddr := by
  unfold finishEncIfEnd; split <;> rfl

@[simp] theorem finishEncIfEnd_mapval (e : Enc) : (finishEncIfEnd e).mapval = e.mapval := by
  unfold finishEncIfEnd; split <;> rfl

@[simp] theorem finishEncIfEnd_cmask (e : Enc) : (finishEncIfEnd e).cmask = e.cmask := by
  unfold finishEncIfEnd; split <;> rfl

/-- Settles O15: the frame step opens or moves the shadow, the token keeps it, the end of the step touches nothing. -/
theorem copyMapByteIsShadow : Obligations.CopyMapByteIsShadow := by
  intro s t hi hb hshadow hstep hnf
  rw [exec_eStep] at hstep
  obtain ⟨e', hop, rfl⟩ := onEnc_eq_next.mp hstep
  rw [whenEnc_active hb (hi.cursor hb)] at hop
  rcases encStepOp_cases ⟨hb, hi.cursor hb⟩ hop with ⟨-, -, rfl⟩ | ⟨hr, e1, htok, rfl⟩
  · simp at hnf
  · simpa using (framed_mapShadow hi hb hr hshadow).token (hi.frame hb hr).mask htok

end Sys2Proof.Machine
end

section
/-! PROOFS. What the decoder fetches and runs, and its invariant through a token step. -/

namespace Sys2Proof.Machine

/-! ### The element at the stream cursor (43 R180, R183, R184; 30 R97) -/

theorem fetchElement_map {d : Dec} (h : d.spos.toNat < d.slen.toNat) :
    fetchElement .map d = .ok (.map (cellRead d.src d.spos.toNat)) := by
  unfold fetchElement fetchWindow
  by_cases h2 : d.spos.toNat + 1 < d.slen.toNat <;> simp [h, h2, decodeElement]

theorem fetchElement_lit {d : Dec} (h : d.spos.toNat < d.slen.toNat) :
    fetchElement .lit d = .ok (.lit (cellRead d.src d.spos.toNat)) := by
  unfold fetchElement fetchWindow
  by_cases h2 : d.spos.toNat + 1 < d.slen.toNat <;> simp [h, h2, decodeElement]

theorem fetchElement_mat {d : Dec} (h : d.spos.toNat + 1 < d.slen.toNat) :
    fetchElement .mat d =
      .ok (decodeMatch (cellRead d.src d.spos.toNat) (cellRead d.src (d.spos.toNat + 1))) := by
  simp [fetchElement, fetchWindow, h, decodeElement]

theorem fetchElement_mat_truncated {d : Dec} (h : d.spos.toNat < d.slen.toNat)
    (h2 : d.slen.toNat ≤ d.spos.toNat + 1) : fetchElement .mat d = .error .truncatedMatch := by
  have h2' : ¬ d.spos.toNat + 1 < d.slen.toNat := by omega
  simp [fetchElement, fetchWindow, h, h2', decodeElement]

/-- Running two fetched bytes as a match is the match of their fields, the reserved row included (30 R99). -/
theorem elementOp_decodeMatch (b0 b1 : Byte) (d : Dec) :
    elementOp (decodeMatch b0 b1) d = matchOp (lenOfByte0 b0) (offOfBytes b0 b1) d := by
  unfold decodeMatch
  split
  case isTrue h => rw [h]; rfl
  case isFalse => rfl

theorem decLitOp_active {d : Dec} (h : d.spos.toNat < d.slen.toNat) :
    decLitOp d = litOp (cellRead d.src d.spos.toNat) d := by
  rw [decLitOp, fetchElement_lit h]; rfl

theorem decMatchOp_whole {d : Dec} (h : d.spos.toNat + 1 < d.slen.toNat) :
    decMatchOp d = matchOp (lenOfByte0 (cellRead d.src d.spos.toNat))
      (offOfBytes (cellRead d.src d.spos.toNat) (cellRead d.src (d.spos.toNat + 1))) d := by
  rw [decMatchOp, fetchElement_mat h]; exact elementOp_decodeMatch _ _ d

theorem decMatchOp_truncated {d : Dec} (h : d.spos.toNat < d.slen.toNat) (h2 : d.slen.toNat ≤ d.spos.toNat + 1) :
    decMatchOp d = .ok (raiseDec .badData d) := by
  rw [decMatchOp, fetchElement_mat_truncated h h2]

theorem decFrameOp_inside {d : Dec} (hg : isNewGroup (shiftMask d.cmask) = false) :
    decFrameOp d = .ok { d with cmask := shiftMask d.cmask } := by
  simp [decFrameOp, hg]

/-- At a boundary the frame step is the map element of the byte at the cursor. -/
theorem decFrameOp_boundary {d : Dec} (hg : isNewGroup (shiftMask d.cmask) = true)
    (h : d.spos.toNat < d.slen.toNat) : decFrameOp d = mapOp (cellRead d.src d.spos.toNat) d := by
  have hfetch := fetchElement_map (d := { d with cmask := shiftMask d.cmask }) h
  simp only [decFrameOp, hg, if_true, hfetch]
  rfl

/-- The decoder with the copy-map bit of its token on the wire (43 R182). -/
def selected (d : Dec) : Dec := { d with w := { d.w with ismatch := mapBit d.cmap d.cmask } }

/-- A token step frames and, if the call goes on, runs the token its copy-map bit selects and the end test (43 R191). -/
theorem decStepOp_cases {d d' : Dec} (h : decStepOp d = .ok d') :
    ∃ d1, decFrameOp d = .ok d1 ∧
      ((d1.mode ≠ .busy ∧ d' = clearDecWires d1) ∨
       (d1.mode = .busy ∧ ∃ d2,
          (if mapBit d1.cmap d1.cmask then decMatchOp (selected d1) else decLitOp (selected d1)) = .ok d2 ∧
          d' = clearDecWires (finishDecIfEnd d2))) := by
  obtain ⟨d1, hframe, h⟩ := bind_eq_ok.mp h
  refine ⟨d1, hframe, ?_⟩
  split at h
  case isFalse hb => exact .inl ⟨hb, by simpa [eq_comm] using h⟩
  case isTrue hb =>
    have hsel : selectOp d1 = .ok (selected d1) := rfl
    rw [hsel, ok_bind] at h
    refine .inr ⟨hb, ?_⟩
    split at h
    case isTrue hm =>
      obtain ⟨d2, htok, h⟩ := bind_eq_ok.mp h
      exact ⟨d2, (if_pos hm).trans htok, (Except.ok.inj h).symm⟩
    case isFalse hm =>
      obtain ⟨d2, htok, h⟩ := bind_eq_ok.mp h
      exact ⟨d2, (if_neg hm).trans htok, (Except.ok.inj h).symm⟩

/-! ### The invariant inside a token step -/

/-- The decoder inside a token step: its invariant, with the cursor possibly at the end of the stream and the wires
driven. -/
structure DecMid (d : Dec) : Prop where
  srcWf : Memory.wf d.src = true
  dstWf : Memory.wf d.dst = true
  idle : d.mode = .idle → d.count = 0 ∧ d.code = .ok
  busyResult : d.mode = .busy → d.count = 0 ∧ d.code = .ok
  failCount : d.code ≠ .ok → d.count = 0
  cursor : d.mode = .busy → d.spos.toNat ≤ d.slen.toNat
  mask : d.mode = .busy → isTokenMask d.cmask = true
  room : d.mode = .busy → d.dpos.toNat ≤ d.dcap.toNat

theorem DecInv.mid {d : Dec} (hi : DecInv d) : DecMid d :=
  { srcWf := hi.srcWf, dstWf := hi.dstWf, idle := hi.idle, busyResult := hi.busyResult, failCount := hi.failCount
    cursor := fun hb => (hi.cursor hb).le, mask := hi.mask, room := hi.room }

/-- Outside a call only the canonical form and the results are asked for. -/
theorem DecMid.of_not_busy {d : Dec} (hs : Memory.wf d.src = true) (hd : Memory.wf d.dst = true)
    (hb : d.mode ≠ .busy) (hidle : d.mode = .idle → d.count = 0 ∧ d.code = .ok)
    (hfail : d.code ≠ .ok → d.count = 0) : DecMid d :=
  { srcWf := hs, dstWf := hd, idle := hidle, failCount := hfail, busyResult := fun h => absurd h hb
    cursor := fun h => absurd h hb, mask := fun h => absurd h hb, room := fun h => absurd h hb }

/-- An abort of a call leaves the count at 0 (60 R238). -/
theorem DecMid.raise {d : Dec} (hi : DecMid d) (hb : d.mode = .busy) (c : Code) : DecMid (raiseDec c d) :=
  .of_not_busy hi.srcWf hi.dstWf (by simp) (by simp) (fun _ => (hi.busyResult hb).1)

theorem DecMid.finishIfEnd {d : Dec} (hi : DecMid d) : DecMid (finishDecIfEnd d) := by
  unfold finishDecIfEnd
  split
  case isTrue => exact .of_not_busy hi.srcWf hi.dstWf (by simp) (by simp) (by simp)
  case isFalse => exact hi

/-- After the end test a call that goes on has stream bytes left. -/
theorem DecMid.cursor_finishDecIfEnd {d : Dec} (hi : DecMid d) (hb : (finishDecIfEnd d).mode = .busy) :
    (finishDecIfEnd d).spos.toNat < (finishDecIfEnd d).slen.toNat := by
  unfold finishDecIfEnd at hb ⊢
  split at hb
  case isTrue => simp at hb
  case isFalse hne =>
    rw [if_neg hne]
    exact lt_of_le_of_ne (hi.cursor hb) fun h => hne ⟨hb, BitVec.eq_of_toNat_eq h⟩

/-- Letting the wires go gives the invariant between steps back. -/
theorem DecMid.clearWires {d : Dec} (hi : DecMid d) (hc : d.mode = .busy → d.spos.toNat < d.slen.toNat) :
    DecInv (clearDecWires d) :=
  { srcWf := hi.srcWf, dstWf := hi.dstWf, wires := rfl, idle := hi.idle, busyResult := hi.busyResult
    failCount := hi.failCount, cursor := hc, mask := hi.mask, room := hi.room }

/-- The map element leaves a call in which a token follows, or one that has ended. -/
theorem DecMid.map {d d' : Dec} {bits : Byte} (hi : DecMid d) (h : mapOp bits d = .ok d') :
    DecMid d' ∧ (d'.mode = .busy → d'.spos.toNat < d'.slen.toNat) := by
  obtain ⟨hs, rfl⟩ := mapOp_eq_ok.mp h
  have hcur : (wordOf (d.spos.toNat + 1)).toNat = d.spos.toNat + 1 := wordOf_toNat_of_le hs
  have hmid : DecMid { d with cmask := 0x001, cmap := bits, spos := wordOf (d.spos.toNat + 1) } :=
    { hi with cursor := fun _ => by simp only [hcur]; exact hs, mask := fun _ => rfl }
  exact ⟨hmid.finishIfEnd, hmid.cursor_finishDecIfEnd⟩

theorem DecMid.lit {d d' : Dec} {b : Byte} (hi : DecMid d) (hb : d.mode = .busy) (h : litOp b d = .ok d') :
    DecMid d' := by
  rcases litOp_eq_ok.mp h with ⟨-, rfl⟩ | ⟨hd, hs, rfl⟩
  · exact hi.raise hb _
  · have hcur : (wordOf (d.spos.toNat + 1)).toNat = d.spos.toNat + 1 := wordOf_toNat_of_le hs
    have hpos : (wordOf (d.dpos.toNat + 1)).toNat = d.dpos.toNat + 1 := wordOf_toNat_of_le (w := d.dcap) hd
    exact { hi with
      dstWf := Memory.wf_write_word d.dpos b hi.dstWf
      cursor := fun _ => by simp only [hcur]; exact hs
      room := fun _ => by simp only [hpos]; exact hd }

/-- The replay stores inside the space and so keeps it canonical. -/
theorem replayFrom_dst_wf {off : Nat} : ∀ {n : Nat} {d d' : Dec}, replayFrom off n d = .ok d' →
    Memory.wf d.dst = true → Memory.wf d'.dst = true
  | 0, d, d', h, hwf => by
    simp only [replayFrom, Except.ok.injEq] at h
    exact h ▸ hwf
  | n + 1, d, d', h, hwf => by
    simp only [replayFrom, bind_eq_ok, pushDdst_eq_ok] at h
    obtain ⟨v, -, d1, ⟨-, rfl⟩, h⟩ := h
    exact replayFrom_dst_wf h (Memory.wf_write_word d.dpos v hwf)

theorem DecMid.matchTok {d d' : Dec} {len : LenField} {off : OffField} (hi : DecMid d) (hb : d.mode = .busy)
    (h : matchOp len off d = .ok d') : DecMid d' := by
  rcases matchOp_cases h with ⟨rfl, -⟩ | ⟨rfl, -⟩ | ⟨hs, -, -, hfit, hreplay⟩
  · exact hi.raise hb _
  · exact hi.raise hb _
  · have hcur : (wordOf (d.spos.toNat + 2)).toNat = d.spos.toNat + 2 := wordOf_toNat_of_le hs
    have hwf := replayFrom_dst_wf hreplay hi.dstWf
    obtain ⟨heq, hpos, -⟩ := replayFrom_eq_ok hreplay
    rw [heq]
    exact { hi with
      dstWf := hwf
      cursor := fun _ => by simp only [hcur]; exact hs
      room := fun _ => by simp only [hpos]; exact hfit }

/-- The frame step moves to the next token, or reads the map byte of a new group. -/
theorem DecMid.frame {d d' : Dec} (hi : DecMid d) (hb : d.mode = .busy) (hs : d.spos.toNat < d.slen.toNat)
    (h : decFrameOp d = .ok d') : DecMid d' ∧ (d'.mode = .busy → d'.spos.toNat < d'.slen.toNat) := by
  cases hg : isNewGroup (shiftMask d.cmask) with
  | false =>
    rw [decFrameOp_inside hg] at h
    cases h
    exact ⟨{ hi with mask := fun _ => (shiftMask_inside (hi.mask hb) hg).1 }, fun _ => hs⟩
  | true =>
    rw [decFrameOp_boundary hg hs] at h
    exact hi.map h

/-- `D.LIT` fetches the literal it runs. -/
theorem DecMid.decLit {d d' : Dec} (hi : DecMid d) (hb : d.mode = .busy) (hs : d.spos.toNat < d.slen.toNat)
    (h : decLitOp d = .ok d') : DecMid d' :=
  hi.lit hb (decLitOp_active hs ▸ h)

/-- `D.MATCH` fetches the match it runs, or aborts on one that is cut off. -/
theorem DecMid.decMatch {d d' : Dec} (hi : DecMid d) (hb : d.mode = .busy) (hs : d.spos.toNat < d.slen.toNat)
    (h : decMatchOp d = .ok d') : DecMid d' := by
  by_cases hwhole : d.spos.toNat + 1 < d.slen.toNat
  · exact hi.matchTok hb (decMatchOp_whole hwhole ▸ h)
  · rw [decMatchOp_truncated hs (by omega)] at h
    cases h
    exact hi.raise hb _

/-- A token step of the decoder that answers keeps the invariant. -/
theorem decStepOp_keeps_inv {d d' : Dec} (hi : DecInv d) (h : whenDec decStepOp d = .ok d') : DecInv d' := by
  rcases whenDec_eq_ok.mp h with ⟨-, rfl⟩ | ⟨hb, hs, h⟩
  · exact hi
  obtain ⟨d1, hframe, hcase⟩ := decStepOp_cases h
  obtain ⟨hmid, hcur⟩ := hi.mid.frame hb hs hframe
  rcases hcase with ⟨-, rfl⟩ | ⟨hb1, d2, htok, rfl⟩
  · exact hmid.clearWires hcur
  · have hsel : DecMid (selected d1) := { hmid with }
    have hmid2 : DecMid d2 := by
      split at htok
      case isTrue => exact hsel.decMatch hb1 (hcur hb1) htok
      case isFalse => exact hsel.decLit hb1 (hcur hb1) htok
    exact hmid2.finishIfEnd.clearWires hmid2.cursor_finishDecIfEnd

end Sys2Proof.Machine
end

section
/-! PROOFS. The machine's invariant: at reset, through every host operation and through every step. -/

namespace Sys2Proof.Machine

/-! ### What the instructions run on the state -/

theorem exec_encStart (v : Word) (s : State) : exec (.encStart v) s = execEncStart v s := rfl

theorem exec_decStart (v : Word) (s : State) : exec (.decStart v) s = execDecStart v s := rfl

theorem exec_wr (reg : Nat) (v : Word) (s : State) : exec (.wr reg v) s = execWr reg v s := rfl

theorem exec_rd (reg : Nat) (s : State) : exec (.rd reg) s = execRd reg s := rfl

theorem exec_dStep (s : State) : exec .dStep s = onDec (whenDec decStepOp) s := rfl

/-! ### Reset -/

theorem encInv_resetWith {src dst : Mem} (hs : Memory.wf src = true) (hd : Memory.wf dst = true) :
    EncInv (Enc.resetWith src dst) :=
  .of_not_busy hs hd Table.wf_nil rfl (by simp) (by simp)

theorem decInv_resetWith {src dst : Mem} (hs : Memory.wf src = true) (hd : Memory.wf dst = true) :
    DecInv (Dec.resetWith src dst) :=
  (DecMid.of_not_busy (d := Dec.resetWith src dst) hs hd (by simp) (by simp) (by simp)).clearWires (by simp)

theorem inv_reset : Inv State.reset :=
  ⟨encInv_resetWith Memory.wf_nil Memory.wf_nil, decInv_resetWith Memory.wf_nil Memory.wf_nil⟩

/-- After reset every host register, and every number without one, reads 0. -/
theorem readReg_reset (reg : Nat) : readReg State.reset reg = 0 := by
  unfold readReg
  split_ifs <;> rfl

/-- Settles O8, register by register. -/
theorem resetValues : Obligations.ResetValues := by
  unfold Obligations.ResetValues
  exact ⟨rfl, rfl, rfl, rfl, rfl, rfl, rfl, rfl, rfl, rfl, rfl, rfl, rfl, rfl, rfl, rfl, rfl, rfl, rfl,
    readReg_reset, rfl, rfl⟩

/-- Settles O9: the engines are idle over canonical spaces, and every table entry reads 0. -/
theorem resetHoldsInvariant : Obligations.ResetHoldsInvariant :=
  ⟨inv_reset, fun _ => Nat.zero_le _⟩

/-! ### What the host does to an engine (44 R210 to R213; 20 R77) -/

theorem startEnc_busy {e : Enc} (h : e.mode = .busy) : startEnc e = e := by simp [startEnc, h]

theorem startDec_busy {d : Dec} (h : d.mode = .busy) : startDec d = d := by simp [startDec, h]

/-- A start command that begins a call has a source byte to begin with. -/
theorem slen_pos_of_started {slen : Word} (h : (if slen = 0 then Mode.done else .busy) = .busy) :
    (0 : Word).toNat < slen.toNat := by
  refine Nat.pos_of_ne_zero fun h0 => ?_
  rw [if_pos (BitVec.eq_of_toNat_eq h0)] at h
  cases h

/-- The start command begins a call at the first source byte with a mask before token 0, or ends an empty one. -/
theorem EncInv.start {e : Enc} (hi : EncInv e) : EncInv (startEnc e) := by
  by_cases hb : e.mode = .busy
  · rwa [startEnc_busy hb]
  have hcursor : (startEnc e).mode = .busy → (startEnc e).spos.toNat < (startEnc e).slen.toNat := fun h => by
    rw [startEnc_spos e hb, startEnc_slen e hb]
    exact slen_pos_of_started (startEnc_mode e hb ▸ h)
  have hresult := And.intro (startEnc_result e hb) (startEnc_fallback e hb)
  have hmask := startEnc_cmask e hb
  exact { srcWf := startEnc_src e hb ▸ hi.srcWf, dstWf := startEnc_dst e hb ▸ hi.dstWf
          tableWf := startEnc_table e hb ▸ Table.wf_nil, wires := startEnc_w e hb ▸ hi.wires
          idle := fun _ => hresult, busyResult := fun _ => hresult, cursor := hcursor
          mask := fun _ => hmask ▸ rfl
          room := fun _ => by rw [hmask, startEnc_dpos e hb]; exact Nat.zero_le _
          mapBelow := fun _ h => absurd hmask h }

theorem DecInv.start {d : Dec} (hi : DecInv d) : DecInv (startDec d) := by
  by_cases hb : d.mode = .busy
  · rwa [startDec_busy hb]
  have hcursor : (startDec d).mode = .busy → (startDec d).spos.toNat < (startDec d).slen.toNat := fun h => by
    rw [startDec_spos d hb, startDec_slen d hb]
    exact slen_pos_of_started (startDec_mode d hb ▸ h)
  have hresult := And.intro (startDec_count d hb) (startDec_code d hb)
  exact { srcWf := startDec_src d hb ▸ hi.srcWf, dstWf := startDec_dst d hb ▸ hi.dstWf
          wires := startDec_w d hb ▸ hi.wires, idle := fun _ => hresult, busyResult := fun _ => hresult
          failCount := fun _ => hresult.1, cursor := hcursor
          mask := fun _ => startDec_cmask d hb ▸ rfl
          room := fun _ => by rw [startDec_dpos d hb]; exact Nat.zero_le _ }

/-- Outside a call the encoder's parameters and spaces are the host's to change. -/
theorem EncInv.host_update {e : Enc} (hi : EncInv e) (hb : e.mode ≠ .busy) (slen dlen : Word) {src dst : Mem}
    (hs : Memory.wf src = true) (hd : Memory.wf dst = true) :
    EncInv { e with slen := slen, dlen := dlen, src := src, dst := dst } :=
  .of_not_busy hs hd hi.tableWf hi.wires hb hi.idle

/-- Outside a call the decoder's parameters and spaces are the host's to change. -/
theorem DecInv.host_update {d : Dec} (hi : DecInv d) (hb : d.mode ≠ .busy) (slen dcap : Word) {src dst : Mem}
    (hs : Memory.wf src = true) (hd : Memory.wf dst = true) :
    DecInv { d with slen := slen, dcap := dcap, src := src, dst := dst } :=
  { hi with
    srcWf := hs, dstWf := hd, cursor := fun h => absurd h hb, mask := fun h => absurd h hb
    room := fun h => absurd h hb }

theorem EncInv.writeReg {e : Enc} (hi : EncInv e) (reg : Nat) (v : Word) : EncInv (writeEncReg e reg v) := by
  unfold writeEncReg
  split_ifs with h0 hb h1 hb h2 hv
  · exact hi
  · exact hi.host_update hb v e.dlen hi.srcWf hi.dstWf
  · exact hi
  · exact hi.host_update hb e.slen v hi.srcWf hi.dstWf
  · exact hi.start
  · exact hi
  · exact hi

theorem DecInv.writeReg {d : Dec} (hi : DecInv d) (reg : Nat) (v : Word) : DecInv (writeDecReg d reg v) := by
  unfold writeDecReg
  split_ifs with h5 hb h6 hb h7 hv
  · exact hi
  · exact hi.host_update hb v d.dcap hi.srcWf hi.dstWf
  · exact hi
  · exact hi.host_update hb d.slen v hi.srcWf hi.dstWf
  · exact hi.start
  · exact hi
  · exact hi

theorem engineBusy_encoder_eq_false {s : State} : engineBusy s .encoder = false ↔ s.enc.mode ≠ .busy := by
  simp [engineBusy]

theorem engineBusy_decoder_eq_false {s : State} : engineBusy s .decoder = false ↔ s.dec.mode ≠ .busy := by
  simp [engineBusy]

/-- A byte stored by the host, which never touches a BUSY engine's spaces. -/
theorem Inv.hostStore {s : State} (hi : Inv s) {sp : Space} (hfree : engineBusy s (spaceOwner sp) = false) (a : Word)
    (b : Byte) : Inv (hostWrite s sp a b) := by
  obtain ⟨he, hd⟩ := hi
  cases sp with
  | esrc =>
    have hb := engineBusy_encoder_eq_false.mp hfree
    exact ⟨he.host_update hb _ _ (Memory.wf_write_word a b he.srcWf) he.dstWf, hd⟩
  | edst =>
    have hb := engineBusy_encoder_eq_false.mp hfree
    exact ⟨he.host_update hb _ _ he.srcWf (Memory.wf_write_word a b he.dstWf), hd⟩
  | dsrc =>
    have hb := engineBusy_decoder_eq_false.mp hfree
    exact ⟨he, hd.host_update hb _ _ (Memory.wf_write_word a b hd.srcWf) hd.dstWf⟩
  | ddst =>
    have hb := engineBusy_decoder_eq_false.mp hfree
    exact ⟨he, hd.host_update hb _ _ hd.srcWf (Memory.wf_write_word a b hd.dstWf)⟩

/-- The reset input keeps the spaces canonical, free bytes included. -/
theorem Inv.resetInput {s : State} (hi : Inv s) : Inv (resetBlock s) := by
  obtain ⟨he, hd⟩ := hi
  refine ⟨encInv_resetWith he.srcWf (Memory.wf_havoc _ _ he.dstWf _ ?_),
    decInv_resetWith hd.srcWf (Memory.wf_havoc _ _ hd.dstWf _ ?_)⟩
  · split
    · exact s.enc.dlen.isLt.le
    · exact Nat.zero_le _
  · split
    · exact s.dec.dcap.isLt.le
    · exact Nat.zero_le _

/-! ### Every move -/

/-- A host instruction keeps the invariant: a start, a register write, or nothing done to an engine. -/
theorem exec_decodeAccess_keeps_inv {s t : State} (hi : Inv s) (a : HostAccess)
    (h : exec (decodeAccess a) s = .next t) : Inv t := by
  obtain ⟨he, hd⟩ := hi
  cases a with
  | read reg =>
    rw [decodeAccess, exec_rd, execRd] at h
    cases h
    exact ⟨he, hd⟩
  | write reg v =>
    simp only [decodeAccess] at h
    split_ifs at h
    · rw [exec_encStart, execEncStart] at h
      cases h
      exact ⟨by split; exacts [he.start, he], hd⟩
    · rw [exec_decStart, execDecStart] at h
      cases h
      exact ⟨he, by split; exacts [hd.start, hd]⟩
    · rw [exec_wr, execWr] at h
      cases h
      exact ⟨he.writeReg reg v, hd.writeReg reg v⟩

/-- A wait does nothing to the engines. -/
theorem execWaitEnc_engines {s t : State} (h : execWaitEnc s = .next t) : t.enc = s.enc ∧ t.dec = s.dec := by
  unfold execWaitEnc at h
  split at h <;> cases h <;> exact ⟨rfl, rfl⟩

theorem execWaitDec_engines {s t : State} (h : execWaitDec s = .next t) : t.enc = s.enc ∧ t.dec = s.dec := by
  unfold execWaitDec at h
  split at h <;> cases h <;> exact ⟨rfl, rfl⟩

/-- The invariant is about the engines only. -/
theorem Inv.of_engines_eq {s t : State} (hi : Inv s) (h : t.enc = s.enc ∧ t.dec = s.dec) : Inv t :=
  ⟨h.1 ▸ hi.enc, h.2 ▸ hi.dec⟩

theorem hostOpStep_keeps_inv {s t : State} (hi : Inv s) (op : HostOp) (h : hostOpStep op s = .next t) : Inv t := by
  cases op with
  | access a => exact exec_decodeAccess_keeps_inv hi a h
  | wait e =>
    cases e with
    | encoder => exact hi.of_engines_eq (execWaitEnc_engines h)
    | decoder => exact hi.of_engines_eq (execWaitDec_engines h)
  | store sp a b =>
    cases hb : engineBusy s (spaceOwner sp) with
    | true => simp [hostOpStep, hb] at h
    | false =>
      simp only [hostOpStep, hb, Bool.false_eq_true, if_false, Host.Outcome.next.injEq] at h
      exact h ▸ hi.hostStore hb a b
  | load sp a =>
    simp only [hostOpStep] at h
    split at h <;> cases h
    exact hi.of_engines_eq ⟨rfl, rfl⟩
  | reset =>
    cases h
    exact hi.resetInput

theorem hostMove_keeps_inv {s t : State} (hi : Inv s) (h : hostMove s = .next t) : Inv t := by
  unfold hostMove at h
  split at h
  case h_1 =>
    cases h
    exact hi
  case h_2 op rest _ =>
    have hi' : Inv { s with host := { s.host with prog := rest } } := hi.of_engines_eq ⟨rfl, rfl⟩
    exact hostOpStep_keeps_inv hi' op h

theorem agentMove_keeps_inv {s t : State} (hi : Inv s) (a : Agent) (h : agentMove a s = .next t) : Inv t := by
  cases a with
  | host => exact hostMove_keeps_inv hi h
  | encoder =>
    rw [agentMove, exec_eStep] at h
    obtain ⟨e, hop, rfl⟩ := onEnc_eq_next.mp h
    exact ⟨encStepOp_keeps_inv hi.enc hop, hi.dec⟩
  | decoder =>
    rw [agentMove, exec_dStep] at h
    obtain ⟨d, hop, rfl⟩ := onDec_eq_next.mp h
    exact ⟨hi.enc, decStepOp_keeps_inv hi.dec hop⟩

/-- Settles O11: whoever moves next, its move keeps the invariant. -/
theorem stepKeepsInvariant : Obligations.StepKeepsInvariant := by
  intro s t hi h
  have hi' : Inv { s with sched := (nextAgent s.sched).2 } := hi.of_engines_eq ⟨rfl, rfl⟩
  exact agentMove_keeps_inv hi' (nextAgent s.sched).1 h

end Sys2Proof.Machine
end

section
/-! PROOFS. The host's byte accesses to the memory spaces, and that the engines' token steps commute. -/

namespace Sys2Proof.Machine

/-! ### The host's byte accesses (20 R62, R66, R77) -/

/-- A store touches at most the four memory spaces: no register, no table entry, no schedule. -/
theorem hostWrite_frame (s : State) (sp : Space) (a : Word) (b : Byte) :
    hostWrite s sp a b = { s with
      enc := { s.enc with src := (hostWrite s sp a b).enc.src, dst := (hostWrite s sp a b).enc.dst }
      dec := { s.dec with src := (hostWrite s sp a b).dec.src, dst := (hostWrite s sp a b).dec.dst } } := by
  cases sp <;> rfl

theorem hostRead_hostWrite_same (s : State) (sp : Space) (a a' : Word) (b : Byte) :
    hostRead (hostWrite s sp a b) sp a' = if a' = a then b else hostRead s sp a' := by
  cases sp <;> simp [hostRead, hostWrite, BitVec.toNat_inj]

/-- Each space is a field of its own, so a store to one leaves what another reads as it is by definition. -/
theorem hostRead_hostWrite_other (s : State) {sp sp' : Space} (h : sp' ≠ sp) (a a' : Word) (b : Byte) :
    hostRead (hostWrite s sp a b) sp' a' = hostRead s sp' a' := by
  cases sp <;> cases sp' <;> simp only [hostRead, hostWrite, ne_eq, not_true_eq_false] at h ⊢

/-- A read after a store: the byte stored at its address of its space, the old byte everywhere else. -/
theorem hostRead_hostWrite (s : State) (sp sp' : Space) (a a' : Word) (b : Byte) :
    hostRead (hostWrite s sp a b) sp' a' = if sp' = sp ∧ a' = a then b else hostRead s sp' a' := by
  by_cases h : sp' = sp
  · subst h
    simp [hostRead_hostWrite_same]
  · simp [hostRead_hostWrite_other s h, h]

theorem hostOpStep_store_busy {s : State} {sp : Space} (h : engineBusy s (spaceOwner sp) = true) (a : Word) (b : Byte) :
    hostOpStep (.store sp a b) s = .refused (.hostTouchesBusySpace sp) := by
  simp [hostOpStep, h]

theorem hostOpStep_load_busy {s : State} {sp : Space} (h : engineBusy s (spaceOwner sp) = true) (a : Word) :
    hostOpStep (.load sp a) s = .refused (.hostTouchesBusySpace sp) := by
  simp [hostOpStep, h]

theorem hostOpStep_store_free {s : State} {sp : Space} (h : engineBusy s (spaceOwner sp) = false) (a : Word)
    (b : Byte) : hostOpStep (.store sp a b) s = .next (hostWrite s sp a b) := by
  simp [hostOpStep, h]

theorem hostOpStep_load_free {s : State} {sp : Space} (h : engineBusy s (spaceOwner sp) = false) (a : Word) :
    hostOpStep (.load sp a) s = .next (returnData s ((hostRead s sp a).setWidth 32)) := by
  simp [hostOpStep, h]

/-- Settles O25: a BUSY owner refuses both; otherwise the store is `hostWrite`, known by its frame and by what every
read after it gives. -/
theorem hostMemoryAccess : Obligations.HostMemoryAccess := by
  intro s sp a b
  refine ⟨fun hbusy => ?busy, fun hfree => ?free⟩
  case busy => exact ⟨hostOpStep_store_busy hbusy a b, hostOpStep_load_busy hbusy a⟩
  case free =>
    exact ⟨hostOpStep_load_free hfree a, hostWrite s sp a b, hostOpStep_store_free hfree a b,
      hostWrite_frame s sp a b, fun sp' a' => hostRead_hostWrite s sp sp' a a' b⟩

/-! ### The two engines (20 R71, 44 R218, 10 R20) -/

/-- Operations of different engines commute: each reads and writes its own engine only. -/
theorem onEnc_onDec_commute {f : Enc → Except Fault Enc} {g : Dec → Except Fault Dec} {s t u : State}
    (ht : onEnc f s = .next t) (hu : onDec g s = .next u) : ∃ v, onDec g t = .next v ∧ onEnc f u = .next v := by
  obtain ⟨e, he, rfl⟩ := onEnc_eq_next.mp ht
  obtain ⟨d, hd, rfl⟩ := onDec_eq_next.mp hu
  exact ⟨{ s with enc := e, dec := d }, onDec_of_ok hd, onEnc_of_ok he⟩

/-- Settles O60: `E.STEP` runs on the encoder alone and `D.STEP` on the decoder alone. -/
theorem enginesCommute : Obligations.EnginesCommute := by
  intro s t u ht hu
  rw [exec_eStep] at ht
  rw [exec_dStep] at hu
  simpa only [exec_eStep, exec_dStep] using onEnc_onDec_commute ht hu

end Sys2Proof.Machine
end

section
/-! PROOFS. The encodings: the fields of a match token, decoding what was encoded, and the bytes of a group. -/

namespace Sys2Proof

open Sys2Proof.Machine

/-! ### The fields of a match token in plain numbers (30 R93 to R95) -/

theorem lenOfByte0_toNat (b0 : Byte) : (lenOfByte0 b0).toNat = b0.toNat / 4 := by
  simp only [lenOfByte0, BitVec.toNat_setWidth, BitVec.toNat_ushiftRight, Nat.shiftRight_eq_div_pow]
  omega

theorem offOfBytes_toNat (b0 b1 : Byte) : (offOfBytes b0 b1).toNat = (b0.toNat * 256 + b1.toNat) % 1024 := by
  have hjoin : b0.toNat * 256 ||| b1.toNat = b0.toNat * 256 + b1.toNat :=
    (Nat.mul_comm b0.toNat 256 ▸ Nat.two_pow_add_eq_or_of_lt (i := 8) b1.isLt b0.toNat).symm
  have hmask : ∀ n : Nat, n &&& 1023 = n % 1024 := fun n => Nat.and_two_pow_sub_one_eq_mod n 10
  have hlow : b0.toNat * 256 % 65536 = b0.toNat * 256 := by omega
  have hbyte : ∀ b : Byte, b.toNat % 65536 = b.toNat := fun b => by omega
  simp only [offOfBytes, BitVec.toNat_setWidth, BitVec.toNat_and, BitVec.toNat_or, BitVec.toNat_shiftLeft,
    BitVec.toNat_ofNat, Nat.shiftLeft_eq, Nat.reducePow, Nat.reduceMod, hbyte, hlow, hjoin, hmask, Nat.mod_mod]

theorem byte0Of_toNat (len : LenField) (off : OffField) :
    (byte0Of len off).toNat = len.toNat * 4 + off.toNat / 256 := by
  have hjoin : len.toNat * 4 ||| off.toNat / 256 = len.toNat * 4 + off.toNat / 256 :=
    (Nat.mul_comm len.toNat 4 ▸ Nat.two_pow_add_eq_or_of_lt (i := 2) (by omega) len.toNat).symm
  have hlen : len.toNat % 256 * 4 % 256 = len.toNat * 4 := by omega
  have hoff : off.toNat / 256 % 256 = off.toNat / 256 := by omega
  simp only [byte0Of, BitVec.toNat_or, BitVec.toNat_shiftLeft, BitVec.toNat_setWidth, BitVec.toNat_ushiftRight,
    Nat.shiftLeft_eq, Nat.shiftRight_eq_div_pow, Nat.reducePow, hlen, hoff, hjoin]

theorem byte1Of_toNat (off : OffField) : (byte1Of off).toNat = off.toNat % 256 := by
  simp [byte1Of]

theorem mlenOf_lenFieldOf {mlen : Nat} (h3 : 3 ≤ mlen) (h66 : mlen ≤ 66) : mlenOf (lenFieldOf mlen) = mlen := by
  simp only [mlenOf, lenFieldOf, BitVec.toNat_ofNat]
  omega

theorem lenFieldOf_mlenOf (len : LenField) : lenFieldOf (mlenOf len) = len := by
  simp [lenFieldOf, mlenOf]

/-! ### The two directions are inverse (30 R96) -/

@[simp] theorem lenOfByte0_byte0Of (len : LenField) (off : OffField) : lenOfByte0 (byte0Of len off) = len := by
  apply BitVec.eq_of_toNat_eq
  rw [lenOfByte0_toNat, byte0Of_toNat]
  omega

@[simp] theorem offOfBytes_encoded (len : LenField) (off : OffField) :
    offOfBytes (byte0Of len off) (byte1Of off) = off := by
  apply BitVec.eq_of_toNat_eq
  rw [offOfBytes_toNat, byte0Of_toNat, byte1Of_toNat]
  omega

theorem byte0Of_decoded (b0 b1 : Byte) : byte0Of (lenOfByte0 b0) (offOfBytes b0 b1) = b0 := by
  apply BitVec.eq_of_toNat_eq
  rw [byte0Of_toNat, lenOfByte0_toNat, offOfBytes_toNat]
  omega

theorem byte1Of_offOfBytes (b0 b1 : Byte) : byte1Of (offOfBytes b0 b1) = b1 := by
  apply BitVec.eq_of_toNat_eq
  rw [byte1Of_toNat, offOfBytes_toNat]
  omega

/-- Settles O2, from the four fields in plain numbers and that the two directions are inverse. -/
theorem matchFieldsBijection : Obligations.MatchFieldsBijection := by
  refine ⟨fun b0 b1 => ?decoded, fun mlen offset h3 h66 hoff => ?encoded⟩
  case decoded =>
    have hlen : mlenOf (lenOfByte0 b0) = b0.toNat / 4 + 3 := by rw [mlenOf, lenOfByte0_toNat]
    refine ⟨hlen, by omega, by omega, offOfBytes_toNat b0 b1, ?_, byte1Of_offOfBytes b0 b1⟩
    rw [lenFieldOf_mlenOf, byte0Of_decoded]
  case encoded =>
    have hfield : (BitVec.ofNat 10 offset).toNat = offset := by rw [BitVec.toNat_ofNat]; omega
    have hlen : (lenFieldOf mlen).toNat = mlen - 3 := by rw [lenFieldOf, BitVec.toNat_ofNat]; omega
    refine ⟨by rw [byte0Of_toNat, hlen, hfield], by rw [byte1Of_toNat, hfield], ?_, ?_⟩
    · rw [lenOfByte0_byte0Of, mlenOf_lenFieldOf h3 h66]
    · rw [offOfBytes_encoded, hfield]

/-! ### Decoding what was encoded (30 R91 to R93, R99, R104) -/

/-- The two bytes of a match token decode to it, those of offset 0 to the reserved row. -/
theorem decodeMatch_encoded (len : LenField) (off : OffField) :
    decodeMatch (byte0Of len off) (byte1Of off) = if off = 0 then .matchReserved len else .matchTok len off := by
  simp only [decodeMatch, offOfBytes_encoded, lenOfByte0_byte0Of]

/-- A register write that is no start command decodes to a plain write. -/
theorem decodeAccess_write {reg : Nat} {v : Word} (h : isStartWrite reg v = false) :
    decodeAccess (.write reg v) = .wr reg v := by
  cases hv : v.getLsbD 0 <;> simp_all [decodeAccess, isStartWrite]

theorem decode_encode : ∀ {i : Instr} {w : Encoding}, i.wf = true → encode i = some w → decode w = .ok i
  | .map _, _, _, rfl => rfl
  | .lit _, _, _, rfl => rfl
  | .matchTok len off, _, hwf, rfl => by
    have hoff : off ≠ 0 := by simpa [Instr.wf] using hwf
    simp only [decode, decodeElement, decodeMatch_encoded, if_neg hoff]
  | .matchReserved len, _, _, rfl => by
    simp only [decode, decodeElement, decodeMatch_encoded, if_true]
  | .encStart v, _, hwf, rfl => by
    have hv : v.getLsbD 0 = true := hwf
    simp [decode, decodeAccess, hv]
  | .decStart v, _, hwf, rfl => by
    have hv : v.getLsbD 0 = true := hwf
    simp [decode, decodeAccess, hv]
  | .wr reg v, _, hwf, rfl => by
    have hplain : isStartWrite reg v = false := by simpa [Instr.wf] using hwf
    rw [decode, decodeAccess_write hplain]
  | .rd _, _, _, rfl => rfl

/-- Settles O1, instruction by instruction; micro-operations and pseudo-instructions have no encoding. -/
theorem decodeEncodeRoundTrip : Obligations.DecodeEncodeRoundTrip :=
  fun _ _ => decode_encode

/-- Settles O3 by running the decoder on each word. -/
theorem sampleWordsDecode : Obligations.SampleWordsDecode := by
  unfold Obligations.SampleWordsDecode
  decide

/-! ### The bytes of a group (30 R97, R106, R107) -/

/-- The one bit a token at position `i` adds to the MAP value. -/
theorem tokenMapBit_getLsbD (b : Bool) (i j : Nat) :
    (if b then 1#8 <<< i else 0).getLsbD j = (decide (i = j ∧ j < 8) && b) := by
  cases b with
  | false => simp
  | true =>
    simp only [if_true, BitVec.getLsbD_shiftLeft, BitVec.getLsbD_one, Bool.and_true]
    rw [Bool.eq_iff_iff]
    simp only [Bool.and_eq_true, Bool.not_eq_true', decide_eq_true_eq, decide_eq_false_iff_not]
    omega

/-- Bit `j` of the MAP value of tokens that begin at position `i`: whether the token at position `j` is a match. -/
theorem groupMapFrom_getLsbD (toks : List Token) : ∀ i j : Nat,
    (groupMapFrom i toks).getLsbD j = (decide (i ≤ j ∧ j < 8) && toks[j - i]?.any tokenIsMatch) := by
  induction toks with
  | nil => simp [groupMapFrom]
  | cons t ts ih =>
    intro i j
    rw [groupMapFrom, BitVec.getLsbD_or, tokenMapBit_getLsbD, ih]
    rcases lt_trichotomy i j with hlt | rfl | hgt
    · obtain ⟨k, rfl⟩ : ∃ k, j = i + 1 + k := ⟨j - (i + 1), by omega⟩
      have hnext : i + 1 + k - i = k + 1 := by omega
      simp [hnext, show i ≤ i + 1 + k by omega, show i ≠ i + 1 + k by omega]
    · simp
    · simp [show ¬ i ≤ j by omega, show ¬ i + 1 ≤ j by omega, show i ≠ j by omega]

theorem groupMap_getLsbD (toks : List Token) (j : Nat) :
    (groupMap toks).getLsbD j = (decide (j < 8) && toks[j]?.any tokenIsMatch) := by
  simp [groupMap, groupMapFrom_getLsbD]

/-- A copy map whose bits from position `k` on are those of the tokens, all of them inside the group (30 R107). -/
def MapSays (k : Nat) (toks : List Token) (cmap : Byte) : Prop :=
  k + toks.length ≤ 8 ∧ ∀ i (h : i < toks.length), cmap.getLsbD (k + i) = tokenIsMatch toks[i]

theorem mapSays_groupMap {toks : List Token} (h : toks.length ≤ 8) : MapSays 0 toks (groupMap toks) := by
  refine ⟨by omega, fun i hi => ?_⟩
  have hlt : i < 8 := by omega
  rw [groupMap_getLsbD]
  simp [hi, hlt]

theorem MapSays.head {k : Nat} {t : Token} {ts : List Token} {cmap : Byte} (h : MapSays k (t :: ts) cmap) :
    cmap.getLsbD k = tokenIsMatch t :=
  h.2 0 (by simp)

theorem MapSays.tail {k : Nat} {t : Token} {ts : List Token} {cmap : Byte} (h : MapSays k (t :: ts) cmap) :
    MapSays (k + 1) ts cmap := by
  obtain ⟨hlen, hbits⟩ := h
  simp only [List.length_cons] at hlen hbits
  refine ⟨by omega, fun i hi => ?_⟩
  rw [show k + 1 + i = k + (i + 1) by omega]
  exact hbits (i + 1) (by omega)

/-- Moving the copy map down by one bit, as the disassembler does, puts the next token's bit at the front. -/
theorem MapSays.shift {t : Token} {ts : List Token} {cmap : Byte} (h : MapSays 0 (t :: ts) cmap) :
    MapSays 0 ts (cmap >>> 1) := by
  obtain ⟨hlen, hbits⟩ := h.tail
  refine ⟨by omega, fun i hi => ?_⟩
  rw [BitVec.getLsbD_ushiftRight, Nat.zero_add]
  exact hbits i hi

/-- The instruction a token is, a match of offset 0 the reserved row (30 R99). -/
def tokenInstr : Token → Instr
  | .lit b => .lit b
  | .mat len off => if off = 0 then .matchReserved len else .matchTok len off

/-- Where the copy-map bit is 0 the walk takes one byte as a literal. -/
theorem disassembleFrom_lit {left : Nat} {bits b : Byte} {rest : List Byte} {is : List Instr}
    (hbit : bits.getLsbD 0 = false) (h : disassembleFrom left (bits >>> 1) rest = .ok is) :
    disassembleFrom (left + 1) bits (b :: rest) = .ok (.lit b :: is) := by
  rw [disassembleFrom.eq_def]
  simp only [hbit, Bool.false_eq_true, if_false, h]

/-- Where it is 1 the walk takes two bytes as a match. -/
theorem disassembleFrom_mat {left : Nat} {bits b0 b1 : Byte} {rest : List Byte} {is : List Instr}
    (hbit : bits.getLsbD 0 = true) (h : disassembleFrom left (bits >>> 1) rest = .ok is) :
    disassembleFrom (left + 1) bits (b0 :: b1 :: rest) = .ok (decodeMatch b0 b1 :: is) := by
  rw [disassembleFrom.eq_def]
  simp only [hbit, if_true, h]

/-- The disassembler's walk over the bytes of a group's tokens gives the tokens back. -/
theorem disassembleFrom_tokensBytes : ∀ {toks : List Token} {left : Nat} {bits : Byte}, toks.length ≤ left →
    MapSays 0 toks bits → disassembleFrom left bits (tokensBytes toks) = .ok (toks.map tokenInstr)
  | [], 0, _, _, _ => rfl
  | [], _ + 1, _, _, _ => rfl
  | t :: ts, 0, _, hleft, _ => by simp at hleft
  | t :: ts, left + 1, bits, hleft, hmap => by
    have ih := disassembleFrom_tokensBytes (Nat.le_of_succ_le_succ hleft) hmap.shift
    cases t with
    | lit b => exact disassembleFrom_lit hmap.head ih
    | mat len off =>
      rw [List.map_cons, tokenInstr, ← decodeMatch_encoded]
      exact disassembleFrom_mat hmap.head ih

/-- Settles O4: the MAP bits by position, and the disassembler's walk from the MAP on. -/
theorem groupDisassembles : Obligations.GroupDisassembles := by
  intro toks _ hlen
  refine ⟨fun i hi => ?_, fun i hi => ?_, ?_⟩
  · simpa using (mapSays_groupMap hlen).2 i hi
  · simp [groupMap_getLsbD, List.getElem?_eq_none hi]
  · have hwalk := disassembleFrom_tokensBytes hlen (mapSays_groupMap hlen)
    rw [disassemble, assemble, disassembleFrom, hwalk]
    rfl

end Sys2Proof
end

section
/-! PROOFS. A step runs what is decoded: the decoder's token, the host's register access, the encoder's token step; and
the waits. -/

namespace Sys2Proof.Machine

/-! ### Whose move it is (00 R10) -/

theorem step_of_sched {s : State} {a : Agent} {rest : List Agent} (h : s.sched = a :: rest) :
    step s = agentMove a { s with sched := rest } := by
  simp only [step, machineStep, nextAgent, h]

theorem hostMove_access {s : State} {a : HostAccess} {ops : List HostOp} (h : s.host.prog = .access a :: ops) :
    hostMove s = exec (decodeAccess a) { s with host := { s.host with prog := ops } } := by
  simp only [hostMove, h, hostOpStep]

/-- Settles O7: the host's move is its access, decoded; the encoder's is `E.STEP`. -/
theorem stepRunsHostAndEncoder : Obligations.StepRunsHostAndEncoder := by
  refine ⟨fun s rest a ops hsched hprog => ⟨rfl, ?_⟩, fun s rest hsched => step_of_sched hsched⟩
  rw [step_of_sched hsched, agentMove]
  exact hostMove_access hprog

/-! ### The decoder's token (30 R97, 43 R182 to R184, R191) -/

theorem decodeMatch_wf (b0 b1 : Byte) : (decodeMatch b0 b1).wf = true := by
  unfold decodeMatch
  split
  case isTrue => rfl
  case isFalse h => simpa [Instr.wf] using h

theorem exec_decodeMatch (b0 b1 : Byte) (s : State) :
    exec (decodeMatch b0 b1) s = onDec (whenDec (elementOp (decodeMatch b0 b1))) s := by
  unfold decodeMatch
  split <;> rfl

/-- What stream bytes decode to is well-formed, and running it by name is running the element. -/
theorem fetchElement_runs {kind : ElementKind} {d : Dec} {i : Instr} (h : fetchElement kind d = .ok i) :
    i.wf = true ∧ ∀ s : State, exec i s = onDec (whenDec (elementOp i)) s := by
  unfold fetchElement at h
  generalize fetchWindow d = bytes at h
  match kind, bytes, h with
  | .map, _ :: _, rfl => exact ⟨rfl, fun _ => rfl⟩
  | .lit, _ :: _, rfl => exact ⟨rfl, fun _ => rfl⟩
  | .mat, b0 :: b1 :: _, rfl => exact ⟨decodeMatch_wf b0 b1, exec_decodeMatch b0 b1⟩

/-- The micro-operation the copy-map bit selects runs the element fetched at the cursor. -/
theorem selectedOp_fetched {d : Dec} {i : Instr}
    (h : fetchElement (if mapBit d.cmap d.cmask then .mat else .lit) d = .ok i) :
    (if mapBit d.cmap d.cmask then decMatchOp (selected d) else decLitOp (selected d)) = elementOp i (selected d) := by
  split
  case isTrue hm =>
    have hmat : fetchElement .mat (selected d) = .ok i := by rwa [if_pos hm] at h
    rw [decMatchOp, hmat]
  case isFalse hm =>
    have hlit : fetchElement .lit (selected d) = .ok i := by rwa [if_neg hm] at h
    rw [decLitOp, hlit]

/-- A token step whose frame step leaves the call going runs the selected token and the end of the step. -/
theorem decStepOp_of_frame {d d1 : Dec} (hframe : decFrameOp d = .ok d1) (hb : d1.mode = .busy) :
    decStepOp d =
      (if mapBit d1.cmap d1.cmask then decMatchOp (selected d1) else decLitOp (selected d1)) >>=
        fun d2 => .ok (endToken d2) := by
  have hsel : selectOp d1 = .ok (selected d1) := rfl
  have hwire : (selected d1).w.ismatch = mapBit d1.cmap d1.cmask := rfl
  rw [decStepOp, hframe, ok_bind, if_pos hb, hsel, ok_bind, hwire]
  split <;> rfl

/-- Settles O5: inside a group the frame step only moves the mask, and the selected operation runs the element
fetched. -/
theorem stepRunsDecodedToken : Obligations.StepRunsDecodedToken := by
  intro s rest i t hsched ⟨hb, hs⟩ hg hfetch hexec
  obtain ⟨hwf, hruns⟩ := fetchElement_runs hfetch
  refine ⟨hwf, ?_⟩
  rw [hruns] at hexec
  obtain ⟨d2, hwhen, rfl⟩ := onDec_eq_next.mp hexec
  have helem : elementOp i (selected { s.dec with cmask := shiftMask s.dec.cmask }) = .ok d2 :=
    (whenDec_active (d := selected { s.dec with cmask := shiftMask s.dec.cmask }) hb hs).symm.trans hwhen
  have hstep : decStepOp s.dec = .ok (endToken d2) := by
    rw [decStepOp_of_frame (decFrameOp_inside hg) hb, selectedOp_fetched hfetch, helem, ok_bind]
  rw [step_of_sched hsched, agentMove, exec_dStep]
  exact onDec_of_ok ((whenDec_active hb hs).trans hstep)

/-! ### The waits (30 R107) -/

/-- A status word shows DONE in bit 1, whatever stands above it (10 R34, R39). -/
theorem statusWord_done (m : Mode) (n : Nat) : (wordOf (modeBits m + 4 * n)).getLsbD 1 = (m == .done) := by
  have hbit : (modeBits m + 4 * n) / 2 % 2 = modeBits m / 2 := by cases m <;> simp only [modeBits] <;> omega
  rw [BitVec.getLsbD_ofNat, Nat.testBit_eq_decide_div_mod_eq, pow_one, hbit]
  cases m <;> rfl

theorem readReg_encStatus_done (s : State) : (readReg s 3).getLsbD 1 = (s.enc.mode == .done) := statusWord_done _ _

theorem readReg_decStatus_done (s : State) : (readReg s 8).getLsbD 1 = (s.dec.mode == .done) := statusWord_done _ _

theorem execWaitEnc_eq (s : State) :
    execWaitEnc s =
      if s.enc.mode = .done then .next (returnData s (encStatus s.enc))
      else .next (repeatOp (returnData s (encStatus s.enc)) (.wait .encoder)) := by
  simp only [execWaitEnc, readReg_encStatus_done, beq_iff_eq]
  rfl

theorem execWaitDec_eq (s : State) :
    execWaitDec s =
      if s.dec.mode = .done then .next (returnData s (decStatus s.dec))
      else .next (repeatOp (returnData s (decStatus s.dec)) (.wait .decoder)) := by
  simp only [execWaitDec, readReg_decStatus_done, beq_iff_eq]
  rfl

/-- Settles O24: each wait asks whether its engine is DONE. -/
theorem waitLoops : Obligations.WaitLoops :=
  fun s => ⟨fun h => (execWaitEnc_eq s).trans (if_pos h), fun h => (execWaitEnc_eq s).trans (if_neg h),
    fun h => (execWaitDec_eq s).trans (if_pos h), fun h => (execWaitDec_eq s).trans (if_neg h)⟩

end Sys2Proof.Machine
end

section
/-! PROOFS. What a list of given tokens does to the decoder, and LITS. -/

namespace Sys2Proof.Machine

/-! ### The bytes produced so far -/

@[simp] theorem prefixBytes_length (m : Mem) (n : Nat) : (prefixBytes m n).length = n := by simp [prefixBytes]

theorem prefixBytes_write (m : Mem) (n : Nat) (b : Byte) :
    prefixBytes (cellWrite m n b) (n + 1) = prefixBytes m n ++ [b] := by
  have hbelow : (List.range n).map (cellRead (cellWrite m n b)) = (List.range n).map (cellRead m) :=
    List.map_congr_left fun a ha => by rw [cellRead_write, if_neg (List.mem_range.mp ha).ne]
  simp [prefixBytes, List.range_succ, hbelow]

/-- The bytes the call has produced. -/
def produced (d : Dec) : List Byte := prefixBytes d.dst d.dpos.toNat

@[simp] theorem produced_length (d : Dec) : (produced d).length = d.dpos.toNat := prefixBytes_length _ _

theorem byteAt_produced {d : Dec} {i : Nat} (h : i < d.dpos.toNat) : byteAt (produced d) i = cellRead d.dst i := by
  simp [byteAt, produced, prefixBytes, List.getD, h]

/-- One byte stored at the write cursor is one byte more produced. -/
theorem produced_push {d : Dec} (h : d.dpos.toNat < d.dcap.toNat) (b : Byte) :
    prefixBytes (cellWrite d.dst d.dpos.toNat b) (wordOf (d.dpos.toNat + 1)).toNat = produced d ++ [b] := by
  rw [wordOf_toNat_of_le (w := d.dcap) h, prefixBytes_write, produced]

/-- The replay appends what the reference's replay appends (43 R189). -/
theorem replayFrom_produced {off : Nat} : ∀ {n : Nat} {d d' : Dec}, replayFrom off n d = .ok d' →
    produced d' = refReplay off n (produced d)
  | 0, d, d', h => by
    simp only [replayFrom, Except.ok.injEq] at h
    rw [h, refReplay]
  | n + 1, d, d', h => by
    simp only [replayFrom, bind_eq_ok, pushDdst_eq_ok, replayByte] at h
    obtain ⟨v, hread, d1, ⟨hlt, rfl⟩, h⟩ := h
    split at hread
    case isFalse => cases hread
    obtain ⟨hbelow, rfl⟩ := readDdst_eq_ok.mp hread
    rw [replayFrom_produced h, refReplay, produced_length, byteAt_produced hbelow]
    exact congrArg (refReplay off n) (produced_push hlt _)

theorem refReplay_length (off : Nat) : ∀ (n : Nat) (out : List Byte), (refReplay off n out).length = out.length + n
  | 0, _ => rfl
  | n + 1, out => by
    rw [refReplay, refReplay_length off n, List.length_append, List.length_singleton]
    omega

theorem tokenOutput_length_ge (t : Token) (out : List Byte) : out.length ≤ (tokenOutput t out).length := by
  cases t with
  | lit b => simp [tokenOutput]
  | mat len off => simp [tokenOutput, refReplay_length]

theorem tokensOutput_length_ge : ∀ (ts : List Token) (out : List Byte), out.length ≤ (tokensOutput ts out).length
  | [], _ => le_refl _
  | t :: ts, out => (tokenOutput_length_ge t out).trans (tokensOutput_length_ge ts _)

theorem tokenBytes_length_pos (t : Token) : 1 ≤ (tokenBytes t).length := by
  cases t <;> simp [tokenBytes]

/-! ### One given token -/

/-- A token that answers and leaves the call going has consumed its bytes and stored at the write cursor only. -/
theorem runToken_frame {t : Token} {d d' : Dec} (h : runToken t d = .ok d') (hb : d'.mode = .busy) :
    d.spos.toNat + (tokenBytes t).length ≤ d.slen.toNat ∧
      d' = { d with
        spos := wordOf (d.spos.toNat + (tokenBytes t).length)
        dst := d'.dst, dpos := d'.dpos, w := d'.w } := by
  cases t with
  | lit b =>
    rcases litOp_eq_ok.mp h with ⟨-, rfl⟩ | ⟨-, hs, rfl⟩
    · simp at hb
    · exact ⟨hs, rfl⟩
  | mat len off =>
    rcases matchOp_cases h with ⟨rfl, -⟩ | ⟨rfl, -⟩ | ⟨hs, -, -, -, hreplay⟩
    · simp at hb
    · simp at hb
    · obtain ⟨heq, -⟩ := replayFrom_eq_ok hreplay
      exact ⟨hs, by rw [heq]; rfl⟩

theorem matchOp_badData {len : LenField} {off : OffField} {d : Dec}
    (h : d.slen.toNat < d.spos.toNat + 2 ∨ d.dpos.toNat < off.toNat ∨ off = 0) :
    matchOp len off d = .ok (raiseDec .badData d) := by
  unfold matchOp
  by_cases hcut : d.slen.toNat < d.spos.toNat + 2
  · rw [if_pos hcut]
  by_cases hback : d.dpos.toNat < off.toNat
  · rw [if_neg hcut, if_pos hback]
  · rw [if_neg hcut, if_neg hback, if_pos ((h.resolve_left hcut).resolve_left hback)]
    rfl

theorem matchOp_wouldOverflow {len : LenField} {off : OffField} {d : Dec} (hs : d.spos.toNat + 2 ≤ d.slen.toNat)
    (hback : off.toNat ≤ d.dpos.toNat) (hne : off ≠ 0) (hroom : d.dcap.toNat < d.dpos.toNat + mlenOf len) :
    matchOp len off d = .ok (raiseDec .wouldOverflow d) := by
  rw [matchOp, if_neg (by omega), if_neg (by omega), if_neg hne, if_pos hroom]

/-- A match that passes its checks is its replay, its bytes consumed (43 R184). -/
theorem matchOp_accepted {len : LenField} {off : OffField} {d : Dec} (hs : d.spos.toNat + 2 ≤ d.slen.toNat)
    (hback : off.toNat ≤ d.dpos.toNat) (hne : off ≠ 0) (hroom : d.dpos.toNat + mlenOf len ≤ d.dcap.toNat) :
    matchOp len off d = replayFrom off.toNat (mlenOf len)
      { d with spos := wordOf (d.spos.toNat + 2), w := { d.w with len := len, off := off } } := by
  have hadvance := advanceDec_of_le (d := { d with w := { d.w with len := len, off := off } }) hs
  rw [matchOp, if_neg (by omega), if_neg (by omega), if_neg hne, if_neg (by omega), hadvance]
  rfl

/-- The token's bytes are left, its offset is valid and its output fits. -/
structure TokenFits (t : Token) (d : Dec) : Prop where
  bytes : d.spos.toNat + (tokenBytes t).length ≤ d.slen.toNat
  offset : offsetsValid [t] (produced d)
  room : (tokenOutput t (produced d)).length ≤ d.dcap.toNat

/-- A token that fits appends its output and leaves the call going. -/
theorem runToken_fits {t : Token} {d : Dec} (hf : TokenFits t d) :
    ∃ d', runToken t d = .ok d' ∧ d'.mode = d.mode ∧ produced d' = tokenOutput t (produced d) := by
  obtain ⟨hs, ho, hroom⟩ := hf
  cases t with
  | lit b =>
    simp only [tokenOutput, List.length_append, produced_length, List.length_singleton] at hroom
    exact ⟨_, litOp_eq_ok.mpr (.inr ⟨hroom, hs, rfl⟩), rfl, produced_push hroom b⟩
  | mat len off =>
    simp only [tokenOutput, refReplay_length, produced_length] at hroom
    obtain ⟨⟨hpos, hback⟩, -⟩ := ho
    rw [produced_length] at hback
    have hs2 : d.spos.toNat + 2 ≤ d.slen.toNat := hs
    have hne : off ≠ 0 := by rintro rfl; simp at hpos
    have haccept := matchOp_accepted hs2 hback hne hroom
    obtain ⟨d', hreplay⟩ := replayFrom_total hpos (n := mlenOf len)
      (d := { d with spos := wordOf (d.spos.toNat + 2), w := { d.w with len := len, off := off } }) hback hroom
    obtain ⟨heq, -⟩ := replayFrom_eq_ok hreplay
    exact ⟨d', haccept.trans hreplay, by rw [heq], (replayFrom_produced hreplay).trans rfl⟩

/-! ### A list of given tokens -/

@[simp] theorem endToken_slen (d : Dec) : (endToken d).slen = d.slen := by
  unfold endToken finishDecIfEnd; split <;> rfl

@[simp] theorem endToken_dcap (d : Dec) : (endToken d).dcap = d.dcap := by
  unfold endToken finishDecIfEnd; split <;> rfl

@[simp] theorem endToken_spos (d : Dec) : (endToken d).spos = d.spos := by
  unfold endToken finishDecIfEnd; split <;> rfl

@[simp] theorem endToken_dpos (d : Dec) : (endToken d).dpos = d.dpos := by
  unfold endToken finishDecIfEnd; split <;> rfl

@[simp] theorem endToken_cmask (d : Dec) : (endToken d).cmask = d.cmask := by
  unfold endToken finishDecIfEnd; split <;> rfl

@[simp] theorem endToken_cmap (d : Dec) : (endToken d).cmap = d.cmap := by
  unfold endToken finishDecIfEnd; split <;> rfl

@[simp] theorem endToken_src (d : Dec) : (endToken d).src = d.src := by
  unfold endToken finishDecIfEnd; split <;> rfl

@[simp] theorem endToken_dst (d : Dec) : (endToken d).dst = d.dst := by
  unfold endToken finishDecIfEnd; split <;> rfl

/-- The end of a token step closes the call exactly at the end of the stream. -/
theorem endToken_mode {d : Dec} (hb : d.mode = .busy) :
    (endToken d).mode = if d.spos = d.slen then .done else .busy := by
  by_cases h : d.spos = d.slen
  · rw [endToken, finishDecIfEnd_of_end hb h, if_pos h]; rfl
  · rw [endToken, finishDecIfEnd_of_ne h, if_neg h]; exact hb

/-- A call that goes on after its token step only lets the wires go. -/
theorem endToken_of_busy {d : Dec} (h : (endToken d).mode = .busy) :
    d.mode = .busy ∧ endToken d = clearDecWires d := by
  unfold endToken finishDecIfEnd at h ⊢
  split at h
  case isTrue => cases h
  case isFalse hend => exact ⟨h, by rw [if_neg hend]⟩

/-- What running given tokens that fit leaves (30 R107): their bytes consumed, their output appended, the mask moved
once per token, the call ended exactly at the end of the stream. -/
structure RanTokens (ts : List Token) (d d' : Dec) : Prop where
  slen : d'.slen = d.slen
  dcap : d'.dcap = d.dcap
  cmap : d'.cmap = d.cmap
  cmask : d'.cmask = nextTokenMask^[ts.length] d.cmask
  spos : d'.spos.toNat = d.spos.toNat + (tokensBytes ts).length
  output : produced d' = tokensOutput ts (produced d)
  mode : d'.mode = if d'.spos = d'.slen then .done else .busy
  goesOn : d'.mode = .busy → d.mode = .busy ∧ d'.count = d.count

theorem RanTokens.nil {d : Dec} (h : d.mode = if d.spos = d.slen then .done else .busy) : RanTokens [] d d :=
  ⟨rfl, rfl, rfl, rfl, rfl, rfl, h, fun hb => ⟨hb, rfl⟩⟩

theorem RanTokens.cons {t : Token} {ts : List Token} {d d1 d2 : Dec} (h1 : RanTokens [t] d d1)
    (h2 : RanTokens ts d1 d2) : RanTokens (t :: ts) d d2 where
  slen := h2.slen.trans h1.slen
  dcap := h2.dcap.trans h1.dcap
  cmap := h2.cmap.trans h1.cmap
  cmask := by rw [h2.cmask, h1.cmask]; rfl
  spos := by
    have hs1 := h1.spos
    simp only [tokensBytes, List.append_nil, List.length_append] at hs1 ⊢
    rw [h2.spos, hs1, Nat.add_assoc]
  output := by rw [h2.output, h1.output]; rfl
  mode := h2.mode
  goesOn := fun hb => by
    obtain ⟨hb1, hc2⟩ := h2.goesOn hb
    obtain ⟨hb0, hc1⟩ := h1.goesOn hb1
    exact ⟨hb0, hc2.trans hc1⟩

/-- One token step of a token that fits. -/
theorem tokenStepOp_fits {t : Token} {d : Dec} (hb : d.mode = .busy) (hf : TokenFits t d) :
    ∃ d', tokenStepOp t d = .ok d' ∧ RanTokens [t] d d' := by
  obtain ⟨d1, hrun, hmode, hout⟩ := runToken_fits (d := { d with cmask := nextTokenMask d.cmask }) { hf with }
  have hb1 : d1.mode = .busy := hmode.trans hb
  obtain ⟨-, heq⟩ := runToken_frame hrun hb1
  refine ⟨endToken d1, tokenStepOp_eq_ok.mpr ⟨d1, hrun, rfl⟩, ?_⟩
  have hspos : d1.spos.toNat = d.spos.toNat + (tokenBytes t).length := by
    rw [heq]; exact wordOf_toNat_of_le hf.bytes
  exact
    { slen := by rw [endToken_slen, heq]
      dcap := by rw [endToken_dcap, heq]
      cmap := by rw [endToken_cmap, heq]
      cmask := by rw [endToken_cmask, heq]; rfl
      spos := by rw [endToken_spos, hspos, tokensBytes, tokensBytes, List.append_nil]
      output := by rw [produced, endToken_dst, endToken_dpos]; exact hout
      mode := by rw [endToken_spos, endToken_slen, endToken_mode hb1]
      goesOn := fun h => ⟨hb, by rw [(endToken_of_busy h).2, clearDecWires_count, heq]⟩ }

/-- Token steps of tokens that fit, one after another. -/
theorem tokensOp_fits : ∀ {ts : List Token} {d : Dec}, (d.mode = if d.spos = d.slen then .done else .busy) →
    d.spos.toNat + (tokensBytes ts).length ≤ d.slen.toNat → offsetsValid ts (produced d) →
    (tokensOutput ts (produced d)).length ≤ d.dcap.toNat → ∃ d', tokensOp ts d = .ok d' ∧ RanTokens ts d d'
  | [], d, hmode, _, _, _ => ⟨d, rfl, .nil hmode⟩
  | t :: ts, d, hmode, hbytes, hoff, hroom => by
    have hpos := tokenBytes_length_pos t
    obtain ⟨hoff1, hoff2⟩ := hoff
    simp only [tokensBytes, List.length_append] at hbytes
    have hlt : d.spos.toNat < d.slen.toNat := by omega
    have hb : d.mode = .busy := by rw [hmode, if_neg (fun h => by rw [h] at hlt; omega)]
    obtain ⟨d1, hstep, h1⟩ := tokenStepOp_fits (t := t) hb
      { bytes := by omega, offset := ⟨hoff1, trivial⟩, room := (tokensOutput_length_ge ts _).trans hroom }
    have hs1 := h1.spos
    have hout1 : produced d1 = tokenOutput t (produced d) := h1.output
    simp only [tokensBytes, List.append_nil] at hs1
    obtain ⟨d2, hrest, h2⟩ := tokensOp_fits (ts := ts) h1.mode (by rw [h1.slen]; omega) (by rwa [hout1])
      (by rw [hout1, h1.dcap]; exact hroom)
    exact ⟨d2, by rw [tokensOp, whenDec_active hb hlt, hstep, ok_bind, hrest], h1.cons h2⟩

theorem tokensOp_cons_active {t : Token} {ts : List Token} {d : Dec} (ha : decActive d) :
    tokensOp (t :: ts) d =
      runToken t { d with cmask := nextTokenMask d.cmask } >>= fun d1 => tokensOp ts (endToken d1) := by
  rw [tokensOp, whenDec_active ha.1 ha.2, tokenStepOp]
  cases runToken t { d with cmask := nextTokenMask d.cmask } <;> rfl

/-- Before its last byte a call that stands between steps is going on. -/
theorem mode_of_lt {d : Dec} (hb : d.mode = .busy) (h : d.spos.toNat < d.slen.toNat) :
    d.mode = if d.spos = d.slen then .done else .busy := by
  rw [hb, if_neg (fun heq => by rw [heq] at h; omega)]

/-! ### LITS (30 R107, 43 R183, R190) -/

theorem nextTokenMask_eq (m : BitVec 9) :
    nextTokenMask m = (if m.setWidth 8 = 0x80#8 then 1 else m <<< 1 : BitVec 9) := by
  simp only [nextTokenMask, isNewGroup_shiftMask]
  rfl

theorem nextTokenMask_iterate {k : Nat} (hk : k < 8) : ∀ n : Nat,
    nextTokenMask^[n] (1#9 <<< k) = 1#9 <<< ((k + n) % 8)
  | 0 => by rw [Nat.add_zero, Nat.mod_eq_of_lt hk]; rfl
  | n + 1 => by
    rw [Function.iterate_succ_apply', nextTokenMask_iterate hk n, nextTokenMask_shift _ (Nat.mod_lt _ (by omega)),
      Nat.mod_add_mod, Nat.add_assoc]

theorem exec_lits (bytes : List Byte) (s : State) : exec (.lits bytes) s = onDec (tokensOp (bytes.map .lit)) s := rfl

theorem exec_lit (b : Byte) (s : State) : exec (.lit b) s = onDec (whenDec (litOp b)) s := rfl

/-- One operation of the decoder after another, on the whole state. -/
theorem onDec_bind (f g : Dec → Except Fault Dec) (s : State) :
    onDec (fun d => f d >>= g) s = andThen (onDec f s) (onDec g) := by
  simp only [onDec]
  cases f s.dec <;> rfl

theorem tokensBytes_lits : ∀ bytes : List Byte, tokensBytes (bytes.map .lit) = bytes
  | [] => rfl
  | b :: bytes => congrArg (b :: ·) (tokensBytes_lits bytes)

theorem tokensOutput_lits : ∀ (bytes out : List Byte), tokensOutput (bytes.map .lit) out = out ++ bytes
  | [], out => (List.append_nil out).symm
  | b :: bytes, out => by
    rw [List.map_cons, tokensOutput, tokensOutput_lits bytes, tokenOutput, List.append_assoc, List.singleton_append]

theorem offsetsValid_lits : ∀ bytes out : List Byte, offsetsValid (bytes.map .lit) out
  | [], _ => trivial
  | _ :: bytes, _ => ⟨trivial, offsetsValid_lits bytes _⟩

theorem tokensOp_append (us : List Token) : ∀ (ts : List Token) (d : Dec),
    tokensOp (ts ++ us) d = tokensOp ts d >>= tokensOp us
  | [], _ => rfl
  | t :: ts, d => by
    rw [List.cons_append, tokensOp, tokensOp]
    cases whenDec (tokenStepOp t) d with
    | error r => rfl
    | ok d1 => exact tokensOp_append us ts d1

/-- Literals that are left and fit. -/
theorem tokensOp_lits_fits {bytes : List Byte} {d : Dec} (hmode : d.mode = if d.spos = d.slen then .done else .busy)
    (hleft : d.spos.toNat + bytes.length ≤ d.slen.toNat) (hfit : d.dpos.toNat + bytes.length ≤ d.dcap.toNat) :
    ∃ d', tokensOp (bytes.map .lit) d = .ok d' ∧ RanTokens (bytes.map .lit) d d' := by
  refine tokensOp_fits hmode ?_ (offsetsValid_lits bytes _) ?_
  · rwa [tokensBytes_lits]
  · rwa [tokensOutput_lits, List.length_append, produced_length]

theorem RanTokens.lits {bytes : List Byte} {d d' : Dec} (h : RanTokens (bytes.map .lit) d d') :
    d'.spos.toNat = d.spos.toNat + bytes.length ∧ produced d' = produced d ++ bytes := by
  have hspos := h.spos
  have hout := h.output
  rw [tokensBytes_lits] at hspos
  rw [tokensOutput_lits] at hout
  exact ⟨hspos, hout⟩

/-- A literal without room ends the call, and whatever follows is not looked at. -/
theorem tokensOp_lit_overflow {b : Byte} {ts : List Token} {d : Dec} (ha : decActive d) (hfull : d.dcap = d.dpos) :
    tokensOp (.lit b :: ts) d =
      .ok (clearDecWires (raiseDec .wouldOverflow { d with cmask := nextTokenMask d.cmask })) := by
  have hraise : litOp b { d with cmask := nextTokenMask d.cmask } =
      .ok (raiseDec .wouldOverflow { d with cmask := nextTokenMask d.cmask }) := by
    rw [litOp, if_pos (by rw [hfull])]
  rw [tokensOp_cons_active ha, runToken, hraise, ok_bind, endToken, finishDecIfEnd_of_not_busy (by simp),
    tokensOp_of_not_busy (by simp)]

/-- Literals of which only the first ones fit: those run, and the next one overflows. -/
theorem tokensOp_lits_overflow {bytes : List Byte} {d : Dec} (hb : d.mode = .busy)
    (hleft : d.spos.toNat + bytes.length ≤ d.slen.toNat) (hroom : d.dpos.toNat ≤ d.dcap.toNat)
    (hover : d.dcap.toNat < d.dpos.toNat + bytes.length) :
    ∃ d1, tokensOp (bytes.map .lit) d =
        .ok (clearDecWires (raiseDec .wouldOverflow { d1 with cmask := nextTokenMask d1.cmask })) ∧
      RanTokens ((bytes.take (d.dcap.toNat - d.dpos.toNat)).map .lit) d d1 ∧ d1.mode = .busy := by
  obtain ⟨c, hc⟩ : ∃ c, c = d.dcap.toNat - d.dpos.toNat := ⟨_, rfl⟩
  have hmore : c < bytes.length := by omega
  have hlen : (bytes.take c).length = c := by rw [List.length_take, Nat.min_eq_left hmore.le]
  obtain ⟨d1, hrun, h⟩ :=
    tokensOp_lits_fits (bytes := bytes.take c) (mode_of_lt hb (by omega)) (by omega) (by omega)
  obtain ⟨hspos, hout⟩ := h.lits
  have hdpos : d1.dpos.toNat = d.dpos.toNat + c := by
    rw [← produced_length, hout, List.length_append, produced_length, hlen]
  have hleft1 : d1.spos.toNat < d1.slen.toNat := by rw [h.slen]; omega
  have hb1 : d1.mode = .busy := by rw [h.mode, if_neg (fun heq => by rw [heq] at hleft1; omega)]
  have hfull : d1.dcap = d1.dpos := BitVec.eq_of_toNat_eq (by rw [h.dcap]; omega)
  have hsplit : bytes.map Token.lit = (bytes.take c).map .lit ++ .lit bytes[c] :: (bytes.drop (c + 1)).map .lit := by
    rw [← List.map_cons, ← List.drop_eq_getElem_cons hmore, ← List.map_append, List.take_append_drop]
  refine ⟨d1, ?_, hc ▸ h, hb1⟩
  rw [hsplit, tokensOp_append, hrun, ok_bind, tokensOp_lit_overflow ⟨hb1, hleft1⟩ hfull]

/-- Settles O57: the first literal's token step, then the rest. -/
theorem litsIsItsLiterals : Obligations.LitsIsItsLiterals := by
  intro s
  refine ⟨rfl, fun b rest ⟨hb, hs⟩ => ?_⟩
  have hlits := tokensOp_cons_active (t := .lit b) (ts := rest.map .lit) ⟨hb, hs⟩
  have hlit : whenDec (litOp b) { s.dec with cmask := nextTokenMask s.dec.cmask } = _ := whenDec_active hb hs
  rw [← nextTokenMask_eq, exec_lits, exec_lit, List.map_cons, onDec, onDec, hlits, hlit, runToken]
  cases litOp b { s.dec with cmask := nextTokenMask s.dec.cmask } <;> rfl

/-- Settles O58: literals that fit are given tokens; otherwise those that fit run, and the next one overflows. -/
theorem litsAppendsItsBytes : Obligations.LitsAppendsItsBytes := by
  intro s bytes hb hleft
  refine ⟨fun hfit => ?fits, fun hroom hover => ?overflow⟩
  case fits =>
    rcases eq_or_ne bytes [] with rfl | hne
    · refine ⟨s, rfl, rfl, (List.append_nil _).symm, rfl, fun k hk hm => ?_, fun h => absurd rfl h⟩
      rw [hm, List.length_nil, Nat.add_zero, Nat.mod_eq_of_lt hk]
    · have hpos := List.length_pos_iff.mpr hne
      obtain ⟨d', hrun, h⟩ := tokensOp_lits_fits (mode_of_lt hb (by omega)) hleft hfit
      obtain ⟨hspos, hout⟩ := h.lits
      refine ⟨{ s with dec := d' }, onDec_of_ok hrun, hspos, hout, h.cmap, fun k hk hm => ?_, fun _ => ?_⟩
      · rw [h.cmask, hm, List.length_map, nextTokenMask_iterate hk]
      · rw [← h.slen]; exact h.mode
  case overflow =>
    obtain ⟨d1, hall, h, hb1⟩ := tokensOp_lits_overflow hb hleft hroom hover
    obtain ⟨hspos, hout⟩ := h.lits
    rw [List.length_take, Nat.min_eq_left (by omega)] at hspos
    exact ⟨_, onDec_of_ok hall, rfl, rfl, (h.goesOn hb1).2, hspos, hout⟩

end Sys2Proof.Machine
end

section
/-! PROOFS. GROUP: it runs its tokens as given tokens, and in a stream that holds its bytes it is the decoder's own
token steps. -/

namespace Sys2Proof.Machine

theorem exec_group (toks : List Token) (s : State) : exec (.group toks) s = onDec (whenDec (groupOp toks)) s := rfl

/-- A map byte that is not the last byte opens a group (43 R180). -/
theorem mapOp_inside {bits : Byte} {d : Dec} (h : d.spos.toNat + 1 < d.slen.toNat) :
    mapOp bits d = .ok { d with cmask := 0x001, cmap := bits, spos := wordOf (d.spos.toNat + 1) } := by
  refine mapOp_eq_ok.mpr ⟨h.le, (finishDecIfEnd_of_ne fun heq => ?_).symm⟩
  have hspos := wordOf_toNat_of_le h.le
  simp only at heq
  rw [heq] at hspos
  omega

/-- The decoder past the MAP byte of a GROUP, its mask before token 0. -/
def groupOpened (toks : List Token) (d : Dec) : Dec :=
  { d with cmask := 0x080, cmap := groupMap toks, spos := wordOf (d.spos.toNat + 1) }

theorem groupOpened_spos (toks : List Token) {d : Dec} (h : d.spos.toNat + 1 ≤ d.slen.toNat) :
    (groupOpened toks d).spos.toNat = d.spos.toNat + 1 :=
  wordOf_toNat_of_le h

/-- A well-formed GROUP has a first token, and at most 8 in all. -/
theorem group_wf_cons {toks : List Token} (h : (Instr.group toks).wf = true) :
    ∃ t ts, toks = t :: ts ∧ toks.length ≤ 8 := by
  obtain ⟨hpos, hle⟩ : 1 ≤ toks.length ∧ toks.length ≤ 8 := by simpa [Instr.wf] using h
  obtain ⟨t, ts, heq⟩ := List.exists_cons_of_length_pos hpos
  exact ⟨t, ts, heq, hle⟩

/-- A GROUP whose bytes are left has a byte left after its MAP. -/
theorem group_token_left {t : Token} {ts : List Token} {p n : Nat}
    (h : p + (assemble (.group (t :: ts))).length ≤ n) : p + 1 < n := by
  have hpos := tokenBytes_length_pos t
  simp only [assemble, tokensBytes, List.length_cons, List.length_append] at h
  omega

/-- A GROUP runs its tokens as given tokens under the copy map of its MAP byte. -/
theorem groupOp_eq {t : Token} {ts : List Token} {d : Dec} (hb : d.mode = .busy)
    (hleft : d.spos.toNat + 1 < d.slen.toNat) :
    groupOp (t :: ts) d = tokensOp (t :: ts) (groupOpened (t :: ts) d) := by
  have hmap : mapOp (groupMap (t :: ts)) d =
      .ok { groupOpened (t :: ts) d with cmask := nextTokenMask (groupOpened (t :: ts) d).cmask } :=
    mapOp_inside hleft
  have hactive : decActive (groupOpened (t :: ts) d) :=
    ⟨hb, (wordOf_toNat_of_le hleft.le).trans_lt hleft⟩
  rw [groupOp, hmap, ok_bind, tokensOp_cons_active hactive]
  simp only [whenDec_active (d := { groupOpened (t :: ts) d with
    cmask := nextTokenMask (groupOpened (t :: ts) d).cmask }) hactive.1 hactive.2]
  cases runToken t { groupOpened (t :: ts) d with cmask := nextTokenMask (groupOpened (t :: ts) d).cmask } <;> rfl

theorem exec_group_eq {t : Token} {ts : List Token} {s : State} (hb : s.dec.mode = .busy)
    (hleft : s.dec.spos.toNat + 1 < s.dec.slen.toNat) :
    exec (.group (t :: ts)) s =
      onDec (tokensOp (t :: ts)) { s with dec := groupOpened (t :: ts) s.dec } := by
  rw [exec_group, onDec, onDec, whenDec_active hb (by omega), groupOp_eq hb hleft]

/-- Settles O55: past the MAP byte the tokens are given tokens that fit, the mask counting them from before token 0. -/
theorem groupAppendsItsOutput : Obligations.GroupAppendsItsOutput := by
  intro s toks hb hwf hleft hoff hroom
  obtain ⟨t, ts, rfl, hle⟩ := group_wf_cons hwf
  have hlt := group_token_left hleft
  have hspos := groupOpened_spos (t :: ts) hlt.le
  simp only [assemble, List.length_cons] at hleft
  obtain ⟨d', hrun, h⟩ := tokensOp_fits (d := groupOpened (t :: ts) s.dec)
    (mode_of_lt hb (hspos.trans_lt hlt)) (by rw [hspos]; exact le_of_eq_of_le (by omega) hleft) hoff hroom
  have hgroup : exec (.group (t :: ts)) s = .next { s with dec := d' } :=
    (exec_group_eq hb hlt).trans (onDec_of_ok hrun)
  refine ⟨{ s with dec := d' }, hgroup, ?_, h.output, h.cmap, ?_, ?_⟩
  · have hconsumed := h.spos
    simp only [assemble, List.length_cons]
    omega
  · have hcount : (7 + (t :: ts).length) % 8 = (t :: ts).length - 1 := by
      rw [List.length_cons] at hle ⊢; omega
    exact h.cmask.trans (hcount ▸ nextTokenMask_iterate (k := 7) (by omega) _)
  · have hmode := h.mode
    rwa [h.slen] at hmode

/-! ### A GROUP in the stream -/

/-- Bytes that stand in the stream at the cursor. -/
def StandsAt (bytes : List Byte) (d : Dec) : Prop :=
  d.spos.toNat + bytes.length ≤ d.slen.toNat ∧
    ∀ k (h : k < bytes.length), cellRead d.src (d.spos.toNat + k) = bytes[k]

theorem StandsAt.left {xs ys : List Byte} {d : Dec} (h : StandsAt (xs ++ ys) d) : StandsAt xs d := by
  obtain ⟨hlen, hread⟩ := h
  rw [List.length_append] at hlen
  refine ⟨by omega, fun k hk => ?_⟩
  rw [hread k (by rw [List.length_append]; omega), List.getElem_append_left hk]

/-- Past the first bytes the others stand at the cursor. -/
theorem StandsAt.right {xs ys : List Byte} {d d' : Dec} (h : StandsAt (xs ++ ys) d) (hsrc : d'.src = d.src)
    (hslen : d'.slen = d.slen) (hspos : d'.spos.toNat = d.spos.toNat + xs.length) : StandsAt ys d' := by
  obtain ⟨hlen, hread⟩ := h
  rw [List.length_append] at hlen
  refine ⟨by rw [hspos, hslen]; omega, fun k hk => ?_⟩
  rw [hspos, hsrc, Nat.add_assoc, hread _ (by rw [List.length_append]; omega),
    List.getElem_append_right (Nat.le_add_right _ _)]
  simp only [Nat.add_sub_cancel_left]

/-- Where a token's bytes stand, the micro-operation of its kind runs it. -/
theorem decTokenOp_eq_runToken {t : Token} {d : Dec} (h : StandsAt (tokenBytes t) d) :
    (if tokenIsMatch t then decMatchOp d else decLitOp d) = runToken t d := by
  obtain ⟨hlen, hread⟩ := h
  cases t with
  | lit b =>
    have hbyte : cellRead d.src d.spos.toNat = b := hread 0 (by simp [tokenBytes])
    rw [tokenIsMatch, if_neg Bool.false_ne_true, decLitOp_active hlen, hbyte]
    rfl
  | mat len off =>
    have hbyte0 : cellRead d.src d.spos.toNat = byte0Of len off := hread 0 (by simp [tokenBytes])
    have hbyte1 : cellRead d.src (d.spos.toNat + 1) = byte1Of off := hread 1 (by simp [tokenBytes])
    rw [tokenIsMatch, if_pos rfl, decMatchOp_whole hlen, hbyte0, hbyte1, lenOfByte0_byte0Of, offOfBytes_encoded]
    rfl

/-! ### A token does not look at the wires (10 R23) -/

theorem pushDdst_clearDecWires (b : Byte) (d : Dec) :
    pushDdst b (clearDecWires d) = (pushDdst b d).map clearDecWires := by
  by_cases h : d.dpos.toNat < d.dcap.toNat <;> simp [pushDdst, writeDdst, h] <;> rfl

theorem advanceDec_clearDecWires (n : Nat) (d : Dec) :
    advanceDec n (clearDecWires d) = (advanceDec n d).map clearDecWires := by
  by_cases h : d.spos.toNat + n ≤ d.slen.toNat <;> simp [advanceDec, h] <;> rfl

theorem replayFrom_clearDecWires (off : Nat) : ∀ (n : Nat) (d : Dec),
    replayFrom off n (clearDecWires d) = (replayFrom off n d).map clearDecWires
  | 0, _ => rfl
  | n + 1, d => by
    have hread : replayByte (clearDecWires d) off = replayByte d off := rfl
    rw [replayFrom, replayFrom, hread]
    cases replayByte d off with
    | error r => rfl
    | ok v =>
      rw [ok_bind, ok_bind, pushDdst_clearDecWires]
      cases pushDdst v d with
      | error r => rfl
      | ok d1 => exact replayFrom_clearDecWires off n d1

theorem litOp_clearDecWires (b : Byte) (d : Dec) : litOp b (clearDecWires d) = (litOp b d).map clearDecWires := by
  by_cases h : d.dcap.toNat ≤ d.dpos.toNat
  · rw [litOp, litOp, if_pos h, if_pos (by exact h)]
    rfl
  · rw [litOp, litOp, if_neg h, if_neg (by exact h), pushDdst_clearDecWires]
    cases pushDdst b d with
    | error r => rfl
    | ok d1 => exact advanceDec_clearDecWires 1 d1

/-- The match drives its own fields onto the wires before the replay, which does not look at them. -/
theorem matchOp_clearDecWires (len : LenField) (off : OffField) (d : Dec) :
    (matchOp len off (clearDecWires d)).map clearDecWires = (matchOp len off d).map clearDecWires := by
  by_cases hbad : d.slen.toNat < d.spos.toNat + 2 ∨ d.dpos.toNat < off.toNat ∨ off = 0
  · rw [matchOp_badData hbad, matchOp_badData (d := clearDecWires d) hbad]
    rfl
  obtain ⟨hs, hback, hne⟩ := not_or.mp hbad |>.imp_right not_or.mp
  by_cases hroom : d.dcap.toNat < d.dpos.toNat + mlenOf len
  · rw [matchOp_wouldOverflow (not_lt.mp hs) (not_lt.mp hback) hne hroom,
      matchOp_wouldOverflow (d := clearDecWires d) (not_lt.mp hs) (not_lt.mp hback) hne hroom]
    rfl
  · rw [matchOp_accepted (not_lt.mp hs) (not_lt.mp hback) hne (not_lt.mp hroom),
      matchOp_accepted (d := clearDecWires d) (not_lt.mp hs) (not_lt.mp hback) hne (not_lt.mp hroom),
      ← replayFrom_clearDecWires, ← replayFrom_clearDecWires]
    rfl

/-- Which wires are driven makes no difference to a token once the step lets them go. -/
theorem runToken_clearDecWires (t : Token) (d : Dec) :
    (runToken t (clearDecWires d)).map clearDecWires = (runToken t d).map clearDecWires := by
  cases t with
  | lit b =>
    rw [runToken, litOp_clearDecWires, runToken]
    cases litOp b d <;> rfl
  | mat len off => exact matchOp_clearDecWires len off d

theorem endToken_clearDecWires (d : Dec) : endToken (clearDecWires d) = endToken d := by
  unfold endToken finishDecIfEnd
  by_cases h : d.mode = .busy ∧ d.spos = d.slen
  · rw [if_pos h, if_pos (by exact h)]
    rfl
  · rw [if_neg h, if_neg (by exact h)]
    rfl

/-- Two decoders that differ in their wires only end a token's step alike. -/
theorem runToken_endToken_congr {t : Token} {d d' : Dec} (h : clearDecWires d = clearDecWires d') :
    (runToken t d >>= fun d1 => .ok (endToken d1)) = runToken t d' >>= fun d1 => .ok (endToken d1) := by
  have hclear : ∀ x : Except Fault Dec,
      (x >>= fun d1 => .ok (endToken d1)) = x.map clearDecWires >>= fun d1 => .ok (endToken d1) := fun x => by
    cases x with
    | error r => rfl
    | ok d1 => exact congrArg Except.ok (endToken_clearDecWires d1).symm
  rw [hclear, ← runToken_clearDecWires, h, runToken_clearDecWires, ← hclear]

/-! ### The token steps on a group's bytes (30 R97, 43 R182, R191) -/

/-- The copy-map bit a token mask points at. -/
theorem mapBit_eq_getLsbD (cmap : Byte) {k : Nat} (hk : k < 8) : mapBit cmap (1#9 <<< k) = cmap.getLsbD k := by
  have hmask : ∀ k < 8, maskBits (1#9 <<< k) = BitVec.twoPow 8 k ∧ BitVec.twoPow 8 k ≠ 0 := by decide
  obtain ⟨hbits, hne⟩ := hmask k hk
  rw [mapBit, hbits, BitVec.and_twoPow]
  cases cmap.getLsbD k with
  | false => rfl
  | true => simpa using hne

/-- No group opens after a token that is not its group's last. -/
theorem isNewGroup_shiftMask_token : ∀ k < 7, isNewGroup (shiftMask (1#9 <<< k)) = false := by decide

theorem nextTokenMask_of_inside {m : BitVec 9} (h : isNewGroup (shiftMask m) = false) :
    nextTokenMask m = shiftMask m := by
  rw [nextTokenMask, h]; rfl

/-- Where a token's bytes stand and its copy-map bit says its kind, the decoder's step is the given token's step. -/
theorem decStepOp_eq_tokenStepOp {t : Token} {d d0 : Dec}
    (hframe : decFrameOp d = .ok { d0 with cmask := nextTokenMask d0.cmask }) (hb : d0.mode = .busy)
    (hat : StandsAt (tokenBytes t) d0) (hbit : mapBit d0.cmap (nextTokenMask d0.cmask) = tokenIsMatch t) :
    decStepOp d = tokenStepOp t d0 := by
  have htoken := decTokenOp_eq_runToken (d := selected { d0 with cmask := nextTokenMask d0.cmask }) hat
  rw [decStepOp_of_frame hframe hb]
  simp only [hbit, htoken]
  exact runToken_endToken_congr rfl

/-- The decoder after the token at position `k` of a group, with the bytes of the group's other tokens to come. -/
structure AfterToken (k : Nat) (ts : List Token) (d : Dec) : Prop where
  bytes : StandsAt (tokensBytes ts) d
  mask : d.cmask = 1#9 <<< k
  bits : MapSays (k + 1) ts d.cmap

/-- A given token's step that leaves the call going stands after that token. -/
theorem AfterToken.of_step {t : Token} {ts : List Token} {k : Nat} {d d' : Dec}
    (hbytes : StandsAt (tokensBytes (t :: ts)) d) (hmask : nextTokenMask d.cmask = 1#9 <<< k)
    (hbits : MapSays k (t :: ts) d.cmap) (hstep : tokenStepOp t d = .ok d') (hb : d'.mode = .busy) :
    AfterToken k ts d' := by
  obtain ⟨d1, hrun, rfl⟩ := tokenStepOp_eq_ok.mp hstep
  obtain ⟨hleft, heq⟩ := runToken_frame hrun (endToken_of_busy hb).1
  have hspos : d1.spos.toNat = d.spos.toNat + (tokenBytes t).length := by
    rw [heq]; exact wordOf_toNat_of_le hleft
  refine ⟨hbytes.right ?_ ?_ ?_, ?_, ?_⟩
  · rw [endToken_src, heq]
  · rw [endToken_slen, heq]
  · rw [endToken_spos, hspos]
  · rw [endToken_cmask, heq]; exact hmask
  · rw [endToken_cmap, heq]; exact hbits.tail

/-- After a token of a group the decoder's step is the step of the group's next token. -/
theorem AfterToken.decStepOp_eq {t : Token} {ts : List Token} {k : Nat} {d : Dec} (h : AfterToken k (t :: ts) d)
    (hb : d.mode = .busy) : decStepOp d = tokenStepOp t d ∧ nextTokenMask d.cmask = 1#9 <<< (k + 1) := by
  obtain ⟨hbytes, hmask, hbits⟩ := h
  have hk : k + 1 < 8 := by
    have hlen := hbits.1
    rw [List.length_cons] at hlen
    omega
  have hg : isNewGroup (shiftMask d.cmask) = false := hmask ▸ isNewGroup_shiftMask_token k (by omega)
  have hnext : nextTokenMask d.cmask = 1#9 <<< (k + 1) := by
    rw [hmask, nextTokenMask_shift k (by omega), Nat.mod_eq_of_lt hk]
  refine ⟨decStepOp_eq_tokenStepOp ?_ hb hbytes.left ?_, hnext⟩
  · rw [nextTokenMask_of_inside hg]; exact decFrameOp_inside hg
  · rw [hnext, mapBit_eq_getLsbD _ hk]; exact hbits.head

/-- A list of given tokens is as many `D.STEP`s when its first token's step is one and the rest are. -/
theorem tokensOp_cons_eq_dSteps {t : Token} {ts : List Token} {s s0 : State}
    (hfirst : onDec (whenDec (tokenStepOp t)) s0 = exec .dStep s)
    (hrest : ∀ s1, onDec (whenDec (tokenStepOp t)) s0 = .next s1 →
      onDec (tokensOp ts) s1 = execAll (List.replicate ts.length .dStep) s1) :
    onDec (tokensOp (t :: ts)) s0 = execAll (List.replicate (t :: ts).length .dStep) s := by
  have hsplit : onDec (tokensOp (t :: ts)) s0 = andThen (onDec (whenDec (tokenStepOp t)) s0) (onDec (tokensOp ts)) :=
    onDec_bind _ _ s0
  rw [hsplit, List.length_cons, List.replicate_succ, execAll, ← hfirst]
  cases hstep : onDec (whenDec (tokenStepOp t)) s0 with
  | next s1 => exact hrest s1 hstep
  | fault r => rfl
  | refused r => rfl

/-- What a token's step leaves a group's other tokens with, if the call goes on. -/
theorem afterToken_of_onDec {t : Token} {ts : List Token} {k : Nat} {s0 s1 : State}
    (hbytes : StandsAt (tokensBytes (t :: ts)) s0.dec) (hmask : nextTokenMask s0.dec.cmask = 1#9 <<< k)
    (hbits : MapSays k (t :: ts) s0.dec.cmap) (h0 : s0.dec.mode = .busy)
    (h : onDec (whenDec (tokenStepOp t)) s0 = .next s1) (hb : s1.dec.mode = .busy) : AfterToken k ts s1.dec := by
  obtain ⟨d1, hwhen, rfl⟩ := onDec_eq_next.mp h
  rcases whenDec_eq_ok.mp hwhen with ⟨hidle, -⟩ | ⟨-, -, hstep⟩
  · exact absurd h0 hidle
  · exact .of_step hbytes hmask hbits hstep hb

theorem tokensOp_eq_dSteps : ∀ {ts : List Token} {k : Nat} {s : State},
    (s.dec.mode = .busy → AfterToken k ts s.dec) →
      onDec (tokensOp ts) s = execAll (List.replicate ts.length .dStep) s
  | [], _, _, _ => rfl
  | t :: ts, k, s, hat => by
    by_cases hb : s.dec.mode = .busy
    · obtain ⟨hsame, hnext⟩ := (hat hb).decStepOp_eq hb
      have hfirst : onDec (whenDec (tokenStepOp t)) s = exec .dStep s := by
        rw [exec_dStep, onDec, onDec, whenDec, whenDec, hsame]
      exact tokensOp_cons_eq_dSteps hfirst fun s1 hstep =>
        tokensOp_eq_dSteps (afterToken_of_onDec (hat hb).bytes hnext (hat hb).bits hb hstep)
    · have hfirst : onDec (whenDec (tokenStepOp t)) s = exec .dStep s := by
        rw [exec_dStep, onDec, onDec, whenDec_not_busy hb, whenDec_not_busy hb]
      refine tokensOp_cons_eq_dSteps hfirst fun s1 hstep => tokensOp_eq_dSteps (k := k) fun hb1 => ?_
      rw [onDec, whenDec_not_busy hb] at hstep
      cases hstep
      exact absurd hb1 hb

/-- Settles O56: the first `D.STEP` reads the MAP byte and runs token 0, every other one the next token of the group. -/
theorem groupIsItsTokenSteps : Obligations.GroupIsItsTokenSteps := by
  intro s toks hb hwf hmask hleft hread
  obtain ⟨t, ts, rfl, hle⟩ := group_wf_cons hwf
  have hlt := group_token_left hleft
  have hstands : StandsAt ([groupMap (t :: ts)] ++ tokensBytes (t :: ts)) s.dec := ⟨hleft, hread⟩
  have hspos := groupOpened_spos (t :: ts) hlt.le
  have htokens : StandsAt (tokensBytes (t :: ts)) (groupOpened (t :: ts) s.dec) := hstands.right rfl rfl hspos
  have hbits : MapSays 0 (t :: ts) (groupOpened (t :: ts) s.dec).cmap := mapSays_groupMap hle
  have hframe : decFrameOp s.dec = .ok { groupOpened (t :: ts) s.dec with
      cmask := nextTokenMask (groupOpened (t :: ts) s.dec).cmask } := by
    have hbyte : cellRead s.dec.src s.dec.spos.toNat = groupMap (t :: ts) := hstands.left.2 0 (by simp)
    rw [decFrameOp_boundary (by rw [hmask]; rfl) (by omega), hbyte]
    exact mapOp_inside hlt
  have hfirst : decStepOp s.dec = tokenStepOp t (groupOpened (t :: ts) s.dec) :=
    decStepOp_eq_tokenStepOp hframe hb htokens.left
      ((mapBit_eq_getLsbD (k := 0) _ (by omega)).trans hbits.head)
  have hstep : onDec (whenDec (tokenStepOp t)) { s with dec := groupOpened (t :: ts) s.dec } = exec .dStep s := by
    rw [exec_dStep, onDec, onDec, whenDec_active hb (by omega), hfirst]
    rw [whenDec_active (d := groupOpened (t :: ts) s.dec) hb (hspos.trans_lt hlt)]
  rw [exec_group_eq hb hlt]
  exact tokensOp_cons_eq_dSteps hstep fun s1 h1 =>
    tokensOp_eq_dSteps
      (afterToken_of_onDec (s0 := { s with dec := groupOpened (t :: ts) s.dec }) (k := 0) htokens rfl hbits hb h1)

end Sys2Proof.Machine
end

section
/-! PROOFS. The match finder's micro-operations, run by name in a token step. -/

namespace Sys2Proof.Machine

/-! ### What the instructions run on the encoder -/

theorem exec_eTailguard (s : State) : exec .eTailguard s = onEnc (whenEnc tailguardOp) s := rfl

theorem exec_eTlookup (s : State) : exec .eTlookup s = onEnc (whenEnc tlookupOp) s := rfl

theorem exec_eOffset (s : State) : exec .eOffset s = onEnc (whenEnc offsetOp) s := rfl

theorem exec_eCand (s : State) : exec .eCand s = onEnc (whenEnc candOp) s := rfl

theorem exec_eCmp3 (s : State) : exec .eCmp3 s = onEnc (whenEnc cmp3Op) s := rfl

theorem exec_eAccept (s : State) : exec .eAccept s = onEnc (whenEnc acceptOp) s := rfl

theorem exec_eAdvance (s : State) : exec .eAdvance s = onEnc (whenEnc advanceOp) s := rfl

/-- Inside a token step a micro-operation of the encoder that answers puts its answer into the state. -/
theorem onEnc_active {f : Enc → Except Fault Enc} {s : State} {e : Enc} (ha : encActive s.enc)
    (h : f s.enc = .ok e) : onEnc (whenEnc f) s = .next { s with enc := e } :=
  onEnc_of_ok ((whenEnc_active ha.1 ha.2).trans h)

/-! ### The computed operands (40 R120, R124, R125, R127) -/

theorem tailTest_iff (slen spos : Word) : tailTest slen spos = true ↔ slen.toNat - spos.toNat < 66 :=
  decide_eq_true_iff

theorem offsetInRange_iff (spos : Word) (off : OffField) :
    offsetInRange spos off = true ↔ off.toNat ≤ spos.toNat :=
  decide_eq_true_iff

theorem acceptTest_iff (inrange : Bool) (off : OffField) (eq3 : Bool) :
    acceptTest inrange off eq3 = true ↔ inrange = true ∧ off ≠ 0 ∧ eq3 = true := by
  simp [acceptTest, and_assoc]

/-- The offset is the difference modulo 1024 of two positions in either order. -/
theorem matchOffset_toNat (spos old : Word) :
    ((matchOffset spos old).toNat : Int) = ((spos.toNat : Int) - (old.toNat : Int)) % 1024 := by
  have hspos := spos.isLt
  have hold := old.isLt
  simp only [matchOffset, BitVec.toNat_setWidth, BitVec.toNat_sub]
  omega

/-- The offset of a past position is in range: reducing the difference modulo 1024 only makes it smaller. -/
theorem offsetInRange_of_past {spos old : Word} (h : old.toNat ≤ spos.toNat) :
    offsetInRange spos (matchOffset spos old) = true := by
  have hoff := matchOffset_toNat spos old
  rw [offsetInRange_iff]
  omega

theorem candidate_toNat {spos : Word} {off : OffField} (h : offsetInRange spos off = true) :
    (candidate spos off).toNat = spos.toNat - off.toNat := by
  rw [candidate, if_pos h]
  exact wordOf_toNat_of_le (Nat.sub_le _ _)

/-! ### The comparator (40 R126) -/

/-- The three bytes at the cursor equal the three at the candidate. -/
def candidateEqual (e : Enc) : Bool :=
  cellRead e.src e.spos.toNat == cellRead e.src e.w.cand.toNat &&
    cellRead e.src (e.spos.toNat + 1) == cellRead e.src (e.w.cand.toNat + 1) &&
    cellRead e.src (e.spos.toNat + 2) == cellRead e.src (e.w.cand.toNat + 2)

theorem candidateEqual_iff (e : Enc) : candidateEqual e = true ↔
    ∀ k < 3, cellRead e.src (e.spos.toNat + k) = cellRead e.src (e.w.cand.toNat + k) := by
  simp only [candidateEqual, Bool.and_eq_true, beq_iff_eq, and_assoc]
  constructor
  · rintro ⟨h0, h1, h2⟩ k hk
    match k with
    | 0 => exact h0
    | 1 => exact h1
    | 2 => exact h2
  · exact fun h => ⟨h 0 (by omega), h 1 (by omega), h 2 (by omega)⟩

theorem cmp3Op_evaluated {e e' : Enc} (hr : e.w.inrange = true) (ho : e.w.off ≠ 0) :
    cmp3Op e = .ok e' ↔ e.spos.toNat + 2 < e.slen.toNat ∧ e.w.cand.toNat + 2 < e.slen.toNat ∧
      e' = { e with w := { e.w with eq3 := candidateEqual e } } := by
  have hcond : (e.w.inrange && e.w.off != 0) = true := by rw [Bool.and_eq_true, bne_iff_ne]; exact ⟨hr, ho⟩
  simp only [cmp3Op, hcond, if_true, bind_eq_ok, readEsrc_eq_ok, pure_eq_ok, Except.ok.injEq]
  constructor
  · rintro ⟨_, ⟨-, rfl⟩, _, ⟨-, rfl⟩, _, ⟨-, rfl⟩, _, ⟨-, rfl⟩, _, ⟨hs, rfl⟩, _, ⟨hc, rfl⟩, rfl⟩
    exact ⟨hs, hc, rfl⟩
  · rintro ⟨hs, hc, rfl⟩
    exact ⟨_, ⟨by omega, rfl⟩, _, ⟨by omega, rfl⟩, _, ⟨by omega, rfl⟩, _, ⟨by omega, rfl⟩, _, ⟨hs, rfl⟩, _,
      ⟨hc, rfl⟩, rfl⟩

theorem cmp3Op_skipped {e : Enc} (h : ¬(e.w.inrange = true ∧ e.w.off ≠ 0)) : cmp3Op e = .ok e := by
  rw [cmp3Op, if_neg (by rwa [Bool.and_eq_true, bne_iff_ne])]

/-! ### The cursor (40 R129) -/

theorem tokenSpan_literal {w : EncWires} (h : w.tail = true ∨ w.accept = false) : tokenSpan w = 1 := by
  rcases h with h | h <;> simp [tokenSpan, h]

theorem tokenSpan_match {w : EncWires} (ht : w.tail = false) (ha : w.accept = true) : tokenSpan w = mlenOf w.len := by
  simp [tokenSpan, ht, ha]

/-- A token that fits the source moves the cursor by the bytes it covers and changes nothing else. -/
theorem exec_eAdvance_of_fits {s : State} (ha : encActive s.enc) {n : Nat} (hn : tokenSpan s.enc.w = n)
    (hfit : s.enc.spos.toNat + n ≤ s.enc.slen.toNat) :
    ∃ p : Word, exec .eAdvance s = .next { s with enc := { s.enc with spos := p } } ∧
      p.toNat = s.enc.spos.toNat + n := by
  refine ⟨wordOf (s.enc.spos.toNat + n), ?_, wordOf_toNat_of_le hfit⟩
  rw [exec_eAdvance]
  refine onEnc_active ha ?_
  rw [advanceOp, hn]
  exact advanceEnc_of_le hfit

/-! ### The instructions -/

/-- Settles O27, from the two tests in plain numbers. -/
theorem guardAndAccept : Obligations.GuardAndAccept := by
  intro s ha
  rw [exec_eTailguard, exec_eAccept]
  exact ⟨tailTest s.enc.slen s.enc.spos, acceptTest s.enc.w.inrange s.enc.w.off s.enc.w.eq3, onEnc_active ha rfl,
    tailTest_iff _ _, onEnc_active ha rfl, acceptTest_iff _ _ _⟩

/-- Settles O29: the lookup's answer, and the table read after one write. -/
theorem lookupExchanges : Obligations.LookupExchanges := by
  intro s ha
  rw [exec_eTlookup]
  exact ⟨_, onEnc_active ha rfl, rfl, fun i => cellRead_write s.enc.table s.enc.w.idx.toNat i s.enc.spos⟩

/-- Settles O30, from the value of the offset and of a candidate in range. -/
theorem offsetAndCandidate : Obligations.OffsetAndCandidate := by
  intro s ha
  rw [exec_eOffset, exec_eCand]
  exact ⟨⟨matchOffset s.enc.spos s.enc.w.old, onEnc_active ha rfl, matchOffset_toNat _ _⟩,
    offsetInRange s.enc.spos s.enc.w.off, candidate s.enc.spos s.enc.w.off, onEnc_active ha rfl,
    offsetInRange_iff _ _, candidate_toNat⟩

/-- Settles O31: a candidate not above the cursor has its three bytes wherever the cursor has. -/
theorem compareThreeBytes : Obligations.CompareThreeBytes := by
  intro s ha
  rw [exec_eCmp3]
  refine ⟨fun ⟨hr, ho⟩ hs hc => ?evaluated, fun hskip => ?skipped⟩
  case evaluated =>
    have hcmp := (cmp3Op_evaluated hr ho).mpr ⟨hs, by omega, rfl⟩
    exact ⟨candidateEqual s.enc, onEnc_active ha hcmp, candidateEqual_iff s.enc⟩
  case skipped => exact onEnc_active ha (cmp3Op_skipped hskip)

/-- Settles O32: a literal fits because a token step has a source byte left, a match by hypothesis. -/
theorem advanceMovesCursor : Obligations.AdvanceMovesCursor := fun _ ha =>
  ⟨fun hlit => exec_eAdvance_of_fits ha (tokenSpan_literal hlit) ha.2,
    fun htail hacc hfit => exec_eAdvance_of_fits ha (tokenSpan_match htail hacc) hfit⟩

end Sys2Proof.Machine
end

section
/-! PROOFS. What the match finder guarantees: a table of past positions, and accepted matches that are genuine. -/

namespace Sys2Proof.Machine

/-! ### The table holds past positions (40 R130) -/

theorem TablePast.start {e : Enc} (hb : e.mode ≠ .busy) : TablePast (startEnc e) := fun i => by
  rw [startEnc_table e hb, cellRead_nil]
  exact Nat.zero_le _

/-- Only `table` and `spos` are asked about, and the cursor may move up. -/
theorem TablePast.mono {e e' : Enc} (h : TablePast e) (ht : e'.table = e.table) (hs : e.spos.toNat ≤ e'.spos.toNat) :
    TablePast e' := fun i => by
  rw [ht]
  exact (h i).trans hs

/-- The lookup records the cursor itself. -/
theorem TablePast.lookup {e : Enc} {t : Table} (h : TablePast e) (ht : TokenTable e t) :
    TablePast { e with table := t } := fun i => by
  rcases ht with rfl | ⟨j, rfl⟩
  · exact h i
  · simp only [cellRead_write]
    split
    · exact le_refl _
    · exact h i

theorem TablePast.token {e e' : Enc} (h : TablePast e) (htok : tokenOp e = .ok e') : TablePast e' := by
  obtain ⟨w, t, ht, ⟨hs, -, rfl⟩ | ⟨hs, -, rfl⟩⟩ := tokenOp_cases htok
  · have hcur : (litToken e w t).spos.toNat = e.spos.toNat + 1 := wordOf_toNat_of_le hs
    exact (h.lookup ht).mono rfl (hcur ▸ Nat.le_add_right _ _)
  · have hcur : (matchToken e w t).spos.toNat = e.spos.toNat + mlenOf w.len := wordOf_toNat_of_le hs
    exact (h.lookup ht).mono rfl (hcur ▸ Nat.le_add_right _ _)

@[simp] theorem finishEncIfEnd_table (e : Enc) : (finishEncIfEnd e).table = e.table := by
  unfold finishEncIfEnd; split <;> rfl

@[simp] theorem finishEncIfEnd_spos (e : Enc) : (finishEncIfEnd e).spos = e.spos := by
  unfold finishEncIfEnd; split <;> rfl

theorem TablePast.encStep {e e' : Enc} (h : TablePast e) (ha : encActive e) (hop : encStepOp e = .ok e') :
    TablePast e' := by
  rcases encStepOp_cases ha hop with ⟨-, -, rfl⟩ | ⟨-, e1, htok, rfl⟩
  · exact h
  · have hframed : TablePast (framed e) := h.mono (framed_table e) (by rw [framed_spos])
    exact (hframed.token htok).mono (by simp) (by simp)

/-- Settles O14: the cursor never moves down and the only position ever recorded is the cursor. -/
theorem candidateAlwaysInRange : Obligations.CandidateAlwaysInRange := by
  refine ⟨fun e hb => .start hb, fun s t h hb hstep => ?_, fun e h idx => offsetInRange_of_past (h idx.toNat)⟩
  rw [exec_eStep] at hstep
  obtain ⟨e', hop, rfl⟩ := onEnc_eq_next.mp hstep
  rcases whenEnc_eq_ok.mp hop with ⟨hidle, -⟩ | ⟨-, hs, hop⟩
  · exact absurd hb hidle
  · exact h.encStep ⟨hb, hs⟩ hop

/-! ### Accepted matches (40 R131, 42 R155) -/

/-- The encoder at an accepted candidate: a past position, not the cursor, whose three bytes equal those at the cursor.
Nothing of it depends on the table. -/
structure CandidateAccepted (e : Enc) : Prop where
  offNonzero : e.w.off ≠ 0
  inRange : e.w.off.toNat ≤ e.spos.toNat
  cand : e.w.cand.toNat = e.spos.toNat - e.w.off.toNat
  equal : candidateEqual e = true

/-- A comparison whose answer passes the acceptance test was evaluated, and found the bytes equal. -/
theorem cmp3Op_passed {e e' : Enc} (h : cmp3Op e = .ok e')
    (hpass : acceptTest e'.w.inrange e'.w.off e'.w.eq3 = true) :
    e.w.inrange = true ∧ e.w.off ≠ 0 ∧ candidateEqual e = true ∧ e' = { e with w := { e.w with eq3 := true } } := by
  obtain ⟨b, rfl⟩ := cmp3Op_frame h
  obtain ⟨hr, ho, rfl⟩ := (acceptTest_iff _ _ _).mp hpass
  obtain ⟨-, -, hanswer⟩ := (cmp3Op_evaluated (e := e) hr ho).mp h
  have heq : true = candidateEqual e := congrArg (fun a : Enc => a.w.eq3) hanswer
  exact ⟨hr, ho, heq.symm, rfl⟩

/-- The acceptance test passes only accepted candidates, of the same cursor and source. -/
theorem acceptOp_accepted {e e1 e2 e3 : Enc} (hcand : candOp e = .ok e1) (hcmp : cmp3Op e1 = .ok e2)
    (hop : acceptOp e2 = .ok e3) (hacc : e3.w.accept = true) :
    CandidateAccepted e3 ∧ e3.spos = e.spos ∧ e3.src = e.src := by
  cases hop
  obtain ⟨hr, ho, heq, rfl⟩ := cmp3Op_passed hcmp hacc
  cases hcand
  exact ⟨⟨ho, (offsetInRange_iff _ _).mp hr, candidate_toNat hr, heq⟩, rfl, rfl⟩

theorem findOp_accepted {e e' : Enc} (h : findOp e = .ok e') (hacc : e'.w.accept = true) :
    CandidateAccepted e' ∧ e'.spos = e.spos ∧ e'.src = e.src := by
  simp only [findOp, bind_eq_ok] at h
  obtain ⟨e1, hhash, e2, hindex, e3, hlookup, e4, hoffset, e5, hcand, e6, hcmp, haccept⟩ := h
  have hfound := acceptOp_accepted hcand hcmp haccept hacc
  obtain ⟨-, rfl⟩ := hash3Op_eq_ok.mp hhash
  cases hindex
  cases hlookup
  cases hoffset
  exact hfound

/-- The extender's length: every pair after the first three is equal, and below 66 the pair it stops at is not. -/
theorem extendOp_greedy {e e' : Enc} (h : extendOp e = .ok e') :
    ∃ l : LenField, e' = { e with w := { e.w with len := l } } ∧
      (∀ k, 3 ≤ k → k < mlenOf l → cellRead e.src (e.spos.toNat + k) = cellRead e.src (e.w.cand.toNat + k)) ∧
      (mlenOf l < 66 → cellRead e.src (e.spos.toNat + mlenOf l) ≠ cellRead e.src (e.w.cand.toNat + mlenOf l)) := by
  simp only [extendOp, bind_eq_ok, pure_eq_ok, Except.ok.injEq] at h
  obtain ⟨m, hext, rfl⟩ := h
  obtain ⟨hmin, hmax, hequal, hstop⟩ := extendFrom_eq_ok hext
  refine ⟨lenFieldOf m, rfl, ?_⟩
  rw [mlenOf_lenFieldOf hmin hmax]
  exact ⟨hequal, hstop⟩

/-- Settles O33: the comparator saw the first three pairs, the extender every later one and the pair it stopped at. -/
theorem acceptedMatchIsGenuine : Obligations.AcceptedMatchIsGenuine := by
  intro e e1 e2 _ hfind hacc hext
  obtain ⟨⟨ho, hr, hcand, hthree⟩, hspos, hsrc⟩ := findOp_accepted hfind hacc
  obtain ⟨l, rfl, hequal, hstop⟩ := extendOp_greedy hext
  have hfirst := (candidateEqual_iff e1).mp hthree
  rw [hcand, hspos, hsrc] at hfirst hequal hstop
  rw [hspos] at hr
  refine ⟨Nat.pos_of_ne_zero fun h0 => ho (BitVec.eq_of_toNat_eq h0), hr, hspos, hsrc, fun k hk => ?_, hstop⟩
  rcases Nat.lt_or_ge k 3 with hlt | hge
  · exact hfirst k hlt
  · exact hequal k hge hk

end Sys2Proof.Machine
end

section
/-! PROOFS. The encoder's token as a function: what the match finder finds, and that every part of the token answers. -/

namespace Sys2Proof.Machine

/-! ### The match finder's answer (42 R158 parts 3 and 4) -/

/-- The encoder after the tail guard (40 R120). -/
def tailGuarded (e : Enc) : Enc := { e with w := { e.w with tail := tailTest e.slen e.spos } }

/-- The encoder with its candidate located, the cursor recorded in the table on the way (40 R121 to R125). -/
def located (e : Enc) : Enc :=
  let h := hash3 (cellRead e.src e.spos.toNat) (cellRead e.src (e.spos.toNat + 1)) (cellRead e.src (e.spos.toNat + 2))
  let idx := tableIndex h
  let old := cellRead e.table idx.toNat
  let off := matchOffset e.spos old
  { e with
    w := { e.w with
      h := h, idx := idx, old := old, off := off, inrange := offsetInRange e.spos off, cand := candidate e.spos off }
    table := cellWrite e.table idx.toNat e.spos }

/-- The comparator's wire after the comparison: driven where the comparison is evaluated (40 R126, R127). -/
def comparedWire (e : Enc) : Bool := if e.w.inrange && e.w.off != 0 then candidateEqual e else e.w.eq3

/-- The encoder after the match finder. -/
def found (e : Enc) : Enc :=
  let e1 := located e
  { e1 with w := { e1.w with
      eq3 := comparedWire e1, accept := acceptTest e1.w.inrange e1.w.off (comparedWire e1) } }

/-- The match finder drives wires and writes the table, to values that depend on neither the destination nor its
capacity. -/
theorem found_frame (e : Enc) : ∃ (w : EncWires) (t : Table),
    found (tailGuarded e) = { e with w := w, table := t } ∧
      ∀ (m : Mem) (n : Word), found (tailGuarded { e with dst := m, dlen := n }) =
        { e with w := w, table := t, dst := m, dlen := n } :=
  ⟨(found (tailGuarded e)).w, (found (tailGuarded e)).table, rfl, fun _ _ => rfl⟩

/-- The comparison answers wherever the cursor has three bytes: a candidate in range is not above the cursor. -/
theorem cmp3Op_of_cand {e : Enc} (hc : e.w.inrange = true → e.w.cand.toNat ≤ e.spos.toNat)
    (hs : e.spos.toNat + 2 < e.slen.toNat) :
    cmp3Op e = .ok { e with w := { e.w with eq3 := comparedWire e } } := by
  by_cases hev : e.w.inrange = true ∧ e.w.off ≠ 0
  · obtain ⟨hr, ho⟩ := hev
    have hcand := hc hr
    have hwire : comparedWire e = candidateEqual e := by
      rw [comparedWire, if_pos (by rw [Bool.and_eq_true, bne_iff_ne]; exact ⟨hr, ho⟩)]
    rw [hwire]
    exact (cmp3Op_evaluated hr ho).mpr ⟨hs, by omega, rfl⟩
  · have hwire : comparedWire e = e.w.eq3 := by
      rw [comparedWire, if_neg (by rwa [Bool.and_eq_true, bne_iff_ne])]
    rw [hwire]
    exact cmp3Op_skipped hev

theorem located_cand_le (e : Enc) (hr : (located e).w.inrange = true) :
    (located e).w.cand.toNat ≤ (located e).spos.toNat :=
  (candidate_toNat hr).trans_le (Nat.sub_le _ _)

/-- The match finder answers wherever the cursor has three bytes. -/
theorem findOp_of_three {e : Enc} (h : e.spos.toNat + 2 < e.slen.toNat) : findOp e = .ok (found e) := by
  have hcmp := cmp3Op_of_cand (located_cand_le e) h
  rw [findOp, hash3Op_eq_ok.mpr ⟨h, rfl⟩, ok_bind]
  exact (congrArg (· >>= acceptOp) hcmp).trans rfl

/-- An accepted candidate is not above the cursor. -/
theorem found_cand_le {e : Enc} (hacc : (found e).w.accept = true) : (found e).w.cand.toNat ≤ e.spos.toNat :=
  located_cand_le e ((acceptTest_iff _ _ _).mp hacc).1

/-! ### The token (42 R158 parts 2 to 5) -/

theorem tokenOp_of_tail {e : Enc} (h : tailTest e.slen e.spos = true) : tokenOp e = emitLitOp (tailGuarded e) := by
  have hw : (tailGuarded e).w.tail = true := h
  have hguard : tailguardOp e = .ok (tailGuarded e) := rfl
  rw [tokenOp, hguard, ok_bind, if_pos hw]

theorem tailTest_eq_false (slen spos : Word) : tailTest slen spos = false ↔ spos.toNat + 66 ≤ slen.toNat := by
  rw [← Bool.not_eq_true, tailTest_iff]
  omega

/-- The extender looks at the source, the cursor and the candidate only. -/
theorem extendFrom_congr {e e' : Enc} (hslen : e'.slen = e.slen) (hsrc : e'.src = e.src) (hspos : e'.spos = e.spos)
    (hcand : e'.w.cand = e.w.cand) : ∀ fuel m : Nat, extendFrom e' fuel m = extendFrom e fuel m
  | 0, _ => rfl
  | fuel + 1, m => by
    have hread : readEsrc e' = readEsrc e := funext fun a => by rw [readEsrc, readEsrc, hslen, hsrc]
    simp only [extendFrom, hread, hspos, hcand, extendFrom_congr hslen hsrc hspos hcand fuel]

/-- The match's part of a token: set the copy-map bit, extend, emit (42 R158 part 4). -/
def matchPart (e : Enc) : Except Fault Enc := setbitOp e >>= fun e1 => extendOp e1 >>= emitMatchOp

/-- The match's part answers a match token of the length the extender measures. -/
theorem matchPart_eq_ok {e e' : Enc} :
    matchPart e = .ok e' ↔ ∃ m, extendFrom e 63 3 = .ok m ∧ e.mapaddr.toNat < e.dlen.toNat ∧
      e.dpos.toNat + 1 < e.dlen.toNat ∧ e.spos.toNat + mlenOf (lenFieldOf m) ≤ e.slen.toNat ∧
      e' = matchToken e { e.w with len := lenFieldOf m } e.table := by
  have hsame : ∀ v d, extendFrom { e with mapval := v, dst := d } 63 3 = extendFrom e 63 3 := fun v d =>
    extendFrom_congr (e := e) (e' := { e with mapval := v, dst := d }) rfl rfl rfl rfl 63 3
  simp only [matchPart, extendOp, bind_eq_ok, setbitOp_eq_ok, pure_eq_ok, Except.ok.injEq]
  constructor
  · rintro ⟨_, ⟨hm, rfl⟩, _, ⟨m, hext, rfl⟩, hemit⟩
    obtain ⟨hd, hs, rfl⟩ := emitMatchOp_eq_ok.mp hemit
    exact ⟨m, (hsame _ _).symm.trans hext, hm, hd, hs, rfl⟩
  · rintro ⟨m, hext, hm, hd, hs, rfl⟩
    exact ⟨_, ⟨hm, rfl⟩, _, ⟨m, (hsame _ _).trans hext, rfl⟩, emitMatchOp_eq_ok.mpr ⟨hd, hs, rfl⟩⟩

/-- Before the tail the token is a match where the candidate found is accepted, else a literal. -/
theorem tokenOp_of_not_tail {e : Enc} (h : tailTest e.slen e.spos = false) :
    tokenOp e =
      if (found (tailGuarded e)).w.accept then matchPart (found (tailGuarded e))
      else emitLitOp (found (tailGuarded e)) := by
  have hw : (tailGuarded e).w.tail = false := h
  have hguard : tailguardOp e = .ok (tailGuarded e) := rfl
  have hthree : (tailGuarded e).spos.toNat + 2 < (tailGuarded e).slen.toNat := by
    have hbytes := (tailTest_eq_false _ _).mp h
    simp only [tailGuarded]
    omega
  rw [tokenOp, hguard, ok_bind, hw, if_neg Bool.false_ne_true, findOp_of_three hthree, ok_bind]
  rfl

/-- A candidate not above the cursor can be extended, and the match stays inside the source. -/
theorem matchPart_total {e : Enc} (hs : e.spos.toNat + 66 ≤ e.slen.toNat) (hc : e.w.cand.toNat ≤ e.spos.toNat)
    (hd : e.dpos.toNat + 2 ≤ e.dlen.toNat) (hm : e.mapaddr.toNat < e.dlen.toNat) : ∃ e', matchPart e = .ok e' := by
  obtain ⟨m, hext⟩ := extendFrom_total hc (fuel := 63) (m := 3) hs
  obtain ⟨hmin, hmax, -⟩ := extendFrom_eq_ok hext
  have hlen := mlenOf_lenFieldOf hmin hmax
  exact ⟨_, matchPart_eq_ok.mpr ⟨m, hext, hm, hd, by omega, rfl⟩⟩

theorem emitLitOp_total {e : Enc} (hs : e.spos.toNat < e.slen.toNat) (hd : e.dpos.toNat < e.dlen.toNat) :
    ∃ e', emitLitOp e = .ok e' :=
  ⟨_, emitLitOp_eq_ok.mpr ⟨hs, hd, rfl⟩⟩

/-- With a source byte left, two bytes of room and a copy-map byte inside the destination the token answers. -/
theorem tokenOp_total {e : Enc} (hs : e.spos.toNat < e.slen.toNat) (hd : e.dpos.toNat + 2 ≤ e.dlen.toNat)
    (hm : e.mapaddr.toNat < e.dlen.toNat) : ∃ e', tokenOp e = .ok e' := by
  have hroom : e.dpos.toNat < e.dlen.toNat := by omega
  cases ht : tailTest e.slen e.spos with
  | true =>
    rw [tokenOp_of_tail ht]
    exact emitLitOp_total hs hroom
  | false =>
    have hcand := @found_cand_le (tailGuarded e)
    obtain ⟨w, t, hfound, -⟩ := found_frame e
    rw [tokenOp_of_not_tail ht]
    rw [hfound] at hcand ⊢
    split
    case isTrue hacc =>
      exact matchPart_total (e := { e with w := w, table := t }) ((tailTest_eq_false _ _).mp ht) (hcand hacc) hd hm
    case isFalse => exact emitLitOp_total (e := { e with w := w, table := t }) hs hroom

/-! ### The whole token step (42 R158) -/

/-- The end of a token step: the end test, and the wires let go (42 R159, log entry 7). -/
def endEncToken (e : Enc) : Except Fault Enc := .ok (clearEncWires (finishEncIfEnd e))

/-- A token step whose frame step leaves the call going is the token and the end of the step. -/
theorem encStepOp_of_frame {e e1 : Enc} (hframe : frameOp e = .ok e1) (hb : e1.mode = .busy) :
    encStepOp e = tokenOp e1 >>= endEncToken := by
  rw [encStepOp, hframe, ok_bind, if_pos hb]
  rfl

/-- A frame step finds no headroom at a boundary, or it has what it needs. -/
theorem headroom_cases (e : Enc) :
    (isNewGroup (shiftMask e.cmask) = true ∧ e.dlen.toNat ≤ e.dpos.toNat + 17) ∨
      (isNewGroup (shiftMask e.cmask) = true → e.dpos.toNat + 17 < e.dlen.toNat) :=
  (em _).imp_right fun h hg => not_le.mp fun hle => h ⟨hg, hle⟩

/-- A token step without headroom is the fallback, the wires let go. -/
theorem encStepOp_of_no_headroom {e : Enc} (hg : isNewGroup (shiftMask e.cmask) = true)
    (hr : e.dlen.toNat ≤ e.dpos.toNat + 17) :
    encStepOp e = .ok (clearEncWires (fallbackEnc { e with cmask := 0x100 })) := by
  rw [encStepOp, frameOp_of_no_headroom hg hr, ok_bind, if_neg (by simp)]
  rfl

end Sys2Proof.Machine
end

section
/-! PROOFS. Every token step answers and makes progress, so a call ends. -/

namespace Sys2Proof.Machine

/-! ### The encoder's token step (42 R158 to R160) -/

theorem finishEncIfEnd_mode {e : Enc} (hb : e.mode = .busy) :
    (finishEncIfEnd e).mode = if e.spos = e.slen then .done else .busy := by
  unfold finishEncIfEnd
  split
  case isTrue => rfl
  case isFalse => exact hb

@[simp] theorem finishEncIfEnd_slen (e : Enc) : (finishEncIfEnd e).slen = e.slen := by
  unfold finishEncIfEnd; split <;> rfl

/-- A token takes at least one source byte, and touches neither the mode nor the source length. -/
theorem tokenOp_progress {e e' : Enc} (h : tokenOp e = .ok e') :
    e.spos.toNat < e'.spos.toNat ∧ e'.mode = e.mode ∧ e'.slen = e.slen := by
  obtain ⟨w, t, -, ⟨hs, -, rfl⟩ | ⟨hs, -, rfl⟩⟩ := tokenOp_cases h
  · have hcur : (litToken e w t).spos.toNat = e.spos.toNat + 1 := wordOf_toNat_of_le hs
    exact ⟨by omega, rfl, rfl⟩
  · have hcur : (matchToken e w t).spos.toNat = e.spos.toNat + mlenOf w.len := wordOf_toNat_of_le hs
    exact ⟨by rw [hcur, mlenOf]; omega, rfl, rfl⟩

/-- A token step of a call answers; unless it ends the call the source cursor has moved on. -/
theorem encStepOp_progress {e : Enc} (hi : EncInv e) (hb : e.mode = .busy) :
    ∃ e', encStepOp e = .ok e' ∧
      (e'.mode = .done ∨ e'.mode = .busy ∧ e.spos.toNat < e'.spos.toNat ∧ e'.slen = e.slen) := by
  have ha : encActive e := ⟨hb, hi.cursor hb⟩
  rcases headroom_cases e with ⟨hg, hr⟩ | hr
  · exact ⟨_, encStepOp_of_no_headroom hg hr, .inl rfl⟩
  · have hmid := hi.frame hb hr
    have hroom := hmid.room
    have hmap := hmid.mapBelow
    obtain ⟨e1, htok⟩ := tokenOp_total (e := framed e) (by simpa using ha.2) (by omega) (by omega)
    obtain ⟨hspos, hmode, hslen⟩ := tokenOp_progress htok
    rw [framed_spos] at hspos
    refine ⟨clearEncWires (finishEncIfEnd e1), ?_, ?_⟩
    · rw [encStepOp_of_frame (frameOp_of_headroom ha hr) hmid.busy, htok]
      rfl
    · rw [clearEncWires_mode, finishEncIfEnd_mode (hmode.trans hmid.busy)]
      split
      case isTrue => exact .inl rfl
      case isFalse => exact .inr ⟨rfl, by simpa using hspos, by simpa using hslen⟩

/-! ### The decoder's token step (43 R191, R194) -/

theorem litOp_total (b : Byte) {d : Dec} (hs : d.spos.toNat < d.slen.toNat) : ∃ d', litOp b d = .ok d' := by
  by_cases hroom : d.dcap.toNat ≤ d.dpos.toNat
  · exact ⟨_, litOp_eq_ok.mpr (.inl ⟨hroom, rfl⟩)⟩
  · exact ⟨_, litOp_eq_ok.mpr (.inr ⟨not_le.mp hroom, hs, rfl⟩)⟩

/-- A match always answers: its checks raise, or its replay is in range. -/
theorem matchOp_total (len : LenField) (off : OffField) (d : Dec) : ∃ d', matchOp len off d = .ok d' := by
  by_cases hbad : d.slen.toNat < d.spos.toNat + 2 ∨ d.dpos.toNat < off.toNat ∨ off = 0
  · exact ⟨_, matchOp_badData hbad⟩
  obtain ⟨hs, hback, hne⟩ := not_or.mp hbad |>.imp_right not_or.mp
  by_cases hroom : d.dcap.toNat < d.dpos.toNat + mlenOf len
  · exact ⟨_, matchOp_wouldOverflow (not_lt.mp hs) (not_lt.mp hback) hne hroom⟩
  · rw [matchOp_accepted (not_lt.mp hs) (not_lt.mp hback) hne (not_lt.mp hroom)]
    have hpos : 1 ≤ off.toNat := Nat.pos_of_ne_zero fun h0 => hne (BitVec.eq_of_toNat_eq h0)
    exact replayFrom_total hpos (not_lt.mp hback) (not_lt.mp hroom)

/-- The token the copy-map bit selects is a given token or a match cut off by the end of the stream. -/
theorem decTokenOp_cases (b : Bool) {d : Dec} (hs : d.spos.toNat < d.slen.toNat) :
    (∃ t, (if b then decMatchOp d else decLitOp d) = runToken t d) ∨
      (if b then decMatchOp d else decLitOp d) = .ok (raiseDec .badData d) := by
  cases b with
  | false => exact .inl ⟨.lit (cellRead d.src d.spos.toNat), decLitOp_active hs⟩
  | true =>
    by_cases hwhole : d.spos.toNat + 1 < d.slen.toNat
    · exact .inl ⟨.mat _ _, decMatchOp_whole hwhole⟩
    · exact .inr (decMatchOp_truncated hs (not_lt.mp hwhole))

theorem runToken_total (t : Token) {d : Dec} (hs : d.spos.toNat < d.slen.toNat) : ∃ d', runToken t d = .ok d' := by
  cases t with
  | lit b => exact litOp_total b hs
  | mat len off => exact matchOp_total len off d

theorem runToken_mode {t : Token} {d d' : Dec} (h : runToken t d = .ok d') (hb : d.mode = .busy) :
    d'.mode = .done ∨ d'.mode = .busy := by
  cases t with
  | lit b =>
    rcases litOp_eq_ok.mp h with ⟨-, rfl⟩ | ⟨-, -, rfl⟩
    · exact .inl rfl
    · exact .inr hb
  | mat len off =>
    rcases matchOp_cases h with ⟨rfl, -⟩ | ⟨rfl, -⟩ | ⟨-, -, -, -, hreplay⟩
    · exact .inl rfl
    · exact .inl rfl
    · obtain ⟨heq, -⟩ := replayFrom_eq_ok hreplay
      exact .inr (by rw [heq]; exact hb)

/-- The selected token answers and ends the call, or the stream cursor has moved on. -/
theorem decTokenOp_progress (b : Bool) {d : Dec} (hb : d.mode = .busy) (hs : d.spos.toNat < d.slen.toNat) :
    ∃ d', (if b then decMatchOp d else decLitOp d) = .ok d' ∧
      (d'.mode = .done ∨ d'.mode = .busy ∧ d.spos.toNat < d'.spos.toNat ∧ d'.slen = d.slen) := by
  rcases decTokenOp_cases b hs with ⟨t, htok⟩ | hcut
  · obtain ⟨d', hrun⟩ := runToken_total t hs
    refine ⟨d', htok.trans hrun, (runToken_mode hrun hb).imp_right fun hb' => ⟨hb', ?_⟩⟩
    obtain ⟨hleft, heq⟩ := runToken_frame hrun hb'
    have hpos := tokenBytes_length_pos t
    have hcur : d'.spos.toNat = d.spos.toNat + (tokenBytes t).length := by rw [heq]; exact wordOf_toNat_of_le hleft
    exact ⟨by omega, by rw [heq]⟩
  · exact ⟨_, hcut, .inl rfl⟩

theorem endToken_done_or {d : Dec} (h : d.mode = .done ∨ d.mode = .busy) :
    (endToken d).mode = .done ∨ (endToken d).mode = .busy ∧ d.mode = .busy := by
  rcases h with hd | hb
  · exact .inl (by rw [endToken, finishDecIfEnd_of_not_busy (by simp [hd])]; exact hd)
  · rw [endToken_mode hb]
    split
    case isTrue => exact .inl rfl
    case isFalse => exact .inr ⟨rfl, hb⟩

/-- The frame step answers; the call goes on, the cursor not behind, or has ended at a trailing map byte. -/
theorem decFrameOp_progress {d : Dec} (hb : d.mode = .busy) (hs : d.spos.toNat < d.slen.toNat) :
    ∃ d', decFrameOp d = .ok d' ∧
      (d'.mode = .done ∨ d'.mode = .busy ∧ d.spos.toNat ≤ d'.spos.toNat ∧ d'.slen = d.slen) := by
  cases hg : isNewGroup (shiftMask d.cmask) with
  | false => exact ⟨_, decFrameOp_inside hg, .inr ⟨hb, le_refl _, rfl⟩⟩
  | true =>
    rw [decFrameOp_boundary hg hs]
    refine ⟨_, mapOp_eq_ok.mpr ⟨hs, rfl⟩, ?_⟩
    have hcur : (wordOf (d.spos.toNat + 1)).toNat = d.spos.toNat + 1 := wordOf_toNat_of_le hs
    unfold finishDecIfEnd
    split
    case isTrue => exact .inl rfl
    case isFalse => exact .inr ⟨hb, by simp only [hcur]; omega, rfl⟩

/-- A token step of a call answers; unless it ends the call the stream cursor has moved on. -/
theorem decStepOp_progress {d : Dec} (hi : DecInv d) (hb : d.mode = .busy) :
    ∃ d', decStepOp d = .ok d' ∧
      (d'.mode = .done ∨ d'.mode = .busy ∧ d.spos.toNat < d'.spos.toNat ∧ d'.slen = d.slen) := by
  obtain ⟨d1, hframe, hcase⟩ := decFrameOp_progress hb (hi.cursor hb)
  rcases hcase with hdone | ⟨hb1, hle, hslen1⟩
  · exact ⟨clearDecWires d1, by simp [decStepOp, hframe, hdone], .inl hdone⟩
  · have hs1 := (hi.mid.frame hb (hi.cursor hb) hframe).2 hb1
    obtain ⟨d2, htok, h2⟩ := decTokenOp_progress (mapBit d1.cmap d1.cmask) (d := selected d1) hb1 hs1
    refine ⟨endToken d2, by rw [decStepOp_of_frame hframe hb1, htok, ok_bind], ?_⟩
    refine (endToken_done_or (h2.imp_right And.left)).imp_right fun ⟨hend, hb2⟩ => ⟨hend, ?_⟩
    rcases h2 with hdone | ⟨-, hlt, hslen2⟩
    · rw [hdone] at hb2; cases hb2
    · rw [endToken_spos, endToken_slen, hslen2]
      exact ⟨hle.trans_lt hlt, hslen1⟩

/-! ### Moves given to one engine (00 R10, 20 R71) -/

/-- `n` moves of an engine, on the engine alone. -/
def engineMoves {α : Type} (move : α → Except Fault α) : Nat → α → Except Fault α
  | 0, a => .ok a
  | n + 1, a => move a >>= engineMoves move n

theorem step_scheduled (a : Agent) (n : Nat) (s : State) :
    step (scheduled a (n + 1) s) = agentMove a (scheduled a n s) :=
  step_of_sched (s := scheduled a (n + 1) s) (by rw [scheduled, List.replicate_succ, List.cons_append])

theorem runSteps_succ_of_next {n : Nat} {s t : State} (h : step s = .next t) :
    runSteps (n + 1) s = runSteps n t := by
  have hstep : Sys2Proof.core.step s = .next t := h
  simp only [runSteps, Host.Core.run, hstep]
  rfl

/-- Moves given to the encoder run on the encoder alone, and use the schedule up. -/
theorem runSteps_scheduled_encoder : ∀ {n : Nat} {s : State} {e : Enc},
    engineMoves (whenEnc encStepOp) n s.enc = .ok e →
      runSteps n (scheduled .encoder n s) = .next { s with enc := e }
  | 0, s, e, h => by cases h; rfl
  | n + 1, s, e, h => by
    obtain ⟨e1, hop, hrest⟩ := bind_eq_ok.mp h
    have hstep : step (scheduled .encoder (n + 1) s) = .next (scheduled .encoder n { s with enc := e1 }) := by
      rw [step_scheduled, agentMove, exec_eStep]
      exact onEnc_of_ok hop
    exact (runSteps_succ_of_next hstep).trans (runSteps_scheduled_encoder (s := { s with enc := e1 }) hrest)

/-- Moves given to the decoder run on the decoder alone, and use the schedule up. -/
theorem runSteps_scheduled_decoder : ∀ {n : Nat} {s : State} {d : Dec},
    engineMoves (whenDec decStepOp) n s.dec = .ok d →
      runSteps n (scheduled .decoder n s) = .next { s with dec := d }
  | 0, s, d, h => by cases h; rfl
  | n + 1, s, d, h => by
    obtain ⟨d1, hop, hrest⟩ := bind_eq_ok.mp h
    have hstep : step (scheduled .decoder (n + 1) s) = .next (scheduled .decoder n { s with dec := d1 }) := by
      rw [step_scheduled, agentMove, exec_dStep]
      exact onDec_of_ok hop
    exact (runSteps_succ_of_next hstep).trans (runSteps_scheduled_decoder (s := { s with dec := d1 }) hrest)

/-- An engine whose every move in a call ends it or brings a measure down has ended it after so many moves. -/
theorem engineMoves_end {α : Type} {move : α → Except Fault α} {going ended : α → Prop} {left : α → Nat}
    (hrest : ∀ a, ended a → move a = .ok a) (hleft : ∀ a, going a → 0 < left a)
    (hmove : ∀ a, going a → ∃ a', move a = .ok a' ∧ (ended a' ∨ going a' ∧ left a' < left a)) :
    ∀ (n : Nat) (a : α), ended a ∨ going a ∧ left a ≤ n → ∃ a', engineMoves move n a = .ok a' ∧ ended a'
  | 0, a, h => by
    rcases h with he | ⟨hg, hle⟩
    · exact ⟨a, rfl, he⟩
    · have hpos := hleft a hg
      omega
  | n + 1, a, h => by
    have hnext : ∃ a', move a = .ok a' ∧ (ended a' ∨ going a' ∧ left a' ≤ n) := by
      rcases h with he | ⟨hg, hle⟩
      · exact ⟨a, hrest a he, .inl he⟩
      · obtain ⟨a', hop, h'⟩ := hmove a hg
        exact ⟨a', hop, h'.imp_right fun ⟨hg', hlt⟩ => ⟨hg', by omega⟩⟩
    obtain ⟨a', hop, h'⟩ := hnext
    obtain ⟨a'', hmoves, hend⟩ := engineMoves_end hrest hleft hmove n a' h'
    exact ⟨a'', by rw [engineMoves, hop, ok_bind, hmoves], hend⟩

theorem encMoves_end {e : Enc} (hi : EncInv e) (hb : e.mode = .busy) :
    ∃ e', engineMoves (whenEnc encStepOp) (e.slen.toNat - e.spos.toNat) e = .ok e' ∧ e'.mode = .done := by
  refine engineMoves_end (going := fun e => EncInv e ∧ e.mode = .busy) (ended := fun e => e.mode = .done)
    (left := fun e => e.slen.toNat - e.spos.toNat) (fun e h => whenEnc_not_busy (by simp [h]))
    (fun e ⟨hi, hb⟩ => Nat.sub_pos_of_lt (hi.cursor hb)) ?_ _ e (.inr ⟨⟨hi, hb⟩, le_refl _⟩)
  rintro e ⟨hi, hb⟩
  obtain ⟨e', hop, h'⟩ := encStepOp_progress hi hb
  have hmove : whenEnc encStepOp e = .ok e' := (whenEnc_active hb (hi.cursor hb)).trans hop
  refine ⟨e', hmove, h'.imp_right fun ⟨hb', hlt, hslen⟩ => ⟨⟨encStepOp_keeps_inv hi hmove, hb'⟩, ?_⟩⟩
  have hs := hi.cursor hb
  simp only [hslen]
  omega

theorem decMoves_end {d : Dec} (hi : DecInv d) (hb : d.mode = .busy) :
    ∃ d', engineMoves (whenDec decStepOp) (d.slen.toNat - d.spos.toNat) d = .ok d' ∧ d'.mode = .done := by
  refine engineMoves_end (going := fun d => DecInv d ∧ d.mode = .busy) (ended := fun d => d.mode = .done)
    (left := fun d => d.slen.toNat - d.spos.toNat) (fun d h => whenDec_not_busy (by simp [h]))
    (fun d ⟨hi, hb⟩ => Nat.sub_pos_of_lt (hi.cursor hb)) ?_ _ d (.inr ⟨⟨hi, hb⟩, le_refl _⟩)
  rintro d ⟨hi, hb⟩
  obtain ⟨d', hop, h'⟩ := decStepOp_progress hi hb
  have hmove : whenDec decStepOp d = .ok d' := (whenDec_active hb (hi.cursor hb)).trans hop
  refine ⟨d', hmove, h'.imp_right fun ⟨hb', hlt, hslen⟩ => ⟨⟨decStepOp_keeps_inv hi hmove, hb'⟩, ?_⟩⟩
  have hs := hi.cursor hb
  simp only [hslen]
  omega

/-- Settles O16: every move of a call ends it or takes a source byte, and an engine that is DONE stays so. -/
theorem callsEnd : Obligations.CallsEnd := by
  refine ⟨fun s hi hb => ?encoder, fun s hi hb => ?decoder⟩
  case encoder =>
    obtain ⟨e, hmoves, hdone⟩ := encMoves_end hi hb
    exact ⟨_, runSteps_scheduled_encoder hmoves, hdone, rfl⟩
  case decoder =>
    obtain ⟨d, hmoves, hdone⟩ := decMoves_end hi hb
    exact ⟨_, runSteps_scheduled_decoder hmoves, hdone, rfl⟩

end Sys2Proof.Machine
end

section
/-! PROOFS. What `compress` writes is a stream of tokens that give the source, and `decompress` runs such a stream. -/

namespace Sys2Proof.Machine

/-! ### Streams of tokens (30 R97, R98, R107) -/

/-- The bytes of tokens that follow in a stream where the open group can still take `n` of them: its copy-map byte is
written already, and every further group of up to 8 tokens begins with its own. -/
def streamFrom : Nat → List Token → List Byte
  | _, [] => []
  | 0, t :: ts => groupMap (t :: ts.take 7) :: (tokenBytes t ++ streamFrom 7 ts)
  | n + 1, t :: ts => tokenBytes t ++ streamFrom n ts

/-- A stream has at least a byte for each of its tokens. -/
theorem length_le_streamFrom : ∀ (ts : List Token) (n : Nat), ts.length ≤ (streamFrom n ts).length
  | [], _ => Nat.zero_le _
  | t :: ts, 0 => by
    have ih := length_le_streamFrom ts 7
    have hpos := tokenBytes_length_pos t
    simp only [streamFrom, List.length_cons, List.length_append]
    omega
  | t :: ts, n + 1 => by
    have ih := length_le_streamFrom ts n
    have hpos := tokenBytes_length_pos t
    simp only [streamFrom, List.length_cons, List.length_append]
    omega

/-- Before the last token of a group the mask moves on by one bit (10 R28). -/
theorem shiftMask_token : ∀ k < 7, shiftMask (1#9 <<< k) = 1#9 <<< (k + 1) := by decide

/-! ### Setting copy-map bits in the bytes written (41 R143) -/

/-- The bytes with `bits` set in byte `a`. -/
def orAt (out : List Byte) (a : Nat) (bits : Byte) : List Byte := out.set a (byteAt out a ||| bits)

@[simp] theorem orAt_length (out : List Byte) (a : Nat) (bits : Byte) : (orAt out a bits).length = out.length :=
  List.length_set

theorem byteAt_set_same {out : List Byte} {a : Nat} (h : a < out.length) (b : Byte) : byteAt (out.set a b) a = b := by
  simp [byteAt, List.getD, h]

@[simp] theorem orAt_zero (out : List Byte) (a : Nat) : orAt out a 0#8 = out := by
  rcases Nat.lt_or_ge a out.length with h | h
  · simp [orAt, byteAt, List.getD, h]
  · exact List.set_eq_of_length_le h

theorem orAt_orAt {out : List Byte} {a : Nat} (h : a < out.length) (x y : Byte) :
    orAt (orAt out a x) a y = orAt out a (x ||| y) := by
  rw [orAt, orAt, byteAt_set_same h, List.set_set, BitVec.or_assoc, orAt]

theorem orAt_append {out : List Byte} {a : Nat} (h : a < out.length) (bits : Byte) (rest : List Byte) :
    orAt (out ++ rest) a bits = orAt out a bits ++ rest := by
  rw [orAt, orAt, List.set_append_left _ _ h, byteAt, byteAt, List.getD_append _ _ _ _ h]

theorem orAt_fresh (out : List Byte) (bits : Byte) : orAt (out ++ [0]) out.length bits = out ++ [bits] := by
  simp [orAt, byteAt]

/-! ### Tokens that give the source (42 R162) -/

/-- The reference's extender stays within its fuel and passes only equal pairs. -/
theorem refExtend_spec (src : List Byte) (spos off : Nat) : ∀ fuel m : Nat,
    m ≤ refExtend src spos off fuel m ∧ refExtend src spos off fuel m ≤ m + fuel ∧
      ∀ k, m ≤ k → k < refExtend src spos off fuel m → byteAt src (spos + k) = byteAt src (spos - off + k)
  | 0, m => ⟨le_refl _, le_refl _, fun k hk hlt => absurd hlt (not_lt.mpr hk)⟩
  | fuel + 1, m => by
    unfold refExtend
    split
    case isTrue heq =>
      obtain ⟨hmin, hmax, hequal⟩ := refExtend_spec src spos off fuel (m + 1)
      refine ⟨by omega, by omega, fun k hk hlt => ?_⟩
      rcases Nat.eq_or_lt_of_le hk with rfl | hgt
      · exact heq
      · exact hequal k hgt hlt
    case isFalse => exact ⟨le_refl _, Nat.le_add_right _ _, fun k hk hlt => absurd hlt (not_lt.mpr hk)⟩

theorem take_succ_byteAt {src : List Byte} {p : Nat} (h : p < src.length) :
    src.take (p + 1) = src.take p ++ [byteAt src p] := by
  simp [byteAt, List.getD, h]

theorem byteAt_take {src : List Byte} {n i : Nat} (h : i < n) : byteAt (src.take n) i = byteAt src i := by
  simp [byteAt, List.getD, h]

/-- Replaying bytes that equal those `off` before them gives the next bytes of the source. -/
theorem refReplay_take {src : List Byte} {off : Nat} (ho : 1 ≤ off) : ∀ {n p : Nat}, off ≤ p → p + n ≤ src.length →
    (∀ k < n, byteAt src (p + k) = byteAt src (p - off + k)) → refReplay off n (src.take p) = src.take (p + n)
  | 0, _, _, _, _ => rfl
  | n + 1, p, hp, hn, hequal => by
    have hlen : (src.take p).length = p := by rw [List.length_take]; omega
    have hbyte : byteAt (src.take p) (p - off) = byteAt src p := by
      rw [byteAt_take (by omega)]
      exact (hequal 0 (by omega)).symm
    have hnext : ∀ k < n, byteAt src (p + 1 + k) = byteAt src (p + 1 - off + k) := fun k hk => by
      have hk' := hequal (k + 1) (by omega)
      rwa [show p + (k + 1) = p + 1 + k by omega, show p - off + (k + 1) = p + 1 - off + k by omega] at hk'
    rw [refReplay, hlen, hbyte, ← take_succ_byteAt (by omega), refReplay_take ho (by omega) (by omega) hnext]
    congr 1
    omega

/-- One iteration of `compress` past the copy-map byte: a token, its bit set in the copy-map byte and its bytes
appended, that turns the source's bytes before the cursor into those before the new one. -/
structure TakesToken (src : List Byte) (t : Token) (v v' : CompressVars) : Prop where
  cmask : v'.cmask = v.cmask
  mapaddr : v'.mapaddr = v.mapaddr
  out : v'.out = orAt v.out v.mapaddr (if tokenIsMatch t then maskBits v.cmask else 0) ++ tokenBytes t
  moves : v.spos < v'.spos
  inside : v'.spos ≤ src.length
  offset : offsetsValid [t] (src.take v.spos)
  output : tokenOutput t (src.take v.spos) = src.take v'.spos

/-- A literal, whatever the table has become: no part of the token looks at it. -/
theorem refLit_takes {src : List Byte} {v : CompressVars} {table : List (Nat × Nat)} (h : v.spos < src.length) :
    TakesToken src (.lit (byteAt src v.spos)) v (refLit src { v with table := table }) where
  cmask := rfl
  mapaddr := rfl
  out := by simp [refLit, tokenIsMatch, tokenBytes]
  moves := Nat.lt_succ_self _
  inside := h
  offset := ⟨trivial, trivial⟩
  output := (take_succ_byteAt h).symm

/-- The two bytes `compress` appends for a match are those of its token (30 R95). -/
theorem matchBytes_eq {mlen off : Nat} (h3 : 3 ≤ mlen) (h66 : mlen ≤ 66) (ho : off < 1024) :
    tokenBytes (.mat (lenFieldOf mlen) (BitVec.ofNat 10 off)) =
      [BitVec.ofNat 8 ((mlen - 3) * 4 + off / 256), BitVec.ofNat 8 off] := by
  have hlen : (lenFieldOf mlen).toNat = mlen - 3 := by rw [lenFieldOf, BitVec.toNat_ofNat]; omega
  have hfield : (BitVec.ofNat 10 off).toNat = off := by rw [BitVec.toNat_ofNat]; omega
  have h0 : byte0Of (lenFieldOf mlen) (BitVec.ofNat 10 off) = BitVec.ofNat 8 ((mlen - 3) * 4 + off / 256) := by
    apply BitVec.eq_of_toNat_eq
    rw [byte0Of_toNat, hlen, hfield, BitVec.toNat_ofNat]
    omega
  have h1 : byte1Of (BitVec.ofNat 10 off) = BitVec.ofNat 8 off := by
    apply BitVec.eq_of_toNat_eq
    rw [byte1Of_toNat, hfield, BitVec.toNat_ofNat]
  rw [tokenBytes, h0, h1]

/-- A genuine match is a token that gives the source's bytes. -/
theorem match_takes {src : List Byte} {v v' : CompressVars} {mlen off : Nat} (hmlen : 3 ≤ mlen ∧ mlen ≤ 66)
    (hoff : 1 ≤ off ∧ off ≤ v.spos ∧ off < 1024) (hfit : v.spos + mlen ≤ src.length)
    (hequal : ∀ k < mlen, byteAt src (v.spos + k) = byteAt src (v.spos - off + k))
    (hv : v' = { v with
      out := orAt v.out v.mapaddr (maskBits v.cmask)
        ++ [BitVec.ofNat 8 ((mlen - 3) * 4 + off / 256), BitVec.ofNat 8 off]
      spos := v.spos + mlen, table := v'.table }) :
    TakesToken src (.mat (lenFieldOf mlen) (BitVec.ofNat 10 off)) v v' := by
  obtain ⟨h3, h66⟩ := hmlen
  obtain ⟨hpos, hback, hlt⟩ := hoff
  have hfield : (BitVec.ofNat 10 off).toNat = off := by rw [BitVec.toNat_ofNat]; omega
  have hspos : v'.spos = v.spos + mlen := by rw [hv]
  exact
    { cmask := by rw [hv]
      mapaddr := by rw [hv]
      out := by rw [matchBytes_eq h3 h66 hlt, hv]; rfl
      moves := by omega
      inside := by omega
      offset := ⟨⟨by omega, by rw [hfield, List.length_take]; omega⟩, trivial⟩
      output := by
        rw [tokenOutput, hfield, mlenOf_lenFieldOf h3 h66, hspos]
        exact refReplay_take hpos hback hfit hequal }

/-- The token takes one unit of fuel at least. -/
theorem TakesToken.fuel {src : List Byte} {t : Token} {v v' : CompressVars} {fuel : Nat} (ht : TakesToken src t v v')
    (h : src.length ≤ v.spos + (fuel + 1)) : src.length ≤ v'.spos + fuel := by
  have hmoves := ht.moves
  omega

theorem TakesToken.mapaddr_lt {src : List Byte} {t : Token} {v v' : CompressVars} (ht : TakesToken src t v v')
    (h : v.mapaddr < v.out.length) : v'.mapaddr < v'.out.length := by
  rw [ht.mapaddr, ht.out, List.length_append, orAt_length]
  omega

theorem refToken_takes {src : List Byte} {v : CompressVars} (h : v.spos < src.length) :
    ∃ t, TakesToken src t v (refToken src v) := by
  unfold refToken
  split
  case isTrue => exact ⟨_, refLit_takes h⟩
  case isFalse htail =>
    simp only
    generalize hoff : (v.spos % 1024 + 1024 - _) % 1024 = off
    split
    case isFalse => exact ⟨_, refLit_takes h⟩
    case isTrue hacc =>
      obtain ⟨hne, hback, h0, h1, h2⟩ := hacc
      obtain ⟨hmin, hmax, hequal⟩ := refExtend_spec src v.spos off 63 3
      refine ⟨_, match_takes ⟨hmin, hmax⟩ ⟨Nat.pos_of_ne_zero hne, hback, by omega⟩ (by omega) (fun k hk => ?_) rfl⟩
      match k with
      | 0 => exact h0
      | 1 => exact h1
      | 2 => exact h2
      | k + 3 => exact hequal (k + 3) (by omega) hk

/-! ### The stream `compress` writes (42 R161) -/

/-- How a call of `compress` goes on from `v`, with `n` tokens left in the open group, to the bytes `out`: by tokens
that complete the source, their bits set in the open group's copy-map byte and their bytes appended. -/
structure WritesTokens (src : List Byte) (n : Nat) (v : CompressVars) (out : List Byte) (ts : List Token) : Prop where
  out : out = orAt v.out v.mapaddr (groupMapFrom (8 - n) (ts.take n)) ++ streamFrom n ts
  offsets : offsetsValid ts (src.take v.spos)
  source : tokensOutput ts (src.take v.spos) = src

theorem WritesTokens.nil {src : List Byte} {n : Nat} {v : CompressVars} (h : src.length ≤ v.spos) :
    WritesTokens src n v v.out [] where
  out := by simp [groupMapFrom, streamFrom]
  offsets := trivial
  source := List.take_of_length_le h

/-- A token in front: its bit joins those of the open group's other tokens. -/
theorem WritesTokens.out_cons {src : List Byte} {n : Nat} {v v' : CompressVars} {out : List Byte} {t : Token}
    {ts : List Token} (hn : n ≤ 7) (hm : v.cmask = 1#9 <<< (7 - n)) (ha : v.mapaddr < v.out.length)
    (ht : TakesToken src t v v') (h : WritesTokens src n v' out ts) :
    out = orAt v.out v.mapaddr (groupMapFrom (7 - n) (t :: ts.take n)) ++ (tokenBytes t ++ streamFrom n ts) := by
  have hbits : ∀ k < 8, maskBits (1#9 <<< k) = 1#8 <<< k := by decide
  rw [h.out, ht.mapaddr, ht.out, orAt_append (by rwa [orAt_length]), orAt_orAt ha, List.append_assoc, hm,
    hbits _ (by omega), groupMapFrom, show 7 - n + 1 = 8 - n by omega]

theorem TakesToken.tokens_cons {src : List Byte} {n : Nat} {v v' : CompressVars} {out : List Byte} {t : Token}
    {ts : List Token} (ht : TakesToken src t v v') (h : WritesTokens src n v' out ts) :
    offsetsValid (t :: ts) (src.take v.spos) ∧ tokensOutput (t :: ts) (src.take v.spos) = src := by
  refine ⟨⟨ht.offset.1, ?_⟩, ?_⟩
  · rw [ht.output]; exact h.offsets
  · rw [tokensOutput, ht.output]; exact h.source

/-- An iteration inside a group. -/
theorem WritesTokens.cons_inside {src : List Byte} {n : Nat} {v v' : CompressVars} {out : List Byte} {t : Token}
    {ts : List Token} {m : BitVec 9} (hn : n ≤ 7) (hm : m = 1#9 <<< (7 - n)) (ha : v.mapaddr < v.out.length)
    (ht : TakesToken src t { v with cmask := m } v') (h : WritesTokens src n v' out ts) :
    WritesTokens src (n + 1) v out (t :: ts) where
  out := by
    rw [h.out_cons (v := { v with cmask := m }) hn hm ha ht, List.take_succ_cons, show 8 - (n + 1) = 7 - n by omega]
    rfl
  offsets := (ht.tokens_cons h).1
  source := (ht.tokens_cons h).2

/-- An iteration that opens a group. -/
theorem WritesTokens.cons_boundary {src : List Byte} {v v' : CompressVars} {out : List Byte} {t : Token}
    {ts : List Token}
    (ht : TakesToken src t { v with cmask := 0x001, mapaddr := v.out.length, out := v.out ++ [0] } v')
    (h : WritesTokens src 7 v' out ts) : WritesTokens src 0 v out (t :: ts) where
  out := by
    have hnone : orAt v.out v.mapaddr (groupMapFrom (8 - 0) []) = v.out := orAt_zero _ _
    rw [h.out_cons (le_refl 7) rfl (by simp) ht, orAt_fresh, List.take_zero, hnone, List.append_assoc]
    rfl
  offsets := (ht.tokens_cons h).1
  source := (ht.tokens_cons h).2

/-- A call of `compress` that does not fall back writes tokens that complete the source. -/
theorem refCompressLoop_writes {src : List Byte} {dlen : Nat} : ∀ {fuel n : Nat} {v : CompressVars}, n ≤ 7 →
    v.cmask = 1#9 <<< (7 - n) → (n ≠ 0 → v.mapaddr < v.out.length) → src.length ≤ v.spos + fuel →
    (refCompressLoop src dlen fuel v).fallback = false →
    ∃ ts, WritesTokens src n v (refCompressLoop src dlen fuel v).out ts
  | 0, n, v, _, _, _, hfuel, _ => ⟨[], .nil hfuel⟩
  | fuel + 1, n, v, hn, hm, ha, hfuel, hnf => by
    unfold refCompressLoop at hnf ⊢
    split at hnf
    case isFalse hend =>
      rw [if_neg hend]
      exact ⟨[], .nil (not_lt.mp hend)⟩
    case isTrue hs =>
      rw [if_pos hs]
      cases n with
      | zero =>
        have hg : isNewGroup (shiftMask v.cmask) = true := by rw [hm]; rfl
        simp only [hg, if_true] at hnf ⊢
        split at hnf
        case isTrue => cases hnf
        case isFalse hroom =>
          rw [if_neg hroom]
          obtain ⟨t, ht⟩ := refToken_takes (src := src)
            (v := { v with cmask := 0x001, mapaddr := v.out.length, out := v.out ++ [0] }) hs
          obtain ⟨ts, h⟩ := refCompressLoop_writes (n := 7) (le_refl 7) ht.cmask (fun _ => ht.mapaddr_lt (by simp))
            (ht.fuel hfuel) hnf
          exact ⟨t :: ts, h.cons_boundary ht⟩
      | succ n =>
        have hg : isNewGroup (shiftMask v.cmask) = false := by
          rw [hm]; exact isNewGroup_shiftMask_token _ (by omega)
        have hmask : shiftMask v.cmask = 1#9 <<< (7 - n) := by
          rw [hm, shiftMask_token _ (by omega), show 7 - (n + 1) + 1 = 7 - n by omega]
        have ha' := ha (Nat.succ_ne_zero n)
        simp only [hg, Bool.false_eq_true, if_false] at hnf ⊢
        obtain ⟨t, ht⟩ := refToken_takes (src := src) (v := { v with cmask := shiftMask v.cmask }) hs
        obtain ⟨ts, h⟩ := refCompressLoop_writes (n := n) (by omega) (ht.cmask.trans hmask)
          (fun _ => ht.mapaddr_lt ha') (ht.fuel hfuel) hnf
        exact ⟨t :: ts, h.cons_inside (by omega) hmask ha' ht⟩

/-- The output of a `compress` that does not fall back is a stream of tokens that give the source. -/
theorem compress_writes {src : List Byte} {dlen : Nat} (h : (compress src dlen).fallback = false) :
    ∃ ts, (compress src dlen).out = streamFrom 0 ts ∧ offsetsValid ts [] ∧ tokensOutput ts [] = src := by
  obtain ⟨ts, hw⟩ := refCompressLoop_writes (n := 0) (Nat.zero_le _) rfl (fun h0 => absurd rfl h0)
    (Nat.le_add_left _ _) h
  exact ⟨ts, hw.out, hw.offsets, hw.source⟩

/-! ### Running a stream of tokens (43 R195) -/

/-- The part of an iteration of `decompress` after the frame: the token the copy-map bit selects. -/
def refDecompressToken (src : List Byte) (cap fuel spos : Nat) (cmask : BitVec 9) (cmap : Byte) (out : List Byte) :
    DecompressResult :=
  if spos = src.length then ⟨.ok, out.length, out⟩
  else if mapBit cmap cmask then
    if src.length - spos < 2 then ⟨.badData, 0, out⟩
    else
      let mlen := (byteAt src spos).toNat / 4 + 3
      let off := ((byteAt src spos).toNat * 256 + (byteAt src (spos + 1)).toNat) % 1024
      if off > out.length then ⟨.badData, 0, out⟩
      else if off = 0 then ⟨.badData, 0, out⟩
      else if mlen > cap - out.length then ⟨.wouldOverflow, 0, out⟩
      else refDecompressLoop src cap fuel (spos + 2) cmask cmap (refReplay off mlen out)
  else if out.length ≥ cap then ⟨.wouldOverflow, 0, out⟩
  else refDecompressLoop src cap fuel (spos + 1) cmask cmap (out ++ [byteAt src spos])

section
variable {src : List Byte} {cap fuel spos : Nat} {cmask : BitVec 9} {cmap : Byte} {out : List Byte}

theorem refDecompressLoop_inside (h : spos < src.length) (hg : isNewGroup (shiftMask cmask) = false) :
    refDecompressLoop src cap (fuel + 1) spos cmask cmap out =
      refDecompressToken src cap fuel spos (shiftMask cmask) cmap out := by
  simp only [refDecompressLoop, if_pos h, hg]
  rfl

theorem refDecompressLoop_boundary (h : spos < src.length) (hg : isNewGroup (shiftMask cmask) = true) :
    refDecompressLoop src cap (fuel + 1) spos cmask cmap out =
      refDecompressToken src cap fuel (spos + 1) 0x001 (byteAt src spos) out := by
  simp only [refDecompressLoop, if_pos h, hg]
  rfl

theorem refDecompressLoop_end (h : src.length ≤ spos) :
    refDecompressLoop src cap fuel spos cmask cmap out = ⟨.ok, out.length, out⟩ := by
  cases fuel with
  | zero => rfl
  | succ fuel => rw [refDecompressLoop, if_neg (not_lt.mpr h)]

theorem byteAt_of_drop {rest : List Byte} (h : src.drop spos = rest) (k : Nat) :
    byteAt src (spos + k) = byteAt rest k := by
  simp [← h, byteAt, List.getD, List.getElem?_drop]

/-- Where a token's bytes stand and its copy-map bit says its kind, a valid token that fits appends its output. -/
theorem refDecompressToken_runs {t : Token} {rest : List Byte} (hat : src.drop spos = tokenBytes t ++ rest)
    (hbit : mapBit cmap cmask = tokenIsMatch t) (hoff : offsetsValid [t] out)
    (hroom : (tokenOutput t out).length ≤ cap) :
    refDecompressToken src cap fuel spos cmask cmap out =
      refDecompressLoop src cap fuel (spos + (tokenBytes t).length) cmask cmap (tokenOutput t out) := by
  have hlen := congrArg List.length hat
  rw [List.length_drop, List.length_append] at hlen
  have hpos := tokenBytes_length_pos t
  have hbyte : byteAt src spos = byteAt (tokenBytes t ++ rest) 0 := byteAt_of_drop hat 0
  rw [refDecompressToken, if_neg (by omega), hbit]
  cases t with
  | lit b =>
    have hb : byteAt src spos = b := hbyte
    simp only [tokenOutput, List.length_append, List.length_singleton] at hroom
    rw [tokenIsMatch, if_neg Bool.false_ne_true, if_neg (by omega), hb]
    rfl
  | mat len off =>
    have h0 : byteAt src spos = byte0Of len off := hbyte
    have h1 : byteAt src (spos + 1) = byte1Of off := byteAt_of_drop hat 1
    have hmlen : (byte0Of len off).toNat / 4 + 3 = mlenOf len := by rw [byte0Of_toNat, mlenOf]; omega
    have hfield : ((byte0Of len off).toNat * 256 + (byte1Of off).toNat) % 1024 = off.toNat := by
      rw [byte0Of_toNat, byte1Of_toNat]; omega
    obtain ⟨⟨hone, hback⟩, -⟩ := hoff
    simp only [tokenOutput, refReplay_length] at hroom
    have hlen2 : (tokenBytes (.mat len off)).length = 2 := rfl
    simp only [tokenIsMatch, if_true, h0, h1, hmlen, hfield]
    rw [if_neg (by omega), if_neg (by omega), if_neg (by omega), if_neg (by omega)]
    rfl

end

/-- `decompress` runs a stream of tokens whose offsets are valid and whose output fits. -/
theorem refDecompressLoop_runs {src : List Byte} {cap : Nat} : ∀ {ts : List Token} {n fuel spos : Nat}
    {cmask : BitVec 9} {cmap : Byte} {out : List Byte}, n ≤ 7 → ts.length ≤ fuel → src.drop spos = streamFrom n ts →
    cmask = 1#9 <<< (7 - n) → MapSays (8 - n) (ts.take n) cmap → offsetsValid ts out →
    (tokensOutput ts out).length ≤ cap →
    refDecompressLoop src cap fuel spos cmask cmap out = ⟨.ok, (tokensOutput ts out).length, tokensOutput ts out⟩
  | [], n, fuel, spos, cmask, cmap, out, _, _, hat, _, _, _, _ =>
    refDecompressLoop_end (List.drop_eq_nil_iff.mp (hat.trans (by cases n <;> rfl)))
  | t :: ts, n, fuel, spos, cmask, cmap, out, hn, hfuel, hat, hm, hbits, hoff, hroom => by
    obtain ⟨hoff1, hoff2⟩ := hoff
    have hpos := tokenBytes_length_pos t
    have hroom1 := (tokensOutput_length_ge ts _).trans hroom
    obtain ⟨fuel, rfl⟩ := Nat.exists_eq_add_of_le' (Nat.one_le_of_lt hfuel)
    have hfuel1 : ts.length ≤ fuel := Nat.le_of_succ_le_succ hfuel
    cases n with
    | zero =>
      have hlt : spos < src.length := by
        by_contra hge
        rw [List.drop_eq_nil_of_le (not_lt.mp hge)] at hat
        cases hat
      have hat1 : src.drop (spos + 1) = tokenBytes t ++ streamFrom 7 ts := by
        rw [← List.drop_drop, hat]; rfl
      have hbyte : byteAt src spos = groupMap (t :: ts.take 7) := byteAt_of_drop hat 0
      have hsays : MapSays 0 (t :: ts.take 7) (groupMap (t :: ts.take 7)) :=
        mapSays_groupMap (by rw [List.length_cons, List.length_take]; omega)
      have hbit : mapBit (groupMap (t :: ts.take 7)) 0x001 = tokenIsMatch t :=
        (mapBit_eq_getLsbD (k := 0) _ (by omega)).trans hsays.head
      rw [refDecompressLoop_boundary hlt (by rw [hm]; rfl), hbyte,
        refDecompressToken_runs hat1 hbit ⟨hoff1, trivial⟩ hroom1]
      refine refDecompressLoop_runs (n := 7) (le_refl 7) hfuel1 ?_ rfl hsays.tail hoff2 hroom
      rw [← List.drop_drop, hat1, List.drop_left]
    | succ n =>
      have hat1 : src.drop spos = tokenBytes t ++ streamFrom n ts := hat
      have hlt : spos < src.length := by
        have hlen := congrArg List.length hat1
        rw [List.length_drop, List.length_append] at hlen
        omega
      have hg : isNewGroup (shiftMask cmask) = false := hm ▸ isNewGroup_shiftMask_token _ (by omega)
      have hmask : shiftMask cmask = 1#9 <<< (7 - n) := by
        rw [hm, shiftMask_token _ (by omega), show 7 - (n + 1) + 1 = 7 - n by omega]
      rw [List.take_succ_cons, show 8 - (n + 1) = 7 - n by omega] at hbits
      have htail := hbits.tail
      rw [show 7 - n + 1 = 8 - n by omega] at htail
      rw [refDecompressLoop_inside hlt hg, hmask, refDecompressToken_runs hat1
        ((mapBit_eq_getLsbD _ (by omega)).trans hbits.head) ⟨hoff1, trivial⟩ hroom1]
      refine refDecompressLoop_runs (n := n) (by omega) hfuel1 ?_ rfl htail hoff2 hroom
      rw [← List.drop_drop, hat1, List.drop_left]

/-- Settles O19: what was written is a stream of tokens that give the source, and decoding runs it. -/
theorem roundTrip : Obligations.RoundTrip := by
  intro src dlen cap hnf hcap
  obtain ⟨ts, hout, hoff, hsource⟩ := compress_writes hnf
  have hruns := refDecompressLoop_runs (src := streamFrom 0 ts) (cap := cap) (cmap := 0) (n := 0) (spos := 0)
    (Nat.zero_le 7) (length_le_streamFrom ts 0) rfl rfl ⟨le_refl 8, fun i hi => absurd hi (Nat.not_lt_zero i)⟩ hoff
    (by rwa [hsource])
  rw [hout, decompress, ← hsource]
  exact hruns

end Sys2Proof.Machine
end

section
/-! PROOFS. The encoder's token step is its micro-operations, run by name in the fixed order; the two emitters. -/

namespace Sys2Proof.Machine

/-! ### The emitters (42 R156, R157) -/

theorem exec_eEmitLit (s : State) : exec .eEmitLit s = onEnc (whenEnc emitLitOp) s := rfl

theorem exec_eEmitMatch (s : State) : exec .eEmitMatch s = onEnc (whenEnc emitMatchOp) s := rfl

/-- Settles O41: the emitter's one store, read back. -/
theorem emitLiteralToken : Obligations.EmitLiteralToken := by
  intro s ha hd
  have hop := emitLitOp_eq_ok.mpr ⟨ha.2, hd, rfl⟩
  rw [exec_eEmitLit]
  exact ⟨_, onEnc_active ha hop, rfl, wordOf_toNat_of_le (w := s.enc.dlen) hd,
    wordOf_toNat_of_le (w := s.enc.slen) ha.2, fun a => cellRead_write s.enc.dst _ a _⟩

/-- Settles O40: the emitter's two stores, read back, and the token's bytes in plain numbers. -/
theorem emitMatchToken : Obligations.EmitMatchToken := by
  intro s ha hd hs
  have hexec := onEnc_active ha (emitMatchOp_eq_ok.mpr ⟨hd, hs, rfl⟩)
  have hpos : (wordOf (s.enc.dpos.toNat + 2)).toNat = s.enc.dpos.toNat + 2 := wordOf_toNat_of_le (w := s.enc.dlen) hd
  rw [exec_eEmitMatch]
  refine ⟨_, hexec, rfl, hpos, wordOf_toNat_of_le hs, ?byte0, ?byte1, fun a h0 h1 => ?frame⟩
  case byte0 =>
    simp only [cellRead_write, Nat.left_eq_add, Nat.one_ne_zero, if_false, if_true]
    rw [byte0Of_toNat, mlenOf, Nat.add_sub_cancel]
  case byte1 =>
    simp only [cellRead_write, if_true]
    exact byte1Of_toNat _
  case frame => simp only [cellRead_write, h0, h1, if_false]

/-! ### Operations one after another -/

/-- One operation of the encoder after another, on the whole state. -/
theorem onEnc_bind (f g : Enc → Except Fault Enc) (s : State) :
    onEnc (fun e => f e >>= g) s = andThen (onEnc f s) (onEnc g) := by
  simp only [onEnc]
  cases f s.enc <;> rfl

/-- An operation that leaves the encoder inside its token step: the mode and the source are as they were. -/
def KeepsActive (f : Enc → Except Fault Enc) : Prop :=
  ∀ ⦃e e' : Enc⦄, f e = .ok e' → e'.mode = e.mode ∧ e'.spos = e.spos ∧ e'.slen = e.slen

theorem KeepsActive.active {f : Enc → Except Fault Enc} (hf : KeepsActive f) {e e' : Enc} (ha : encActive e)
    (h : f e = .ok e') : encActive e' := by
  obtain ⟨hmode, hspos, hslen⟩ := hf h
  exact ⟨hmode.trans ha.1, by rw [hspos, hslen]; exact ha.2⟩

/-- Of two operations inside a token step each runs inside it. -/
theorem onEnc_whenEnc_bind {f : Enc → Except Fault Enc} (hf : KeepsActive f) (g : Enc → Except Fault Enc) (s : State) :
    onEnc (whenEnc fun e => f e >>= g) s = andThen (onEnc (whenEnc f) s) (onEnc (whenEnc g)) := by
  have hsame : (whenEnc fun e => f e >>= g) s.enc = whenEnc f s.enc >>= whenEnc g := by
    by_cases hb : s.enc.mode = .busy
    · by_cases hs : s.enc.spos.toNat < s.enc.slen.toNat
      · rw [whenEnc_active hb hs, whenEnc_active hb hs]
        cases hop : f s.enc with
        | error r => rfl
        | ok e =>
          obtain ⟨hb', hs'⟩ := hf.active ⟨hb, hs⟩ hop
          exact (whenEnc_active hb' hs').symm
      · simp [whenEnc, hb, hs]
    · rw [whenEnc_not_busy hb, whenEnc_not_busy hb, ok_bind, whenEnc_not_busy hb]
  rw [← onEnc_bind, onEnc, onEnc, hsame]

/-- Two operations that answer alike on two encoders do so on the whole states. -/
theorem onEnc_congr {f g : Enc → Except Fault Enc} {s : State} {e : Enc} (h : f s.enc = g e) :
    onEnc f s = onEnc g { s with enc := e } := by
  simp only [onEnc, h]

theorem onEnc_whenEnc_of_active {f : Enc → Except Fault Enc} {s : State} (ha : encActive s.enc) :
    onEnc (whenEnc f) s = onEnc f s := by
  rw [onEnc, onEnc, whenEnc_active ha.1 ha.2]

theorem onEnc_congr_active {f g : Enc → Except Fault Enc} {s : State} {e : Enc} (ha : encActive e)
    (h : f s.enc = g e) : onEnc f s = onEnc (whenEnc g) { s with enc := e } :=
  (onEnc_congr h).trans (onEnc_whenEnc_of_active (s := { s with enc := e }) ha).symm

theorem andThen_next (o : Host.Outcome State Fault Refusal) : andThen o .next = o := by cases o <;> rfl

theorem execAll_singleton (i : Instr) : execAll [i] = exec i := funext fun s => andThen_next (exec i s)

/-- A micro-operation in front of a list of micro-operations. -/
theorem onEnc_bind_eq_execAll {i : Instr} {is : List Instr} {f g : Enc → Except Fault Enc}
    (hi : exec i = onEnc (whenEnc f)) (hf : KeepsActive f) (hg : onEnc (whenEnc g) = execAll is) :
    onEnc (whenEnc fun e => f e >>= g) = execAll (i :: is) := by
  funext s
  rw [onEnc_whenEnc_bind hf, execAll, hi, hg]

/-! ### The parts of the token step -/

theorem keepsActive_hash3Op : KeepsActive hash3Op := fun _ _ h => by
  obtain ⟨-, rfl⟩ := hash3Op_eq_ok.mp h
  exact ⟨rfl, rfl, rfl⟩

theorem keepsActive_tindexOp : KeepsActive tindexOp := fun _ _ h => by cases h; exact ⟨rfl, rfl, rfl⟩

theorem keepsActive_tlookupOp : KeepsActive tlookupOp := fun _ _ h => by cases h; exact ⟨rfl, rfl, rfl⟩

theorem keepsActive_offsetOp : KeepsActive offsetOp := fun _ _ h => by cases h; exact ⟨rfl, rfl, rfl⟩

theorem keepsActive_candOp : KeepsActive candOp := fun _ _ h => by cases h; exact ⟨rfl, rfl, rfl⟩

theorem keepsActive_cmp3Op : KeepsActive cmp3Op := fun _ _ h => by
  obtain ⟨b, rfl⟩ := cmp3Op_frame h
  exact ⟨rfl, rfl, rfl⟩

theorem keepsActive_setbitOp : KeepsActive setbitOp := fun _ _ h => by
  obtain ⟨-, rfl⟩ := setbitOp_eq_ok.mp h
  exact ⟨rfl, rfl, rfl⟩

theorem keepsActive_extendOp : KeepsActive extendOp := fun _ _ h => by
  obtain ⟨l, rfl⟩ := extendOp_frame h
  exact ⟨rfl, rfl, rfl⟩

/-- The match finder is its seven operations, one after another (42 R158 part 3). -/
theorem onEnc_findOp :
    onEnc (whenEnc findOp) = execAll [.eHash3, .eTindex, .eTlookup, .eOffset, .eCand, .eCmp3, .eAccept] :=
  onEnc_bind_eq_execAll rfl keepsActive_hash3Op <|
  onEnc_bind_eq_execAll rfl keepsActive_tindexOp <|
  onEnc_bind_eq_execAll rfl keepsActive_tlookupOp <|
  onEnc_bind_eq_execAll rfl keepsActive_offsetOp <|
  onEnc_bind_eq_execAll rfl keepsActive_candOp <|
  onEnc_bind_eq_execAll rfl keepsActive_cmp3Op (execAll_singleton .eAccept).symm

/-- The match's part is its three operations, one after another (42 R158 part 4). -/
theorem onEnc_matchPart : onEnc (whenEnc matchPart) = execAll [.eSetbit, .eExtend, .eEmitMatch] :=
  onEnc_bind_eq_execAll rfl keepsActive_setbitOp <|
  onEnc_bind_eq_execAll rfl keepsActive_extendOp (execAll_singleton .eEmitMatch).symm

theorem onEnc_endEncToken (u : State) :
    onEnc endEncToken u = .next { u with enc := { u.enc with
      w := .none
      result := if u.enc.spos = u.enc.slen then u.enc.dpos else u.enc.result
      mode := if u.enc.spos = u.enc.slen then .done else u.enc.mode } } := by
  simp only [onEnc, endEncToken, finishEncIfEnd]
  split <;> rfl

/-- The token and the end of the step, from the tail guard on (42 R158 parts 2 to 6). -/
theorem onEnc_token_end {s : State} (ha : encActive s.enc) :
    onEnc (fun e => tokenOp e >>= endEncToken) s =
      andThen (exec .eTailguard s) fun s2 =>
        if s2.enc.w.tail then andThen (exec .eEmitLit s2) (onEnc endEncToken)
        else andThen (execAll [.eHash3, .eTindex, .eTlookup, .eOffset, .eCand, .eCmp3, .eAccept] s2) fun s3 =>
          if s3.enc.w.accept then andThen (execAll [.eSetbit, .eExtend, .eEmitMatch] s3) (onEnc endEncToken)
          else andThen (exec .eEmitLit s3) (onEnc endEncToken) := by
  have hguard : exec .eTailguard s = .next { s with enc := tailGuarded s.enc } := by
    rw [exec_eTailguard]
    exact onEnc_active ha rfl
  have ha2 : encActive (tailGuarded s.enc) := ha
  rw [onEnc_bind, hguard, andThen, ← onEnc_findOp, ← onEnc_matchPart, exec_eEmitLit]
  cases ht : tailTest s.enc.slen s.enc.spos with
  | true =>
    have hw : (tailGuarded s.enc).w.tail = true := ht
    rw [if_pos hw, onEnc_congr_active ha2 (tokenOp_of_tail ht)]
  | false =>
    have hw : ¬ (tailGuarded s.enc).w.tail = true := by rw [Bool.not_eq_true]; exact ht
    have hbytes := (tailTest_eq_false _ _).mp ht
    have hfind : onEnc (whenEnc findOp) { s with enc := tailGuarded s.enc } =
        .next { s with enc := found (tailGuarded s.enc) } :=
      onEnc_active ha2 (findOp_of_three (by simp only [tailGuarded]; omega))
    have ha3 : encActive (found (tailGuarded s.enc)) := by
      obtain ⟨w, t, hfound, -⟩ := found_frame s.enc
      rw [hfound]
      exact ha
    have htok := tokenOp_of_not_tail ht
    rw [if_neg hw, hfind, andThen]
    simp only [exec_eEmitLit]
    by_cases hacc : (found (tailGuarded s.enc)).w.accept = true
    · rw [if_pos hacc] at htok ⊢
      rw [onEnc_congr_active ha3 htok]
    · rw [if_neg hacc] at htok ⊢
      rw [onEnc_congr_active ha3 htok]

/-- Settles O42: the frame step falls back or leaves a token, and a token is its micro-operations. -/
theorem encoderStepIsItsMicroOperations : Obligations.EncoderStepIsItsMicroOperations := by
  intro s ha fin
  have hfin : fin = onEnc endEncToken := funext fun u => (onEnc_endEncToken u).symm
  clear_value fin
  subst hfin
  rw [exec_eStep, exec_eFrame, onEnc_whenEnc_of_active ha, onEnc_whenEnc_of_active ha]
  rcases headroom_cases s.enc with ⟨hg, hr⟩ | hr
  · rw [onEnc_of_ok (frameOp_of_no_headroom hg hr), onEnc_of_ok (encStepOp_of_no_headroom hg hr), andThen,
      if_pos (fallbackEnc_mode _)]
    rfl
  · have hframe := frameOp_of_headroom ha hr
    have hb : (framed s.enc).mode = .busy := (framed_mode _).trans ha.1
    have ha1 : encActive (framed s.enc) := ⟨hb, by rw [framed_spos, framed_slen]; exact ha.2⟩
    rw [onEnc_of_ok hframe, onEnc_congr (g := fun e => tokenOp e >>= endEncToken) (encStepOp_of_frame hframe hb),
      onEnc_token_end (s := { s with enc := framed s.enc }) ha1, andThen, if_neg (by simp [ha.1])]

end Sys2Proof.Machine
end

section
/-! PROOFS. The capacity and the old destination never influence the bytes the encoder writes (42 R165). -/

namespace Sys2Proof.Machine

/-- A destination that agrees with the encoder's own at the addresses `P` and at those written from `lo` on. -/
def SameBytes (P : Nat → Prop) (lo : Nat) (e : Enc) (m : Mem) : Prop :=
  ∀ a, P a ∨ (lo ≤ a ∧ a < e.dpos.toNat) → cellRead m a = cellRead e.dst a

/-- The same write makes two memories agree at its address and keeps their agreement elsewhere. -/
theorem cellRead_write_congr {m m' : Mem} {a b : Nat} {v : Byte} (h : b ≠ a → cellRead m b = cellRead m' b) :
    cellRead (cellWrite m a v) b = cellRead (cellWrite m' a v) b := by
  rw [cellRead_write, cellRead_write]
  split
  case isTrue => rfl
  case isFalse hne => exact h hne

section
variable {P : Nat → Prop} {lo : Nat} {e e1 e1' : Enc} {m : Mem} {n : Word}

/-- The frame step writes the same copy-map byte at the same address. -/
theorem SameBytes.frame (h : SameBytes P lo e m)
    (hr : isNewGroup (shiftMask e.cmask) = true → e.dpos.toNat + 17 < e.dlen.toNat) :
    ∃ m', framed { e with dst := m, dlen := n } = { framed e with dst := m', dlen := n } ∧
      SameBytes P lo (framed e) m' := by
  cases hg : isNewGroup (shiftMask e.cmask) with
  | false =>
    rw [framed_inside hg, framed_inside (e := { e with dst := m, dlen := n }) hg]
    exact ⟨m, rfl, h⟩
  | true =>
    rw [framed_boundary hg, framed_boundary (e := { e with dst := m, dlen := n }) hg]
    have hroom := hr hg
    have hpos : (wordOf (e.dpos.toNat + 1)).toNat = e.dpos.toNat + 1 := wordOf_toNat_of_le (w := e.dlen) (by omega)
    refine ⟨_, rfl, fun a ha => cellRead_write_congr fun (hne : a ≠ e.dpos.toNat) =>
      h a (ha.imp_right fun ⟨hlo, hlt⟩ => ⟨hlo, ?_⟩)⟩
    have hlt' : a < e.dpos.toNat + 1 := hlt.trans_eq hpos
    omega

theorem SameBytes.lit (h : SameBytes P lo e m) (hd : e.dpos.toNat + 1 ≤ e.dlen.toNat) (w : EncWires) (t : Table) :
    ∃ m', litToken { e with dst := m, dlen := n } w t = { litToken e w t with dst := m', dlen := n } ∧
      SameBytes P lo (litToken e w t) m' := by
  have hpos : (litToken e w t).dpos.toNat = e.dpos.toNat + 1 := wordOf_toNat_of_le hd
  refine ⟨_, rfl, fun a ha => cellRead_write_congr fun (hne : a ≠ e.dpos.toNat) =>
      h a (ha.imp_right fun ⟨hlo, hlt⟩ => ⟨hlo, ?_⟩)⟩
  omega

theorem SameBytes.matchTok (h : SameBytes P lo e m) (hd : e.dpos.toNat + 2 ≤ e.dlen.toNat) (w : EncWires) (t : Table) :
    ∃ m', matchToken { e with dst := m, dlen := n } w t = { matchToken e w t with dst := m', dlen := n } ∧
      SameBytes P lo (matchToken e w t) m' := by
  have hpos : (matchToken e w t).dpos.toNat = e.dpos.toNat + 2 := wordOf_toNat_of_le hd
  refine ⟨_, rfl, fun a ha => cellRead_write_congr fun (h1 : a ≠ e.dpos.toNat + 1) =>
    cellRead_write_congr fun (h0 : a ≠ e.dpos.toNat) => cellRead_write_congr fun _ =>
      h a (ha.imp_right fun ⟨hlo, hlt⟩ => ⟨hlo, ?_⟩)⟩
  omega

/-- Which token is emitted, its wires and its table do not depend on the destination or its capacity. -/
theorem tokenOp_same_choice (h : tokenOp e = .ok e1) (h' : tokenOp { e with dst := m, dlen := n } = .ok e1') :
    ∃ (w : EncWires) (t : Table),
      (e.dpos.toNat + 1 ≤ e.dlen.toNat ∧ e1 = litToken e w t ∧ e1' = litToken { e with dst := m, dlen := n } w t) ∨
      (e.dpos.toNat + 2 ≤ e.dlen.toNat ∧ e1 = matchToken e w t ∧
        e1' = matchToken { e with dst := m, dlen := n } w t) := by
  cases ht : tailTest e.slen e.spos with
  | true =>
    rw [tokenOp_of_tail ht] at h
    rw [tokenOp_of_tail (e := { e with dst := m, dlen := n }) ht] at h'
    obtain ⟨-, hd, rfl⟩ := emitLitOp_eq_ok.mp h
    obtain ⟨-, -, rfl⟩ := emitLitOp_eq_ok.mp h'
    exact ⟨_, _, .inl ⟨hd, rfl, rfl⟩⟩
  | false =>
    obtain ⟨w, t, hfound, hfound'⟩ := found_frame e
    rw [tokenOp_of_not_tail ht, hfound] at h
    rw [tokenOp_of_not_tail (e := { e with dst := m, dlen := n }) ht, hfound' m n] at h'
    cases hacc : w.accept with
    | true =>
      rw [if_pos hacc] at h
      rw [if_pos (by exact hacc)] at h'
      obtain ⟨l, hext, -, hd, -, rfl⟩ := matchPart_eq_ok.mp h
      obtain ⟨l', hext', -, -, -, rfl⟩ := matchPart_eq_ok.mp h'
      have hsame := extendFrom_congr (e := { e with w := w, table := t })
        (e' := { e with w := w, table := t, dst := m, dlen := n }) rfl rfl rfl rfl 63 3
      obtain rfl : l' = l := Except.ok.inj (hext'.symm.trans (hsame.trans hext))
      exact ⟨{ w with len := lenFieldOf l' }, t, .inr ⟨hd, rfl, rfl⟩⟩
    | false =>
      rw [if_neg (by simp [hacc])] at h
      rw [if_neg (by simp [hacc])] at h'
      obtain ⟨-, hd, rfl⟩ := emitLitOp_eq_ok.mp h
      obtain ⟨-, -, rfl⟩ := emitLitOp_eq_ok.mp h'
      exact ⟨w, t, .inl ⟨hd, rfl, rfl⟩⟩

theorem SameBytes.token (hs : SameBytes P lo e m) (h : tokenOp e = .ok e1)
    (h' : tokenOp { e with dst := m, dlen := n } = .ok e1') :
    ∃ m', e1' = { e1 with dst := m', dlen := n } ∧ SameBytes P lo e1 m' := by
  obtain ⟨w, t, ⟨hd, rfl, rfl⟩ | ⟨hd, rfl, rfl⟩⟩ := tokenOp_same_choice h h'
  · exact hs.lit hd w t
  · exact hs.matchTok hd w t

theorem finishEncIfEnd_onDest :
    finishEncIfEnd { e with dst := m, dlen := n } = { finishEncIfEnd e with dst := m, dlen := n } := by
  unfold finishEncIfEnd
  by_cases h : e.spos = e.slen
  · rw [if_pos h, if_pos (by exact h)]
    rfl
  · rw [if_neg h, if_neg (by exact h)]

end

@[simp] theorem finishEncIfEnd_dpos (e : Enc) : (finishEncIfEnd e).dpos = e.dpos := by
  unfold finishEncIfEnd; split <;> rfl

/-- A token step that leaves the call going or uses the source up did not fall back. -/
theorem encStepOp_not_fallback {e e' : Enc} (ha : encActive e) (h : encStepOp e = .ok e')
    (hend : e'.mode = .busy ∨ e'.spos = e'.slen) :
    (isNewGroup (shiftMask e.cmask) = true → e.dpos.toNat + 17 < e.dlen.toNat) ∧
      ∃ e1, tokenOp (framed e) = .ok e1 ∧ e' = clearEncWires (finishEncIfEnd e1) := by
  refine (encStepOp_cases ha h).resolve_left ?_
  rintro ⟨-, -, rfl⟩
  rcases hend with hb | hs
  · cases hb
  · exact ha.2.ne (congrArg BitVec.toNat hs)

/-- Settles O44: the two steps frame and choose alike, and write the same bytes at the same addresses. -/
theorem capacityDoesNotChangeTheBytes : Obligations.CapacityDoesNotChangeTheBytes := by
  intro s t u m n ha ht hu htend huend
  rw [exec_eStep] at ht hu
  obtain ⟨e', hop, rfl⟩ := onEnc_eq_next.mp ht
  obtain ⟨e'', hop', rfl⟩ := onEnc_eq_next.mp hu
  have ha' : encActive { s.enc with dst := m, dlen := n } := ha
  rw [whenEnc_active ha.1 ha.2] at hop
  rw [whenEnc_active ha'.1 ha'.2] at hop'
  obtain ⟨hr, e1, htok, rfl⟩ := encStepOp_not_fallback ha hop htend
  obtain ⟨-, e1', htok', rfl⟩ := encStepOp_not_fallback ha' hop' huend
  have hstart : SameBytes (fun a => cellRead m a = cellRead s.enc.dst a) s.enc.dpos.toNat s.enc m := fun a h =>
    h.elim id fun ⟨hle, hlt⟩ => absurd hlt (not_lt.mpr hle)
  obtain ⟨m1, hframe, h1⟩ := hstart.frame hr (n := n)
  rw [hframe] at htok'
  obtain ⟨m2, rfl, h2⟩ := h1.token htok htok'
  refine ⟨?regs, fun a h => ?old, fun a hle hlt => ?written⟩
  case regs => rw [finishEncIfEnd_onDest]; rfl
  case old => simpa using h2 a (.inl h)
  case written => simpa using h2 a (.inr ⟨hle, by simpa using hlt⟩)

end Sys2Proof.Machine
end

section
/-! PROOFS. The decoder's elements and micro-operations, run by name: MAP, the selection, LIT, the replay, MATCH. -/

namespace Sys2Proof.Machine

/-! ### What the instructions run on the decoder -/

theorem exec_map (bits : Byte) (s : State) : exec (.map bits) s = onDec (whenDec (mapOp bits)) s := rfl

theorem exec_matchTok (len : LenField) (off : OffField) (s : State) :
    exec (.matchTok len off) s = onDec (whenDec (matchOp len off)) s := rfl

theorem exec_dFrame (s : State) : exec .dFrame s = onDec (whenDec decFrameOp) s := rfl

theorem exec_dSelect (s : State) : exec .dSelect s = onDec (whenDec selectOp) s := rfl

theorem exec_dLit (s : State) : exec .dLit s = onDec (whenDec decLitOp) s := rfl

theorem exec_dMatch (s : State) : exec .dMatch s = onDec (whenDec decMatchOp) s := rfl

theorem exec_dReplay (s : State) : exec .dReplay s = onDec (whenDecBusy replayOp) s := rfl

theorem onDec_whenDec_of_active {f : Dec → Except Fault Dec} {s : State} (ha : decActive s.dec) :
    onDec (whenDec f) s = onDec f s := by
  rw [onDec, onDec, whenDec_active ha.1 ha.2]

/-- Inside a token step an operation of the decoder that answers puts its answer into the state. -/
theorem onDec_active {f : Dec → Except Fault Dec} {s : State} {d : Dec} (ha : decActive s.dec)
    (h : f s.dec = .ok d) : onDec (whenDec f) s = .next { s with dec := d } :=
  (onDec_whenDec_of_active ha).trans (onDec_of_ok h)

/-- Two operations that do the same on the decoder do the same on the whole state. -/
theorem onDec_active_congr {f g : Dec → Except Fault Dec} {s : State} (ha : decActive s.dec)
    (h : f s.dec = g s.dec) : onDec (whenDec f) s = onDec (whenDec g) s := by
  rw [onDec_whenDec_of_active ha, onDec_whenDec_of_active ha, onDec, onDec, h]

/-! ### MAP, the frame step and the selection (43 R180 to R182) -/

/-- A map byte that is the last byte of the stream ends the call (43 R181). -/
theorem mapOp_trailing {bits : Byte} {d : Dec} (hb : d.mode = .busy) (h : d.spos.toNat + 1 = d.slen.toNat) :
    mapOp bits d =
      .ok (finishDec { d with cmask := 0x001, cmap := bits, spos := wordOf (d.spos.toNat + 1) }) := by
  have hend : wordOf (d.spos.toNat + 1) = d.slen :=
    BitVec.eq_of_toNat_eq ((wordOf_toNat_of_le (w := d.slen) h.le).trans h)
  exact mapOp_eq_ok.mpr ⟨h.le, (finishDecIfEnd_of_end (by exact hb) (by exact hend)).symm⟩

/-- Settles O46: the map byte is inside the stream or its last. -/
theorem mapElement : Obligations.MapElement := by
  intro s bits ha
  rw [exec_map]
  exact ⟨wordOf (s.dec.spos.toNat + 1), wordOf_toNat_of_le (w := s.dec.slen) ha.2,
    fun hinside => onDec_active ha (mapOp_inside hinside), fun hlast => onDec_active ha (mapOp_trailing ha.1 hlast)⟩

/-- The selection asks whether the copy map and the mask share a bit. -/
theorem mapBit_iff (cmap : Byte) (m : BitVec 9) :
    mapBit cmap m = true ↔ ∃ i < 8, cmap.getLsbD i = true ∧ m.getLsbD i = true := by
  have hbit : ∀ i < 8, (cmap &&& maskBits m).getLsbD i = (cmap.getLsbD i && m.getLsbD i) := fun i hi => by
    rw [BitVec.getLsbD_and, maskBits, BitVec.getLsbD_setWidth, decide_eq_true hi, Bool.true_and]
  rw [mapBit, bne_iff_ne]
  refine (BitVec.zero_iff_eq_false.not.trans not_forall).trans ?_
  constructor
  · rintro ⟨i, hi⟩
    rw [Bool.not_eq_false] at hi
    have hlt := BitVec.lt_of_getLsbD hi
    rw [hbit i hlt, Bool.and_eq_true] at hi
    exact ⟨i, hlt, hi⟩
  · rintro ⟨i, hlt, hi⟩
    exact ⟨i, by rw [hbit i hlt, Bool.not_eq_false, Bool.and_eq_true]; exact hi⟩

/-- Settles O47, from the frame step's two equations and what the selection asks. -/
theorem decoderFrameAndSelect : Obligations.DecoderFrameAndSelect := by
  intro s ha
  rw [exec_dFrame, exec_map, exec_dSelect]
  refine ⟨fun hm => ?inside, fun hm => ?boundary, ?select⟩
  case inside =>
    have hg := (isNewGroup_shiftMask_eq_false _).mpr hm
    exact onDec_active ha (decFrameOp_inside hg)
  case boundary =>
    have hframe := decFrameOp_boundary ((isNewGroup_shiftMask _).mpr hm) ha.2
    exact ⟨onDec_active_congr ha hframe, _, onDec_active ha (hframe.trans (mapOp_eq_ok.mpr ⟨ha.2, rfl⟩))⟩
  case select => exact ⟨mapBit s.dec.cmap s.dec.cmask, onDec_active ha rfl, mapBit_iff _ _⟩

/-! ### LIT (43 R183) -/

theorem exec_dLit_fetched {s : State} (ha : decActive s.dec) :
    exec .dLit s = exec (.lit (cellRead s.dec.src s.dec.spos.toNat)) s := by
  rw [exec_dLit, exec_lit]
  exact onDec_active_congr ha (decLitOp_active ha.2)

/-- Settles O48: without room the literal raises, else its one store is read back. -/
theorem literalElement : Obligations.LiteralElement := by
  intro s b ha
  refine ⟨exec_dLit_fetched ha, fun hfull => ?full, fun hroom => ?room⟩
  case full => exact onDec_active ha (litOp_eq_ok.mpr (.inl ⟨hfull, rfl⟩))
  case room =>
    exact ⟨_, onDec_active ha (litOp_eq_ok.mpr (.inr ⟨hroom, ha.2, rfl⟩)), rfl,
      wordOf_toNat_of_le (w := s.dec.dcap) hroom, wordOf_toNat_of_le (w := s.dec.slen) ha.2,
      fun a => cellRead_write s.dec.dst _ a b⟩

/-! ### The replay in closed form (43 R189) -/

/-- The replayed bytes are the `off` bytes before the cursor, repeated cyclically: each byte stored takes the place of
the one `off` before it, so the window of the last `off` bytes turns by one. -/
theorem replayFrom_cyclic {off : Nat} (ho : 1 ≤ off) : ∀ {n : Nat} {d d' : Dec}, off ≤ d.dpos.toNat →
    replayFrom off n d = .ok d' → ∀ i < n,
      cellRead d'.dst (d.dpos.toNat + i) = cellRead d.dst (d.dpos.toNat - off + i % off)
  | 0, _, _, _, _, i, hi => absurd hi (Nat.not_lt_zero i)
  | n + 1, d, d', hback, h, i, hi => by
    simp only [replayFrom, bind_eq_ok, pushDdst_eq_ok, replayByte, if_pos hback, readDdst_eq_ok] at h
    obtain ⟨_, ⟨-, rfl⟩, d1, ⟨hlt, rfl⟩, h⟩ := h
    have hpos : (wordOf (d.dpos.toNat + 1)).toNat = d.dpos.toNat + 1 := wordOf_toNat_of_le (w := d.dcap) hlt
    obtain ⟨-, -, hframe⟩ := replayFrom_eq_ok h
    have hcyclic := replayFrom_cyclic ho (by simp only [hpos]; omega) h
    simp only [hpos, cellRead_write] at hframe hcyclic
    cases i with
    | zero => rw [Nat.add_zero, hframe _ (by omega), if_pos rfl, Nat.zero_mod, Nat.add_zero]
    | succ i =>
      have hwindow := Nat.mod_lt i ho
      rw [← Nat.add_assoc, Nat.add_right_comm, hcyclic i (by omega)]
      by_cases hwrap : i % off + 1 = off
      · have hmod : (i + 1) % off = 0 := by rw [← Nat.mod_add_mod, hwrap, Nat.mod_self]
        rw [hmod, if_pos (by omega), Nat.add_zero]
      · have hmod : (i + 1) % off = i % off + 1 := by rw [← Nat.mod_add_mod, Nat.mod_eq_of_lt (by omega)]
        rw [hmod, if_neg (by omega)]
        congr 1
        omega

/-- What a replay of `n` bytes does: it moves the write cursor by `n`, fills the bytes it passes with the `off` bytes
before it, repeated cyclically, and changes nothing else. -/
structure Replayed (off n : Nat) (d d' : Dec) : Prop where
  frame : d' = { d with dst := d'.dst, dpos := d'.dpos }
  dpos : d'.dpos.toNat = d.dpos.toNat + n
  bytes : ∀ i < n, cellRead d'.dst (d.dpos.toNat + i) = cellRead d.dst (d.dpos.toNat - off + i % off)
  others : ∀ a, a < d.dpos.toNat ∨ d.dpos.toNat + n ≤ a → cellRead d'.dst a = cellRead d.dst a

theorem replayFrom_replays {off n : Nat} {d : Dec} (ho : 1 ≤ off) (hback : off ≤ d.dpos.toNat)
    (hroom : d.dpos.toNat + n ≤ d.dcap.toNat) : ∃ d', replayFrom off n d = .ok d' ∧ Replayed off n d d' := by
  obtain ⟨d', h⟩ := replayFrom_total ho hback hroom
  obtain ⟨hframe, hpos, hothers⟩ := replayFrom_eq_ok h
  exact ⟨d', h, hframe, hpos, replayFrom_cyclic ho hback h, hothers⟩

/-- Settles O51: the unit is the replay of the wires. -/
theorem replayClosedForm : Obligations.ReplayClosedForm := by
  intro s hb ho hback hroom
  obtain ⟨d', hreplay, hframe, hpos, hbytes, hothers⟩ := replayFrom_replays ho hback hroom
  have hop : whenDecBusy replayOp s.dec = .ok d' := (if_pos hb).trans hreplay
  rw [exec_dReplay]
  exact ⟨{ s with dec := d' }, onDec_of_ok hop, congrArg (fun d => { s with dec := d }) hframe, hpos, hbytes,
    hothers⟩

/-! ### MATCH (43 R184) -/

/-- Settles O50: a match that passes its checks is the replay past its two bytes. -/
theorem matchElementReplays : Obligations.MatchElementReplays := by
  intro s len off ha hs ho hback hroom
  have hne : off ≠ 0 := by rintro rfl; simp at ho
  obtain ⟨d', hreplay, hframe, hpos, hbytes, hothers⟩ := replayFrom_replays (n := mlenOf len)
    (d := { s.dec with spos := wordOf (s.dec.spos.toNat + 2), w := { s.dec.w with len := len, off := off } })
    ho hback hroom
  have hspos : d'.spos = wordOf (s.dec.spos.toNat + 2) := by rw [hframe]
  rw [exec_matchTok]
  refine ⟨{ s with dec := d' }, onDec_active ha ((matchOp_accepted hs hback hne hroom).trans hreplay), ?_,
    (congrArg BitVec.toNat hspos).trans (wordOf_toNat_of_le hs), hpos, hbytes, hothers⟩
  simp only [hspos]
  exact congrArg (fun d => { s with dec := d }) hframe

/-- Where both bytes of a match are left, `D.MATCH` is the match they decode to. -/
theorem exec_dMatch_fetched {s : State} (ha : decActive s.dec) (hs : s.dec.spos.toNat + 2 ≤ s.dec.slen.toNat) :
    exec .dMatch s = exec (decodeMatch (cellRead s.dec.src s.dec.spos.toNat)
      (cellRead s.dec.src (s.dec.spos.toNat + 1))) s := by
  rw [exec_dMatch, exec_decodeMatch]
  refine onDec_active_congr ha ?_
  rw [elementOp_decodeMatch]
  exact decMatchOp_whole hs

theorem decodeMatch_of_pos {b0 b1 : Byte} (h : 1 ≤ (offOfBytes b0 b1).toNat) :
    decodeMatch b0 b1 = .matchTok (lenOfByte0 b0) (offOfBytes b0 b1) :=
  if_neg fun h0 => by rw [h0] at h; simp at h

/-- `D.LIT` and `D.MATCH` answer in every state of a call. -/
theorem exec_dToken_answers {s : State} (ha : decActive s.dec) (b : Bool) :
    ∃ t, exec (if b then .dMatch else .dLit) s = .next t := by
  obtain ⟨d', hop, -⟩ := decTokenOp_progress b ha.1 ha.2
  cases b with
  | false => exact ⟨_, onDec_active (f := decLitOp) ha hop⟩
  | true => exact ⟨_, onDec_active (f := decMatchOp) ha hop⟩

/-- Settles O52: each fetch is the element of its bytes, whose effect O48 and O50 give. -/
theorem tokenFetchRunsElement : Obligations.TokenFetchRunsElement := by
  intro s ha
  refine ⟨fun hroom => ?lit, fun hs => exec_dMatch_fetched ha hs, fun off mlen hs hoff hmlen ho hback hfit => ?mat,
    fun hlast => ?truncated, exec_dToken_answers ha false, exec_dToken_answers ha true⟩
  case lit =>
    obtain ⟨hfetch, -, hstore⟩ := literalElement s (cellRead s.dec.src s.dec.spos.toNat) ha
    obtain ⟨t, hexec, -, hdpos, hspos, hbytes⟩ := hstore hroom
    exact ⟨t, hfetch.trans hexec, hspos, hdpos, (hbytes _).trans (if_pos rfl)⟩
  case mat =>
    rw [← offOfBytes_toNat] at hoff
    rw [← lenOfByte0_toNat, ← mlenOf] at hmlen
    subst hoff hmlen
    obtain ⟨t, hexec, -, hspos, hdpos, hbytes, -⟩ := matchElementReplays s _ _ ha hs ho hback hfit
    rw [exec_dMatch_fetched ha hs, decodeMatch_of_pos ho]
    exact ⟨t, hexec, hspos, hdpos, hbytes⟩
  case truncated => exact onDec_active ha (decMatchOp_truncated ha.2 hlast.le)

end Sys2Proof.Machine
end

section
/-! PROOFS. The decoder's step at a group boundary, and where every token step of a call ends. -/

namespace Sys2Proof.Machine

/-! ### A boundary step runs the MAP it fetches (43 R180, R181, R191) -/

/-- Selection and token, run by name one after the other, are the token the copy-map bit selects. -/
theorem execAll_select_token {s : State} (ha : decActive s.dec) :
    execAll [.dSelect, if mapBit s.dec.cmap s.dec.cmask then .dMatch else .dLit] s =
      onDec (fun d => if mapBit d.cmap d.cmask then decMatchOp (selected d) else decLitOp (selected d)) s := by
  have hselect : exec .dSelect s = .next { s with dec := selected s.dec } := onDec_active ha rfl
  have ha' : decActive (selected s.dec) := ha
  rw [execAll, hselect, andThen, execAll_singleton]
  split
  case isTrue hm =>
    rw [exec_dMatch, onDec_whenDec_of_active (by exact ha'), onDec, onDec, if_pos hm]
  case isFalse hm =>
    rw [exec_dLit, onDec_whenDec_of_active (by exact ha'), onDec, onDec, if_neg hm]

/-- A token step of a call that its frame step leaves going selects a token, runs it and makes the end test. -/
theorem onDec_decStepOp_of_frame {s : State} {d1 : Dec} (hframe : decFrameOp s.dec = .ok d1) (ha : decActive d1) :
    onDec decStepOp s =
      andThen (execAll [.dSelect, if mapBit d1.cmap d1.cmask then .dMatch else .dLit] { s with dec := d1 })
        fun u => .next { u with dec := endToken u.dec } := by
  have hend : (fun u : State => Host.Outcome.next { u with dec := endToken u.dec }) =
      onDec fun d => .ok (endToken d) := rfl
  rw [hend, execAll_select_token (s := { s with dec := d1 }) ha, ← onDec_bind, onDec, onDec,
    decStepOp_of_frame hframe ha.1]

/-- A token step whose frame step ended the call only lets the wires go. -/
theorem decStepOp_of_frame_ended {d d1 : Dec} (hframe : decFrameOp d = .ok d1) (hb : d1.mode ≠ .busy) :
    decStepOp d = .ok (clearDecWires d1) := by
  rw [decStepOp, hframe, ok_bind, if_neg hb]
  rfl

/-- Settles O6: the MAP sets the mask itself, so the frame step is the MAP run from any mask. -/
theorem stepRunsDecodedMap : Obligations.StepRunsDecodedMap := by
  intro s rest i t hsched ha hg hfetch hexec
  rw [fetchElement_map ha.2] at hfetch
  cases hfetch
  rw [exec_map] at hexec
  obtain ⟨d1, hwhen, rfl⟩ := onDec_eq_next.mp hexec
  have hmap : mapOp (cellRead s.dec.src s.dec.spos.toNat) s.dec = .ok d1 :=
    (whenDec_active (d := { s.dec with cmask := 0x100 }) ha.1 ha.2).symm.trans hwhen
  have hframe : decFrameOp s.dec = .ok d1 := (decFrameOp_boundary hg ha.2).trans hmap
  rw [step_of_sched hsched, agentMove, exec_dStep, onDec_whenDec_of_active (s := { s with sched := rest }) ha]
  refine ⟨rfl, fun hlast => ?trailing, fun hmore => ?inside⟩
  case trailing =>
    obtain rfl := Except.ok.inj (hmap.symm.trans (mapOp_trailing ha.1 hlast))
    exact onDec_of_ok (decStepOp_of_frame_ended hframe (by simp))
  case inside =>
    obtain rfl := Except.ok.inj (hmap.symm.trans (mapOp_inside hmore))
    exact onDec_decStepOp_of_frame (s := { s with sched := rest }) hframe
      ⟨ha.1, (wordOf_toNat_of_le (w := s.dec.slen) ha.2).trans_lt hmore⟩

/-! ### Where a token step ends (43 R191, R192, R194, 60 R238) -/

/-- The call has ended in OK with the stream used up (43 R192). -/
def EndedOk (d : Dec) : Prop := d.mode = .done ∧ d.code = .ok ∧ d.spos = d.slen ∧ d.count = d.dpos

theorem endedOk_finishDecIfEnd {d : Dec} (hb : d.mode = .busy) (h : d.spos = d.slen) : EndedOk (finishDecIfEnd d) := by
  rw [finishDecIfEnd_of_end hb h]
  exact ⟨rfl, rfl, h, rfl⟩

/-- The frame step ends the call at a trailing map byte, or leaves a token to run: it moves the cursor by at most 1. -/
theorem decFrameOp_ends {d : Dec} (ha : decActive d) :
    ∃ d1, decFrameOp d = .ok d1 ∧
      (EndedOk d1 ∨ d1 = { d with cmask := d1.cmask, cmap := d1.cmap, spos := d1.spos } ∧
        d.spos.toNat ≤ d1.spos.toNat ∧ d1.spos.toNat ≤ d.spos.toNat + 1 ∧ d1.spos.toNat < d1.slen.toNat) := by
  cases hg : isNewGroup (shiftMask d.cmask) with
  | false => exact ⟨_, decFrameOp_inside hg, .inr ⟨rfl, le_refl _, Nat.le_add_right _ _, ha.2⟩⟩
  | true =>
    rw [decFrameOp_boundary hg ha.2]
    have hcur : (wordOf (d.spos.toNat + 1)).toNat = d.spos.toNat + 1 := wordOf_toNat_of_le (w := d.slen) ha.2
    rcases Nat.eq_or_lt_of_le (show d.spos.toNat + 1 ≤ d.slen.toNat from ha.2) with hlast | hmore
    · exact ⟨_, mapOp_trailing ha.1 hlast, .inl ⟨rfl, rfl, BitVec.eq_of_toNat_eq (hcur.trans hlast), rfl⟩⟩
    · exact ⟨_, mapOp_inside hmore, .inr ⟨rfl, by simp only [hcur]; omega, hcur.le, hcur.trans_lt hmore⟩⟩

/-- A given token raises an error, which changes code and mode only, or leaves the mode. -/
theorem runToken_raised_or {t : Token} {d d' : Dec} (h : runToken t d = .ok d') :
    (∃ c, c ≠ .ok ∧ d' = raiseDec c d) ∨ d'.mode = d.mode := by
  cases t with
  | lit b =>
    rcases litOp_eq_ok.mp h with ⟨-, rfl⟩ | ⟨-, -, rfl⟩
    · exact .inl ⟨.wouldOverflow, nofun, rfl⟩
    · exact .inr rfl
  | mat len off =>
    rcases matchOp_cases h with ⟨rfl, -⟩ | ⟨rfl, -⟩ | ⟨-, -, -, -, hreplay⟩
    · exact .inl ⟨.badData, nofun, rfl⟩
    · exact .inl ⟨.wouldOverflow, nofun, rfl⟩
    · obtain ⟨heq, -⟩ := replayFrom_eq_ok hreplay
      exact .inr (by rw [heq])

/-- The selected token raises an error or moves the cursor by 1 or 2 bytes of the stream. -/
theorem decTokenOp_ends (b : Bool) {d : Dec} (ha : decActive d) :
    ∃ d', (if b then decMatchOp d else decLitOp d) = .ok d' ∧
      ((∃ c, c ≠ .ok ∧ d' = raiseDec c d) ∨
        d'.mode = .busy ∧ d'.slen = d.slen ∧ d.spos.toNat < d'.spos.toNat ∧ d'.spos.toNat ≤ d.spos.toNat + 2 ∧
          d'.spos.toNat ≤ d.slen.toNat) := by
  rcases decTokenOp_cases b ha.2 with ⟨t, htok⟩ | hcut
  · obtain ⟨d', hrun⟩ := runToken_total t ha.2
    refine ⟨d', htok.trans hrun, (runToken_raised_or hrun).imp_right fun hmode => ?_⟩
    have hb := hmode.trans ha.1
    obtain ⟨hleft, heq⟩ := runToken_frame hrun hb
    have hcur : d'.spos.toNat = d.spos.toNat + (tokenBytes t).length := by rw [heq]; exact wordOf_toNat_of_le hleft
    have hpos := tokenBytes_length_pos t
    have htwo : (tokenBytes t).length ≤ 2 := by cases t <;> simp [tokenBytes]
    exact ⟨hb, by rw [heq], by omega, by omega, by omega⟩
  · exact ⟨_, hcut, .inl ⟨.badData, nofun, rfl⟩⟩

/-- The end test leaves a raised error as it is. -/
theorem endToken_raiseDec (c : Code) (d : Dec) : endToken (raiseDec c d) = clearDecWires (raiseDec c d) := by
  rw [endToken, finishDecIfEnd_of_not_busy (by simp)]

/-- Settles O53: the frame step ends the call or leaves a token, and the token raises or moves on to the end test. -/
theorem decoderStepCompletes : Obligations.DecoderStepCompletes := by
  intro s hi hb
  have ha : decActive s.dec := ⟨hb, hi.cursor hb⟩
  rw [exec_dStep]
  obtain ⟨d1, hframe, hend | ⟨heq, hge, hle, hlt⟩⟩ := decFrameOp_ends ha
  · exact ⟨_, onDec_active ha (decStepOp_of_frame_ended hframe (by simp [hend.1])), .inl hend⟩
  have hb1 : d1.mode = .busy := by rw [heq]; exact hb
  have hslen : d1.slen = s.dec.slen := by rw [heq]
  obtain ⟨d2, htok, hcase⟩ := decTokenOp_ends (mapBit d1.cmap d1.cmask) (d := selected d1) ⟨hb1, hlt⟩
  have hop : decStepOp s.dec = .ok (endToken d2) := by rw [decStepOp_of_frame hframe hb1, htok, ok_bind]
  refine ⟨_, onDec_active ha hop, ?_⟩
  rcases hcase with ⟨c, hc, rfl⟩ | ⟨hb2, hslen2, hgt2, hle2, hin2⟩
  · rw [endToken_raiseDec, heq]
    exact .inr (.inl ⟨rfl, hc, (hi.busyResult hb).1, rfl, rfl⟩)
  · by_cases hend : d2.spos = d2.slen
    · exact .inl (endedOk_finishDecIfEnd hb2 hend)
    · have hne : d2.spos.toNat ≠ d2.slen.toNat := fun h => hend (BitVec.eq_of_toNat_eq h)
      refine .inr (.inr ⟨(endToken_mode hb2).trans (if_neg hend), ?_⟩)
      simp only [endToken_spos, endToken_slen, hslen2, selected] at hne hgt2 hle2 hin2 ⊢
      omega

end Sys2Proof.Machine
end

section
/-! PROOFS. The capacity of `decompress` decides only whether it stops before the end (43 R196). -/

namespace Sys2Proof.Machine

section
variable {src : List Byte} {fuel spos : Nat} {cmask : BitVec 9} {cmap : Byte} {out : List Byte}

/-- A token stops the loop for every capacity alike, or asks only for room for its output. -/
theorem refDecompressToken_cases :
    (∃ r, r.out = out ∧ ∀ cap, refDecompressToken src cap fuel spos cmask cmap out = r) ∨
      ∃ (spos' : Nat) (out' : List Byte), out.length ≤ out'.length ∧
        ∀ cap, refDecompressToken src cap fuel spos cmask cmap out =
          if out'.length ≤ cap then refDecompressLoop src cap fuel spos' cmask cmap out'
          else ⟨.wouldOverflow, 0, out⟩ := by
  unfold refDecompressToken
  by_cases hend : spos = src.length
  · exact .inl ⟨_, rfl, fun cap => if_pos hend⟩
  simp only [if_neg hend]
  cases hmat : mapBit cmap cmask with
  | false =>
    refine .inr ⟨spos + 1, out ++ [byteAt src spos], by simp, fun cap => ?_⟩
    by_cases hroom : out.length ≥ cap
    · rw [if_neg Bool.false_ne_true, if_pos hroom, if_neg (by simpa using hroom)]
    · rw [if_neg Bool.false_ne_true, if_neg hroom, if_pos (by simpa using hroom)]
  | true =>
    simp only [if_true]
    generalize hmlen : (byteAt src spos).toNat / 4 + 3 = mlen
    generalize ((byteAt src spos).toNat * 256 + (byteAt src (spos + 1)).toNat) % 1024 = off
    by_cases hcut : src.length - spos < 2
    · exact .inl ⟨_, rfl, fun cap => if_pos hcut⟩
    by_cases hback : off > out.length
    · exact .inl ⟨_, rfl, fun cap => (if_neg hcut).trans (if_pos hback)⟩
    by_cases hzero : off = 0
    · exact .inl ⟨_, rfl, fun cap => (if_neg hcut).trans ((if_neg hback).trans (if_pos hzero))⟩
    refine .inr ⟨spos + 2, refReplay off mlen out, by simp [refReplay_length], fun cap => ?_⟩
    rw [if_neg hcut, if_neg hback, if_neg hzero, refReplay_length]
    by_cases hroom : mlen > cap - out.length
    · rw [if_pos hroom, if_neg (by omega)]
    · rw [if_neg hroom, if_pos (by omega)]

/-- An iteration stops the loop for every capacity alike, or asks only for room for its output. -/
theorem refDecompressLoop_cases :
    (∃ r, r.out = out ∧ ∀ cap, refDecompressLoop src cap (fuel + 1) spos cmask cmap out = r) ∨
      ∃ (spos' : Nat) (cmask' : BitVec 9) (cmap' : Byte) (out' : List Byte), out.length ≤ out'.length ∧
        ∀ cap, refDecompressLoop src cap (fuel + 1) spos cmask cmap out =
          if out'.length ≤ cap then refDecompressLoop src cap fuel spos' cmask' cmap' out'
          else ⟨.wouldOverflow, 0, out⟩ := by
  rcases Nat.lt_or_ge spos src.length with hlt | hge
  · cases hg : isNewGroup (shiftMask cmask) with
    | false =>
      simp only [refDecompressLoop_inside hlt hg]
      exact refDecompressToken_cases.imp_right fun ⟨spos', out', h⟩ => ⟨spos', _, _, out', h⟩
    | true =>
      simp only [refDecompressLoop_boundary hlt hg]
      exact refDecompressToken_cases.imp_right fun ⟨spos', out', h⟩ => ⟨spos', _, _, out', h⟩
  · exact .inl ⟨_, rfl, fun cap => refDecompressLoop_end hge⟩

end

/-- The loop only appends. -/
theorem refDecompressLoop_out_length (src : List Byte) (cap : Nat) : ∀ (fuel spos : Nat) (cmask : BitVec 9)
    (cmap : Byte) (out : List Byte), out.length ≤ (refDecompressLoop src cap fuel spos cmask cmap out).out.length
  | 0, _, _, _, _ => le_refl _
  | fuel + 1, _, _, _, _ => by
    rcases refDecompressLoop_cases with ⟨r, hout, h⟩ | ⟨spos', cmask', cmap', out', hlen, h⟩
    · rw [h, hout]
    · rw [h]
      split
      case isTrue => exact hlen.trans (refDecompressLoop_out_length src cap fuel spos' cmask' cmap' out')
      case isFalse => exact le_refl _

/-- A loop that ends in OK for one capacity has the same result for every other that holds its output, and overflows
for every smaller one: the first token that does not fit there stops it. -/
theorem refDecompressLoop_capacity {src : List Byte} {cap cap' : Nat} : ∀ {fuel spos : Nat} {cmask : BitVec 9}
    {cmap : Byte} {out : List Byte}, out.length ≤ cap' →
    (refDecompressLoop src cap fuel spos cmask cmap out).code = .ok →
    ((refDecompressLoop src cap fuel spos cmask cmap out).out.length ≤ cap' →
      refDecompressLoop src cap' fuel spos cmask cmap out = refDecompressLoop src cap fuel spos cmask cmap out) ∧
    (cap' < (refDecompressLoop src cap fuel spos cmask cmap out).out.length →
      (refDecompressLoop src cap' fuel spos cmask cmap out).code = .wouldOverflow)
  | 0, _, _, _, _, hcap', _ => ⟨fun _ => rfl, fun hlt => absurd hcap' (not_le.mpr hlt)⟩
  | fuel + 1, spos, cmask, cmap, out, hcap', hok => by
    rcases refDecompressLoop_cases (src := src) (fuel := fuel) (spos := spos) (cmask := cmask) (cmap := cmap)
      (out := out) with ⟨r, hout, h⟩ | ⟨spos', cmask', cmap', out', hlen, h⟩
    · rw [h, h, hout]
      exact ⟨fun _ => rfl, fun hlt => absurd hcap' (not_le.mpr hlt)⟩
    · have hfits : out'.length ≤ cap := by
        by_contra hnot
        rw [h, if_neg hnot] at hok
        cases hok
      rw [h, if_pos hfits] at hok
      rw [h, h, if_pos hfits]
      by_cases hfits' : out'.length ≤ cap'
      · rw [if_pos hfits']
        exact refDecompressLoop_capacity hfits' hok
      · have hgrows := refDecompressLoop_out_length src cap fuel spos' cmask' cmap' out'
        rw [if_neg hfits']
        exact ⟨fun hle => absurd (hgrows.trans hle) hfits', fun _ => rfl⟩

/-- Settles O20: the loop begins with nothing produced, which fits every capacity. -/
theorem overflowDetection : Obligations.OverflowDetection := by
  intro stream cap cap' hok
  exact (refDecompressLoop_capacity (Nat.zero_le cap') hok).symm

end Sys2Proof.Machine
end

section
/-! PROOFS. The size bound: what a call into a large enough destination keeps (41 R146, 44 R214). -/

namespace Sys2Proof.Machine

/-- Where a group opens, the group before has no token to come. -/
theorem tokensLeft_boundary {m : BitVec 9} (hm : isTokenMask m = true) (hg : isNewGroup (shiftMask m) = true) :
    tokensLeft m = 0 := by
  obtain ⟨k, hk, rfl⟩ := (isTokenMask_iff m).mp hm
  revert k
  decide

theorem BoundInv.start {e : Enc} (hb : e.mode ≠ .busy) (h : sizeBound e.slen.toNat ≤ e.dlen.toNat) :
    BoundInv (startEnc e) where
  bound := by rwa [startEnc_slen e hb, startEnc_dlen e hb]
  written := fun _ => by rw [startEnc_dpos e hb]; exact Nat.zero_le _

/-- At a boundary the size bound leaves more than the headroom: at most 9/8 of the bytes passed are written. -/
theorem BoundInv.headroom {e : Enc} (h : BoundInv e) (hi : EncInv e) (hb : e.mode = .busy)
    (hg : isNewGroup (shiftMask e.cmask) = true) : e.dpos.toNat + 17 < e.dlen.toNat := by
  have hleft := tokensLeft_boundary (hi.mask hb) hg
  have hwritten := h.written hb
  have hcursor := hi.cursor hb
  have hbound := h.bound
  simp only [sizeBound, Config.boundPad] at hbound
  omega

/-- After the frame step the current token still has its eighth: a new group has 8 of them for its map byte. -/
theorem BoundInv.frame {e : Enc} (h : BoundInv e) (hi : EncInv e) (hb : e.mode = .busy) :
    8 * (framed e).dpos.toNat ≤ 9 * (framed e).spos.toNat + (tokensLeft (framed e).cmask + 1) := by
  have hwritten := h.written hb
  cases hg : isNewGroup (shiftMask e.cmask) with
  | false =>
    obtain ⟨-, -, hleft, -⟩ := shiftMask_inside (hi.mask hb) hg
    simp only [framed_inside hg]
    omega
  | true =>
    have hroom := h.headroom hi hb hg
    have hd : (wordOf (e.dpos.toNat + 1)).toNat = e.dpos.toNat + 1 := wordOf_toNat_of_le (w := e.dlen) (by omega)
    have hclosed := tokensLeft_boundary (hi.mask hb) hg
    have hopen : tokensLeft 0x001 = 7 := rfl
    simp only [framed_boundary hg, hd, hopen]
    omega

/-- A token writes 1 byte for 1 of the source, or 2 for at least 3, and spends its eighth. -/
theorem tokenOp_written {e e' : Enc} (h : tokenOp e = .ok e')
    (hw : 8 * e.dpos.toNat ≤ 9 * e.spos.toNat + (tokensLeft e.cmask + 1)) :
    e'.slen = e.slen ∧ e'.dlen = e.dlen ∧ 8 * e'.dpos.toNat ≤ 9 * e'.spos.toNat + tokensLeft e'.cmask := by
  obtain ⟨w, t, -, ⟨hs, hd, rfl⟩ | ⟨hs, hd, rfl⟩⟩ := tokenOp_cases h
  · have hpos : (litToken e w t).dpos.toNat = e.dpos.toNat + 1 := wordOf_toNat_of_le hd
    have hcur : (litToken e w t).spos.toNat = e.spos.toNat + 1 := wordOf_toNat_of_le hs
    refine ⟨rfl, rfl, ?_⟩
    rw [hpos, hcur, litToken_cmask]
    omega
  · have hpos : (matchToken e w t).dpos.toNat = e.dpos.toNat + 2 := wordOf_toNat_of_le hd
    have hcur : (matchToken e w t).spos.toNat = e.spos.toNat + mlenOf w.len := wordOf_toNat_of_le hs
    refine ⟨rfl, rfl, ?_⟩
    rw [hpos, hcur, matchToken_cmask, mlenOf]
    omega

@[simp] theorem finishEncIfEnd_dlen (e : Enc) : (finishEncIfEnd e).dlen = e.dlen := by
  unfold finishEncIfEnd; split <;> rfl

@[simp] theorem finishEncIfEnd_fallback (e : Enc) : (finishEncIfEnd e).fallback = e.fallback := by
  unfold finishEncIfEnd; split <;> rfl

/-- Settles O13: at a boundary the bound leaves the headroom, so the step frames and emits a token, and each of the two
keeps the count of the bytes written. -/
theorem sizeBoundNeverFallsBack : Obligations.SizeBoundNeverFallsBack := by
  refine ⟨fun e hb h => .start hb h, fun s t hi h hb hstep => ?_⟩
  rw [exec_eStep] at hstep
  obtain ⟨e', hop, rfl⟩ := onEnc_eq_next.mp hstep
  rw [whenEnc_active hb (hi.cursor hb)] at hop
  rcases encStepOp_cases ⟨hb, hi.cursor hb⟩ hop with ⟨hg, hnone, -⟩ | ⟨hr, e1, htok, rfl⟩
  · have hroom := h.headroom hi hb hg
    omega
  · have hmid := (hi.frame hb hr).token htok
    have hroom := hmid.room
    obtain ⟨hslen, hdlen, hwritten⟩ := tokenOp_written htok (h.frame hi hb)
    rw [framed_slen] at hslen
    rw [framed_dlen] at hdlen
    refine ⟨by simpa using hmid.busyResult.2, ⟨?_, fun _ => by simpa using hwritten⟩, ?_⟩
    · simpa [hslen, hdlen] using h.bound
    · simp only [clearEncWires_dpos, clearEncWires_dlen, finishEncIfEnd_dpos, finishEncIfEnd_dlen]
      omega

end Sys2Proof.Machine
end

section
/-! PROOFS. The host commands: the start commands, register writes and reads, and what they leave unchanged. -/

namespace Sys2Proof.Machine

/-! ### Start commands (44 R210, R211) -/

theorem exec_encStart_of_bit {v : Word} (hv : v.getLsbD 0 = true) (s : State) :
    exec (.encStart v) s = .next { s with enc := startEnc s.enc } := by
  rw [exec_encStart, execEncStart, if_pos hv]

theorem exec_decStart_of_bit {v : Word} (hv : v.getLsbD 0 = true) (s : State) :
    exec (.decStart v) s = .next { s with dec := startDec s.dec } := by
  rw [exec_decStart, execDecStart, if_pos hv]

/-- Settles O21: with bit 0 set each start command is the start of its engine. -/
theorem startCommands : Obligations.StartCommands := by
  intro s v hv
  rw [exec_encStart_of_bit hv, exec_decStart_of_bit hv]
  refine ⟨fun hb => ?encBusy, fun hb => ⟨_, rfl, ?encStarts, fun i => ?slots, ?canonical⟩, fun hb => ?decBusy,
    fun hb => ?decStarts⟩
  case encBusy => rw [startEnc_busy hb]
  case encStarts => simp only [startEnc, if_neg hb]
  case slots => rw [startEnc_table _ hb, cellRead_nil]
  case canonical => rw [startEnc_table _ hb, Table.wf_nil]
  case decBusy => rw [startDec_busy hb]
  case decStarts => simp only [startDec, if_neg hb]

/-! ### Register writes (44 R212) -/

theorem writeEncReg_slen (e : Enc) (v : Word) :
    writeEncReg e 0 v = if e.mode = .busy then e else { e with slen := v } := rfl

theorem writeEncReg_dlen (e : Enc) (v : Word) :
    writeEncReg e 1 v = if e.mode = .busy then e else { e with dlen := v } := rfl

theorem writeEncReg_control (e : Enc) (v : Word) : writeEncReg e 2 v = if v.getLsbD 0 then startEnc e else e := rfl

/-- Numbers from 3 on are no register of the encoder the host can write. -/
theorem writeEncReg_of_ge {reg : Nat} (h : 3 ≤ reg) (e : Enc) (v : Word) : writeEncReg e reg v = e := by
  rw [writeEncReg, if_neg (by omega), if_neg (by omega), if_neg (by omega)]

theorem writeDecReg_slen (d : Dec) (v : Word) :
    writeDecReg d 5 v = if d.mode = .busy then d else { d with slen := v } := rfl

theorem writeDecReg_dcap (d : Dec) (v : Word) :
    writeDecReg d 6 v = if d.mode = .busy then d else { d with dcap := v } := rfl

theorem writeDecReg_control (d : Dec) (v : Word) : writeDecReg d 7 v = if v.getLsbD 0 then startDec d else d := rfl

/-- Numbers below 5 and from 8 on are no register of the decoder the host can write. -/
theorem writeDecReg_other {reg : Nat} (h : reg < 5 ∨ 8 ≤ reg) (d : Dec) (v : Word) : writeDecReg d reg v = d := by
  rw [writeDecReg, if_neg (by omega), if_neg (by omega), if_neg (by omega)]

/-- A write to a number below 5 is a write to the encoder. -/
theorem exec_wr_encoder {reg : Nat} (h : reg < 5) (v : Word) (s : State) :
    exec (.wr reg v) s = .next { s with enc := writeEncReg s.enc reg v } := by
  rw [exec_wr, execWr, writeDecReg_other (.inl h)]

/-- A write to a number from 5 on is a write to the decoder. -/
theorem exec_wr_decoder {reg : Nat} (h : 5 ≤ reg) (v : Word) (s : State) :
    exec (.wr reg v) s = .next { s with dec := writeDecReg s.dec reg v } := by
  rw [exec_wr, execWr, writeEncReg_of_ge (by omega)]

/-- Settles O22: every number names a register of one engine, or nothing the host can write. -/
theorem registerWriteEffect : Obligations.RegisterWriteEffect := by
  intro s v
  refine ⟨?_, ?_, ?_, ?_, ?_, ?_, fun reg hreg => ?_⟩
  · rw [exec_wr_encoder (by decide), writeEncReg_slen]
    split <;> rfl
  · rw [exec_wr_encoder (by decide), writeEncReg_dlen]
    split <;> rfl
  · rw [exec_wr_decoder (by decide), writeDecReg_slen]
    split <;> rfl
  · rw [exec_wr_decoder (by decide), writeDecReg_dcap]
    split <;> rfl
  · rw [exec_wr_encoder (by decide), writeEncReg_control]
    split
    case isTrue hv => rw [exec_encStart_of_bit hv]
    case isFalse => rfl
  · rw [exec_wr_decoder (by decide), writeDecReg_control]
    split
    case isTrue hv => rw [exec_decStart_of_bit hv]
    case isFalse => rfl
  · rw [exec_wr, execWr, writeEncReg_of_ge (by omega), writeDecReg_other (by omega)]

/-! ### Register reads (44 R213, 10 R34, R39) -/

/-- Control registers and numbers above 9 read 0. -/
theorem readReg_unreadable (s : State) {reg : Nat} (h : reg = 2 ∨ reg = 7 ∨ 9 < reg) : readReg s reg = 0 := by
  rw [readReg]
  iterate 8 rw [if_neg (by omega)]

/-- A word has no bit from `j` on when its number is below `2 ^ j`. -/
theorem wordOf_getLsbD_of_lt {n j k : Nat} (hn : n < 2 ^ j) (hk : j ≤ k) : (wordOf n).getLsbD k = false := by
  have hpow : 2 ^ j ≤ 2 ^ k := Nat.pow_le_pow_right (by decide) hk
  rw [BitVec.getLsbD_ofNat, Nat.testBit_lt_two_pow (hn.trans_le hpow), Bool.and_false]

/-- `ENC_STATUS` bit by bit (10 R34). -/
theorem encStatus_bits (e : Enc) :
    (encStatus e).getLsbD 0 = (e.mode == .busy) ∧ (encStatus e).getLsbD 1 = (e.mode == .done) ∧
      (encStatus e).getLsbD 2 = e.fallback ∧ ∀ k, 3 ≤ k → (encStatus e).getLsbD k = false := by
  unfold encStatus
  generalize e.mode = m
  generalize e.fallback = f
  have hlt : modeBits m + 4 * (if f then 1 else 0) < 2 ^ 3 := by cases m <;> cases f <;> decide
  refine ⟨?_, statusWord_done _ _, ?_, fun k => wordOf_getLsbD_of_lt hlt⟩ <;> cases m <;> cases f <;> decide

/-- `DEC_STATUS` bit by bit (10 R39). -/
theorem decStatus_bits (d : Dec) :
    (decStatus d).getLsbD 0 = (d.mode == .busy) ∧ (decStatus d).getLsbD 1 = (d.mode == .done) ∧
      (decStatus d).getLsbD 2 = (d.code == .badData) ∧ (decStatus d).getLsbD 3 = (d.code == .wouldOverflow) ∧
      ∀ k, 4 ≤ k → (decStatus d).getLsbD k = false := by
  unfold decStatus
  generalize d.mode = m
  generalize d.code = c
  have hlt : modeBits m + 4 * codeBits c < 2 ^ 4 := by cases m <;> cases c <;> decide
  refine ⟨?_, statusWord_done _ _, ?_, ?_, fun k => wordOf_getLsbD_of_lt hlt⟩ <;> cases m <;> cases c <;> decide

/-- Settles O23: a read hands `readReg` to the host, register by register. -/
theorem registerReadEffect : Obligations.RegisterReadEffect := by
  intro s reg
  refine ⟨readReg s reg, rfl, ?_, ?_, ?_, ?_, ?_, ?_, readReg_unreadable s, ?_, ?_⟩
  case refine_7 => rintro rfl; exact encStatus_bits s.enc
  case refine_8 => rintro rfl; exact decStatus_bits s.dec
  all_goals rintro rfl; rfl

/-! ### What the host commands leave unchanged -/

/-- A start command, given or not, keeps the encoder's spaces and parameters. -/
theorem startEnc_frame (b : Bool) (e : Enc) :
    (if b then startEnc e else e).src = e.src ∧ (if b then startEnc e else e).dst = e.dst ∧
      (if b then startEnc e else e).slen = e.slen ∧ (if b then startEnc e else e).dlen = e.dlen := by
  unfold startEnc
  split_ifs <;> exact ⟨rfl, rfl, rfl, rfl⟩

/-- A start command, given or not, keeps the decoder's spaces and parameters. -/
theorem startDec_frame (b : Bool) (d : Dec) :
    (if b then startDec d else d).src = d.src ∧ (if b then startDec d else d).dst = d.dst ∧
      (if b then startDec d else d).slen = d.slen ∧ (if b then startDec d else d).dcap = d.dcap := by
  unfold startDec
  split_ifs <;> exact ⟨rfl, rfl, rfl, rfl⟩

theorem writeEncReg_spaces (e : Enc) (reg : Nat) (v : Word) :
    (writeEncReg e reg v).src = e.src ∧ (writeEncReg e reg v).dst = e.dst := by
  unfold writeEncReg startEnc
  split_ifs <;> exact ⟨rfl, rfl⟩

theorem writeDecReg_spaces (d : Dec) (reg : Nat) (v : Word) :
    (writeDecReg d reg v).src = d.src ∧ (writeDecReg d reg v).dst = d.dst := by
  unfold writeDecReg startDec
  split_ifs <;> exact ⟨rfl, rfl⟩

/-- A read or a wait changes the host's side only. -/
theorem hostReads_frame {s t : State} {reg : Nat} {i : Instr} (hi : i ∈ [Instr.rd reg, .waitEnc, .waitDec])
    (h : exec i s = .next t) : t = { s with host := t.host } := by
  simp only [List.mem_cons, List.not_mem_nil, or_false] at hi
  rcases hi with rfl | rfl | rfl
  · cases h; rfl
  · have hwait : execWaitEnc s = .next t := h
    unfold execWaitEnc at hwait
    split at hwait <;> cases hwait <;> rfl
  · have hwait : execWaitDec s = .next t := h
    unfold execWaitDec at hwait
    split at hwait <;> cases hwait <;> rfl

/-- Settles O26: a command reaches one engine, whose spaces it keeps; a read or a wait reaches the host only. -/
theorem frameHostCommands : Obligations.FrameHostCommands := by
  intro s t v reg
  refine ⟨fun h => ?encStart, fun h => ?decStart, fun h => ?write, fun i hi h => ?reads⟩
  case encStart =>
    cases h
    exact ⟨rfl, rfl, rfl, rfl, startEnc_frame _ _⟩
  case decStart =>
    cases h
    exact ⟨rfl, rfl, rfl, rfl, startDec_frame _ _⟩
  case write =>
    cases h
    obtain ⟨hesrc, hedst⟩ := writeEncReg_spaces s.enc reg v
    obtain ⟨hdsrc, hddst⟩ := writeDecReg_spaces s.dec reg v
    exact ⟨rfl, rfl, rfl, hesrc, hedst, hdsrc, hddst, fun hlt => writeDecReg_other (.inl hlt) _ _,
      fun hge => writeEncReg_of_ge (by omega) _ _⟩
  case reads =>
    rw [hostReads_frame hi h]
    exact ⟨rfl, rfl, rfl, rfl⟩

end Sys2Proof.Machine
end

section
/-! PROOFS. Moves of an engine that compute a result, and a whole decoder call as `decompress` (43 R195). -/

namespace Sys2Proof.Machine

/-! ### Moves that compute a result -/

/-- An engine whose every move in a call ends it with the call's result, or leaves the same result to one move less,
ends with it; once it has ended it stays so. -/
theorem engineMoves_compute {α γ : Type} {move : α → Except Fault α} {Ends : α → γ → Prop}
    {Goes : Nat → α → γ → Prop}
    (hrest : ∀ a r, Ends a r → move a = .ok a) (hfuel : ∀ a r, ¬ Goes 0 a r)
    (hmove : ∀ n a r, Goes (n + 1) a r → ∃ a', move a = .ok a' ∧ (Ends a' r ∨ Goes n a' r)) :
    ∀ (n : Nat) (a : α) (r : γ), Ends a r ∨ Goes n a r → ∃ a', engineMoves move n a = .ok a' ∧ Ends a' r
  | 0, a, r, h => ⟨a, rfl, h.resolve_right (hfuel a r)⟩
  | n + 1, a, r, h => by
    have hnext : ∃ a', move a = .ok a' ∧ (Ends a' r ∨ Goes n a' r) :=
      h.elim (fun he => ⟨a, hrest a r he, .inl he⟩) (hmove n a r)
    obtain ⟨a', hop, h'⟩ := hnext
    obtain ⟨a'', hmoves, hend⟩ := engineMoves_compute hrest hfuel hmove n a' r h'
    exact ⟨a'', by rw [engineMoves, hop, ok_bind, hmoves], hend⟩

theorem byteAt_prefixBytes {m : Mem} {n i : Nat} (h : i < n) : byteAt (prefixBytes m n) i = cellRead m i := by
  simp [byteAt, prefixBytes, List.getD, h]

/-! ### What is still to be decompressed -/

/-- What `decompress` goes on to from the decoder's registers, with `n` iterations left. -/
def decompressFrom (n : Nat) (d : Dec) : DecompressResult :=
  refDecompressLoop (prefixBytes d.src d.slen.toNat) d.dcap.toNat n d.spos.toNat d.cmask d.cmap (produced d)

/-- What `decompress` goes on to from the decoder's registers past the frame, with `n` iterations left after this. -/
def decompressToken (n : Nat) (d : Dec) : DecompressResult :=
  refDecompressToken (prefixBytes d.src d.slen.toNat) d.dcap.toNat n d.spos.toNat d.cmask d.cmap (produced d)

/-- The call has ended with this result. -/
structure DecEnds (d : Dec) (r : DecompressResult) : Prop where
  done : d.mode = .done
  code : d.code = r.code
  count : d.count.toNat = r.count
  out : produced d = r.out

/-- The decoder in a call whose results are not written yet, with at most `n` stream bytes left. -/
structure DecCall (n : Nat) (d : Dec) : Prop where
  busy : d.mode = .busy
  count : d.count = 0
  cursor : d.spos.toNat ≤ d.slen.toNat
  fuel : d.slen.toNat ≤ d.spos.toNat + n

/-- The decoder between two steps of a call whose result will be `r`, with at most `n` stream bytes left. -/
structure DecGoes (n : Nat) (d : Dec) (r : DecompressResult) : Prop where
  call : DecCall n d
  more : d.spos.toNat < d.slen.toNat
  result : decompressFrom n d = r

/-- The call has ended with the result `r`, or goes on to it with at most `n` stream bytes left. -/
def DecLeads (n : Nat) (d : Dec) (r : DecompressResult) : Prop := DecEnds d r ∨ DecGoes n d r

theorem decompressFrom_end {n : Nat} {d : Dec} (h : d.spos = d.slen) :
    decompressFrom n d = ⟨.ok, d.dpos.toNat, produced d⟩ := by
  rw [decompressFrom, refDecompressLoop_end (by rw [prefixBytes_length, h]), produced_length]

/-- At the end of the stream the finish is the end of the call. -/
theorem DecEnds.finish {n : Nat} {d : Dec} (h : d.spos = d.slen) : DecEnds (finishDec d) (decompressFrom n d) := by
  rw [decompressFrom_end h]
  exact ⟨rfl, rfl, rfl, rfl⟩

/-- The end of a token step: the call ends where the stream is used up, else it goes on. -/
theorem DecCall.leads {n : Nat} {d : Dec} (h : DecCall n d) :
    DecLeads n (endToken d) (decompressFrom n d) := by
  by_cases hend : d.spos = d.slen
  · refine .inl ?_
    rw [endToken, finishDecIfEnd_of_end h.busy hend]
    exact { DecEnds.finish hend with }
  · have hne : d.spos.toNat ≠ d.slen.toNat := fun heq => hend (BitVec.eq_of_toNat_eq heq)
    refine .inr ?_
    rw [endToken, finishDecIfEnd_of_ne hend]
    exact ⟨{ h with }, lt_of_le_of_ne h.cursor hne, rfl⟩

/-- An abort inside a token step is the end of the call, whatever the end test. -/
theorem DecEnds.raise {n : Nat} {d : Dec} (h : DecCall n d) (c : Code) :
    DecEnds (endToken (raiseDec c d)) ⟨c, 0, produced d⟩ := by
  rw [endToken_raiseDec]
  exact ⟨rfl, rfl, congrArg BitVec.toNat h.count, rfl⟩

/-- A token that took `k` bytes of the stream and stored at the write cursor leads on from what it has produced. -/
theorem DecCall.consumed {n k : Nat} {d d' : Dec} (h : DecCall (n + 1) d) (hk : 1 ≤ k)
    (hs : d.spos.toNat + k ≤ d.slen.toNat)
    (heq : d' = { d with spos := wordOf (d.spos.toNat + k), dst := d'.dst, dpos := d'.dpos, w := d'.w }) :
    DecLeads n (endToken d') (refDecompressLoop (prefixBytes d.src d.slen.toNat) d.dcap.toNat n (d.spos.toNat + k)
      d.cmask d.cmap (produced d')) := by
  have hcur : (wordOf (d.spos.toNat + k)).toNat = d.spos.toNat + k := wordOf_toNat_of_le hs
  have hfuel := h.fuel
  have hcall : DecCall n d' := by
    rw [heq]
    exact ⟨h.busy, h.count, hcur.trans_le hs, by simp only [hcur]; omega⟩
  have hfrom : decompressFrom n d' = refDecompressLoop (prefixBytes d.src d.slen.toNat) d.dcap.toNat n
      (d.spos.toNat + k) d.cmask d.cmap (produced d') := by
    rw [decompressFrom]
    generalize produced d' = out
    rw [heq, hcur]
  exact hfrom ▸ hcall.leads

/-! ### The token (43 R183 to R188) -/

section
variable {n : Nat} {d : Dec} (h : DecCall (n + 1) d) (hs : d.spos.toNat < d.slen.toNat)
include h hs

/-- A literal ends the call for want of room, or appends its byte. -/
theorem DecCall.lit (hbit : mapBit d.cmap d.cmask = false) :
    ∃ d', decLitOp d = .ok d' ∧ DecLeads n (endToken d') (decompressToken n d) := by
  rw [decLitOp_active hs, decompressToken, refDecompressToken, prefixBytes_length, produced_length, if_neg hs.ne, hbit,
    if_neg Bool.false_ne_true, byteAt_prefixBytes hs]
  split
  case isTrue hfull => exact ⟨_, litOp_eq_ok.mpr (.inl ⟨hfull, rfl⟩), .inl (.raise h _)⟩
  case isFalse hroom =>
    rw [← produced_push (not_le.mp hroom)]
    exact ⟨_, litOp_eq_ok.mpr (.inr ⟨not_le.mp hroom, hs, rfl⟩), h.consumed (le_refl 1) hs rfl⟩

/-- A match ends the call at the first of its checks that fails, or appends its replay. -/
theorem DecCall.matchTok (hbit : mapBit d.cmap d.cmask = true) :
    ∃ d', decMatchOp d = .ok d' ∧ DecLeads n (endToken d') (decompressToken n d) := by
  rw [decompressToken, refDecompressToken, prefixBytes_length, produced_length, if_neg hs.ne, hbit, if_pos rfl]
  by_cases hcut : d.slen.toNat ≤ d.spos.toNat + 1
  · rw [if_pos (by omega)]
    exact ⟨_, decMatchOp_truncated hs hcut, .inl (.raise h _)⟩
  rw [if_neg (by omega), decMatchOp_whole (not_le.mp hcut), byteAt_prefixBytes hs, byteAt_prefixBytes (not_le.mp hcut),
    ← offOfBytes_toNat, ← lenOfByte0_toNat, ← mlenOf]
  generalize lenOfByte0 _ = len
  generalize offOfBytes _ _ = off
  obtain ⟨d', hmatch⟩ := matchOp_total len off d
  refine ⟨d', hmatch, ?_⟩
  have hmin : 3 ≤ mlenOf len := Nat.le_add_left 3 _
  have hzero : off.toNat = 0 ↔ off = 0 := ⟨fun h0 => BitVec.eq_of_toNat_eq h0, fun h0 => congrArg BitVec.toNat h0⟩
  simp only [hzero]
  rcases matchOp_cases hmatch with ⟨rfl, hbad⟩ | ⟨rfl, -, hback, hne, hfull⟩ | ⟨hs2, hback, hne, hroom, hrun⟩
  · refine .inl ?_
    rcases hbad with hshort | hfar | h0
    · omega
    · rw [if_pos hfar]
      exact .raise h _
    · rw [if_pos h0, ite_self]
      exact .raise h _
  · rw [if_neg (not_lt.mpr hback), if_neg hne, if_pos (by omega)]
    exact .inl (.raise h _)
  · obtain ⟨heq, -⟩ := replayFrom_eq_ok hrun
    have hout : produced d' = refReplay off.toNat (mlenOf len) (produced d) := (replayFrom_produced hrun).trans rfl
    rw [if_neg (not_lt.mpr hback), if_neg hne, if_neg (by omega), ← hout]
    exact h.consumed one_le_two hs2 (by rw [heq])

end

/-- The token the copy-map bit selects. -/
theorem DecCall.token {n : Nat} {d : Dec} (h : DecCall (n + 1) d) (hs : d.spos.toNat < d.slen.toNat) :
    ∃ d', (if mapBit d.cmap d.cmask then decMatchOp (selected d) else decLitOp (selected d)) = .ok d' ∧
      DecLeads n (endToken d') (decompressToken n d) := by
  have hsel : DecCall (n + 1) (selected d) := { h with }
  cases hbit : mapBit d.cmap d.cmask with
  | false => exact hsel.lit hs hbit
  | true => exact hsel.matchTok hs hbit

/-! ### The token step and the call (43 R191, R195) -/

/-- A token step is an iteration of the loop of `decompress`. -/
theorem DecGoes.step {n : Nat} {d : Dec} {r : DecompressResult} (h : DecGoes (n + 1) d r) :
    ∃ d', whenDec decStepOp d = .ok d' ∧ DecLeads n d' r := by
  obtain ⟨hcall, hs, rfl⟩ := h
  rw [whenDec_active hcall.busy hs]
  have hsrc : d.spos.toNat < (prefixBytes d.src d.slen.toNat).length := by rwa [prefixBytes_length]
  cases hg : isNewGroup (shiftMask d.cmask) with
  | false =>
    have hframed : DecCall (n + 1) { d with cmask := shiftMask d.cmask } := { hcall with }
    obtain ⟨d', htok, hleads⟩ := hframed.token hs
    refine ⟨endToken d', ?_, ?_⟩
    · rw [decStepOp_of_frame (decFrameOp_inside hg) hcall.busy, htok, ok_bind]
    · rw [decompressFrom, refDecompressLoop_inside hsrc hg]
      exact hleads
  | true =>
    have hcur : (wordOf (d.spos.toNat + 1)).toNat = d.spos.toNat + 1 := wordOf_toNat_of_le (w := d.slen) hs
    have hframe := decFrameOp_boundary hg hs
    rw [decompressFrom, refDecompressLoop_boundary hsrc hg, byteAt_prefixBytes hs]
    rcases Nat.eq_or_lt_of_le (show d.spos.toNat + 1 ≤ d.slen.toNat from hs) with hlast | hmore
    · rw [mapOp_trailing hcall.busy hlast] at hframe
      refine ⟨_, decStepOp_of_frame_ended hframe (by simp), .inl ?_⟩
      rw [refDecompressToken, prefixBytes_length, if_pos hlast, produced_length]
      exact ⟨rfl, rfl, rfl, rfl⟩
    · rw [mapOp_inside hmore] at hframe
      have hfuel := hcall.fuel
      have hframed : DecCall (n + 1) { d with
          cmask := 0x001, cmap := cellRead d.src d.spos.toNat, spos := wordOf (d.spos.toNat + 1) } :=
        ⟨hcall.busy, hcall.count, hcur.trans_le hs, by simp only [hcur]; omega⟩
      obtain ⟨d', htok, hleads⟩ := hframed.token (hcur.trans_lt hmore)
      refine ⟨endToken d', ?_, ?_⟩
      · rw [decStepOp_of_frame hframe hcall.busy, htok, ok_bind]
      · rw [decompressToken, hcur] at hleads
        exact hleads

/-- The start command begins a call that has all of `decompress` before it, or ends one of an empty stream. -/
theorem DecLeads.start {d : Dec} (hb : d.mode ≠ .busy) :
    DecLeads d.slen.toNat (startDec d) (decompress (prefixBytes d.src d.slen.toNat) d.dcap.toNat) := by
  have hmode := startDec_mode d hb
  have hspos : (startDec d).spos.toNat = 0 := congrArg BitVec.toNat (startDec_spos d hb)
  have hdpos : (startDec d).dpos.toNat = 0 := congrArg BitVec.toNat (startDec_dpos d hb)
  have hout : produced (startDec d) = [] := List.eq_nil_of_length_eq_zero (by rw [produced_length, hdpos])
  have hslen := startDec_slen d hb
  have hresult : decompressFrom d.slen.toNat (startDec d) =
      decompress (prefixBytes d.src d.slen.toNat) d.dcap.toNat := by
    rw [decompressFrom, hspos, hout, hslen, startDec_src d hb, startDec_dcap d hb, startDec_cmask d hb,
      startDec_cmap d hb, decompress, prefixBytes_length]
  rw [← hresult]
  by_cases h0 : d.slen = 0
  · rw [if_pos h0] at hmode
    rw [decompressFrom_end (by rw [startDec_spos d hb, hslen, h0]), hdpos]
    exact .inl ⟨hmode, startDec_code d hb, congrArg BitVec.toNat (startDec_count d hb), rfl⟩
  · rw [if_neg h0] at hmode
    have hpos : d.slen.toNat ≠ 0 := fun h => h0 (BitVec.eq_of_toNat_eq h)
    exact .inr ⟨⟨hmode, startDec_count d hb, by omega, by rw [hslen]; omega⟩, by rw [hslen]; omega, rfl⟩

/-- Settles O17: the start command and every token step lead to what `decompress` has still to do. -/
theorem decoderCallIsDecompress : Obligations.DecoderCallIsDecompress := by
  intro s hb
  obtain ⟨d', hmoves, hend⟩ := engineMoves_compute (move := whenDec decStepOp) (Ends := DecEnds) (Goes := DecGoes)
    (fun d r h => whenDec_not_busy (by simp [h.done]))
    (fun d r h => not_lt.mpr h.call.fuel h.more) (fun n d r h => h.step) s.dec.slen.toNat (startDec s.dec) _
    (DecLeads.start hb)
  exact ⟨_, runSteps_scheduled_decoder (s := { s with dec := startDec s.dec }) hmoves, hend.done, hend.code,
    hend.count, hend.out⟩

end Sys2Proof.Machine
end

section
/-! PROOFS. A whole encoder call as `compress` (42 R161). -/

namespace Sys2Proof.Machine

/-! ### The loop of `compress`, one iteration at a time -/

/-- The variables of `compress` after the frame of an iteration that does not fall back. -/
def refFramed (v : CompressVars) : CompressVars :=
  if isNewGroup (shiftMask v.cmask) then { v with cmask := 0x001, mapaddr := v.out.length, out := v.out ++ [0] }
  else { v with cmask := shiftMask v.cmask }

section
variable {src : List Byte} {dlen fuel : Nat} {v : CompressVars}

theorem refCompressLoop_token (h : v.spos < src.length)
    (hr : isNewGroup (shiftMask v.cmask) = true → v.out.length + 17 < dlen) :
    refCompressLoop src dlen (fuel + 1) v = refCompressLoop src dlen fuel (refToken src (refFramed v)) := by
  simp only [refCompressLoop, if_pos h, refFramed]
  split
  case isTrue hg => exact if_neg (not_le.mpr (hr hg))
  case isFalse => rfl

theorem refCompressLoop_fallback (h : v.spos < src.length) (hg : isNewGroup (shiftMask v.cmask) = true)
    (hr : dlen ≤ v.out.length + 17) : refCompressLoop src dlen (fuel + 1) v = ⟨src.length, true, v.out⟩ := by
  simp only [refCompressLoop, if_pos h, hg]
  exact if_pos hr

theorem refCompressLoop_end (h : src.length ≤ v.spos) :
    refCompressLoop src dlen fuel v = ⟨v.out.length, false, v.out⟩ := by
  cases fuel with
  | zero => rfl
  | succ fuel => rw [refCompressLoop, if_neg (not_lt.mpr h)]

end

/-! ### The encoder's registers and the variables of `compress` -/

/-- The source of the call. -/
def sourceBytes (e : Enc) : List Byte := prefixBytes e.src e.slen.toNat

/-- The bytes the call has written. -/
def written (e : Enc) : List Byte := prefixBytes e.dst e.dpos.toNat

/-- The encoder's registers, table and output are the variables of `compress`. -/
structure Mirrors (e : Enc) (v : CompressVars) : Prop where
  spos : v.spos = e.spos.toNat
  cmask : v.cmask = e.cmask
  mapaddr : v.mapaddr = e.mapaddr.toNat
  table : ∀ i : Nat, refSlot v.table i = (cellRead e.table i).toNat
  out : v.out = written e

/-- The copy-map byte of the open group stands below the write cursor and equals its shadow. -/
def MapByte (e : Enc) : Prop := e.mapaddr.toNat < e.dpos.toNat ∧ cellRead e.dst e.mapaddr.toNat = e.mapval

/-- The encoder inside a token step of a call, with `k` bytes of the destination kept for the current token besides the
room of the tokens after it. -/
structure EncCall (k : Nat) (e : Enc) : Prop where
  busy : e.mode = .busy
  noFallback : e.fallback = false
  mask : isTokenMask e.cmask = true
  room : e.dpos.toNat + k + 2 * tokensLeft e.cmask ≤ e.dlen.toNat
  mapByte : MapByte e

/-! ### The frame step (41 R140 to R142) -/

/-- The frame step frames the variables of `compress` alike. -/
theorem Mirrors.frame {e : Enc} {v : CompressVars} (h : Mirrors e v)
    (hr : isNewGroup (shiftMask e.cmask) = true → e.dpos.toNat + 17 < e.dlen.toNat) :
    Mirrors (framed e) (refFramed v) := by
  cases hg : isNewGroup (shiftMask e.cmask) with
  | false =>
    rw [framed_inside hg, refFramed, h.cmask, hg]
    exact { h with cmask := rfl }
  | true =>
    have hd : (wordOf (e.dpos.toNat + 1)).toNat = e.dpos.toNat + 1 :=
      wordOf_toNat_of_le (w := e.dlen) (Nat.lt_of_le_of_lt (Nat.le_add_right _ 17) (hr hg))
    rw [framed_boundary hg, refFramed, h.cmask, hg, if_pos rfl]
    exact { h with
      cmask := rfl
      mapaddr := by rw [h.out, written, prefixBytes_length]
      out := by rw [h.out, written, written, hd, prefixBytes_write] }

/-- After the frame step the copy-map byte of the open group equals its shadow, in an open group and in a new one. -/
theorem MapByte.frame {e : Enc} (hm : isTokenMask e.cmask = true) (hmap : e.cmask ≠ 0x080 → MapByte e)
    (hr : isNewGroup (shiftMask e.cmask) = true → e.dpos.toNat + 17 < e.dlen.toNat) : MapByte (framed e) := by
  cases hg : isNewGroup (shiftMask e.cmask) with
  | false =>
    obtain ⟨-, hne, -⟩ := shiftMask_inside hm hg
    rw [framed_inside hg]
    exact hmap hne
  | true =>
    have hroom := hr hg
    have hd : (wordOf (e.dpos.toNat + 1)).toNat = e.dpos.toNat + 1 := wordOf_toNat_of_le (w := e.dlen) (by omega)
    rw [framed_boundary hg]
    exact ⟨by simp only [hd]; omega, by simp⟩

/-! ### The token (42 R158 parts 2 to 5) -/

/-- Of the bytes below a position a write sets its own one, or none when it stands at the position or above. -/
theorem prefixBytes_set (m : Mem) (a n : Nat) (b : Byte) :
    prefixBytes (cellWrite m a b) n = (prefixBytes m n).set a b := by
  refine List.ext_getElem (by simp) fun i hi _ => ?_
  simp [prefixBytes, List.getElem_set, eq_comm]

/-- A literal token appends its byte, as `compress` does. -/
theorem Mirrors.lit {e : Enc} {v : CompressVars} (h : Mirrors e v) (hs : e.spos.toNat < e.slen.toNat)
    (hd : e.dpos.toNat < e.dlen.toNat) : Mirrors (litToken e e.w e.table) (refLit (sourceBytes e) v) where
  spos := by
    rw [litToken, wordOf_toNat_of_le (w := e.slen) hs]
    exact congrArg (· + 1) h.spos
  cmask := h.cmask
  mapaddr := h.mapaddr
  table := h.table
  out := by
    have hd' : (litToken e e.w e.table).dpos.toNat = e.dpos.toNat + 1 := wordOf_toNat_of_le (w := e.dlen) hd
    rw [written, hd', litToken, prefixBytes_write, refLit, h.out, h.spos, sourceBytes, byteAt_prefixBytes hs]
    rfl

/-- The variables of `compress` after a match of the length field `len`: its copy-map bit set, its bytes appended. -/
def refMatch (len : LenField) (off : OffField) (v : CompressVars) : CompressVars :=
  { v with
    out := orAt v.out v.mapaddr (maskBits v.cmask) ++ tokenBytes (.mat len off)
    spos := v.spos + mlenOf len }

/-- A match token sets its bit in the copy-map byte, which is the shadow's, and appends its two bytes. -/
theorem Mirrors.matchTok {e : Enc} {v : CompressVars} {len : LenField} (h : Mirrors e v) (hmap : MapByte e)
    (hs : e.spos.toNat + mlenOf len ≤ e.slen.toNat) (hd : e.dpos.toNat + 2 ≤ e.dlen.toNat) :
    Mirrors (matchToken e { e.w with len := len } e.table) (refMatch len e.w.off v) where
  spos := by
    rw [matchToken, wordOf_toNat_of_le hs]
    exact congrArg (· + _) h.spos
  cmask := h.cmask
  mapaddr := h.mapaddr
  table := h.table
  out := by
    obtain ⟨hbelow, hbyte⟩ := hmap
    have hd' : (matchToken e { e.w with len := len } e.table).dpos.toNat = e.dpos.toNat + 1 + 1 :=
      wordOf_toNat_of_le hd
    have hshadow : byteAt (written e) e.mapaddr.toNat = e.mapval := (byteAt_prefixBytes hbelow).trans hbyte
    rw [written, hd', matchToken, prefixBytes_write, prefixBytes_write, prefixBytes_set, refMatch, h.out, h.mapaddr,
      h.cmask, orAt, hshadow, List.append_assoc]
    rfl

/-! ### The match the finder accepts (40 R124 to R127, 42 R155) -/

/-- The offset in the plain numbers of `compress`. -/
theorem matchOffset_eq (spos old : Word) :
    (matchOffset spos old).toNat = (spos.toNat % 1024 + 1024 - old.toNat % 1024) % 1024 := by
  have hoff := matchOffset_toNat spos old
  omega

/-- The match finder accepts a past position, not the cursor, whose three bytes equal those at the cursor. -/
theorem found_accept_iff (e : Enc) : (found e).w.accept = true ↔
    (found e).w.off ≠ 0 ∧ (found e).w.off.toNat ≤ e.spos.toNat ∧
      ∀ k < 3, cellRead e.src (e.spos.toNat + k) = cellRead e.src (e.spos.toNat - (found e).w.off.toNat + k) := by
  have haccept : (found e).w.accept = true ↔
      (located e).w.inrange = true ∧ (located e).w.off ≠ 0 ∧ comparedWire (located e) = true :=
    acceptTest_iff _ _ _
  have hrange : (located e).w.inrange = true ↔ (found e).w.off.toNat ≤ e.spos.toNat := offsetInRange_iff _ _
  rw [haccept]
  constructor
  · rintro ⟨hr, ho, heq⟩
    have hcand : (located e).w.cand.toNat = e.spos.toNat - (found e).w.off.toNat := candidate_toNat hr
    rw [comparedWire, hr, Bool.true_and, if_pos (bne_iff_ne.mpr ho), candidateEqual_iff, hcand] at heq
    exact ⟨ho, hrange.mp hr, heq⟩
  · rintro ⟨ho, hback, heq⟩
    have hr := hrange.mpr hback
    have ho' : (located e).w.off ≠ 0 := ho
    have hcand : (located e).w.cand.toNat = e.spos.toNat - (found e).w.off.toNat := candidate_toNat hr
    refine ⟨hr, ho, ?_⟩
    rw [comparedWire, hr, Bool.true_and, if_pos (bne_iff_ne.mpr ho'), candidateEqual_iff, hcand]
    exact heq

/-- An accepted candidate stands `off` before the cursor. -/
theorem found_cand {e : Enc} (hacc : (found e).w.accept = true) :
    (found e).w.cand.toNat = e.spos.toNat - (found e).w.off.toNat :=
  candidate_toNat ((acceptTest_iff _ _ _).mp hacc).1

/-- The extender measures what the reference's extender measures. -/
theorem extendFrom_eq_refExtend {e : Enc} {off : Nat} (hc : e.w.cand.toNat = e.spos.toNat - off) : ∀ {fuel m : Nat},
    e.spos.toNat + m + fuel ≤ e.slen.toNat →
    extendFrom e fuel m = .ok (refExtend (sourceBytes e) e.spos.toNat off fuel m)
  | 0, _, _ => rfl
  | fuel + 1, m, h => by
    have h1 : e.spos.toNat + m < e.slen.toNat := by omega
    have h2 : e.spos.toNat - off + m < e.slen.toNat := by omega
    rw [extendFrom, hc, readEsrc_of_lt h1, readEsrc_of_lt h2, ok_bind, ok_bind, refExtend, sourceBytes,
      byteAt_prefixBytes h1, byteAt_prefixBytes h2]
    split
    · exact extendFrom_eq_refExtend hc (by omega)
    · rfl

theorem found_spos (e : Enc) : (found e).spos = e.spos := rfl

theorem found_slen (e : Enc) : (found e).slen = e.slen := rfl

theorem sourceBytes_found (e : Enc) : sourceBytes (found e) = sourceBytes e := rfl

theorem sourceBytes_tailGuarded (e : Enc) : sourceBytes (tailGuarded e) = sourceBytes e := rfl

/-- The match finder does not touch the destination. -/
theorem MapByte.findMatch {e : Enc} (h : MapByte e) : MapByte (found e) := ⟨h.1, h.2⟩

/-- The variables of `compress` after its lookup, in the entry the match finder reads. -/
def refLookedUp (e : Enc) (v : CompressVars) : CompressVars :=
  { v with table := ((found e).w.idx.toNat, v.spos) :: v.table }

/-- The match finder records the cursor in the entry it reads, as `compress` does, and touches nothing else. -/
theorem Mirrors.findMatch {e : Enc} {v : CompressVars} (h : Mirrors e v) : Mirrors (found e) (refLookedUp e v) where
  spos := h.spos
  cmask := h.cmask
  mapaddr := h.mapaddr
  table := fun i => by
    have htable : (found e).table = cellWrite e.table (found e).w.idx.toNat e.spos := rfl
    rw [htable, cellRead_write, refLookedUp, refSlot, h.table, h.spos]
    by_cases hi : (found e).w.idx.toNat = i
    · rw [if_pos hi, if_pos hi.symm]
    · rw [if_neg hi, if_neg (Ne.symm hi)]
  out := h.out

/-- The acceptance test of `compress` is the match finder's. -/
theorem Mirrors.accept_iff {e : Enc} {v : CompressVars} (h : Mirrors e v) (hs : e.spos.toNat + 2 < e.slen.toNat) :
    ((found e).w.off.toNat ≠ 0 ∧ (found e).w.off.toNat ≤ v.spos ∧
      byteAt (sourceBytes e) v.spos = byteAt (sourceBytes e) (v.spos - (found e).w.off.toNat) ∧
      byteAt (sourceBytes e) (v.spos + 1) = byteAt (sourceBytes e) (v.spos - (found e).w.off.toNat + 1) ∧
      byteAt (sourceBytes e) (v.spos + 2) = byteAt (sourceBytes e) (v.spos - (found e).w.off.toNat + 2)) ↔
    (found e).w.accept = true := by
  have hread : ∀ i, i ≤ e.spos.toNat + 2 → byteAt (sourceBytes e) i = cellRead e.src i := fun i hi =>
    byteAt_prefixBytes (by omega)
  have hzero : (found e).w.off.toNat ≠ 0 ↔ (found e).w.off ≠ 0 :=
    not_congr ⟨fun h0 => BitVec.eq_of_toNat_eq h0, fun h0 => congrArg BitVec.toNat h0⟩
  rw [found_accept_iff, hzero, h.spos, hread _ (by omega), hread _ (by omega), hread _ (by omega), hread _ (by omega),
    hread _ (by omega), hread _ (by omega)]
  refine and_congr_right' (and_congr_right' ⟨fun ⟨h0, h1, h2⟩ k hk => ?_, fun heq =>
    ⟨heq 0 (by decide), heq 1 (by decide), heq 2 (by decide)⟩⟩)
  match k with
  | 0 => exact h0
  | 1 => exact h1
  | 2 => exact h2

/-- The token of `compress` on the match finder's answer: a match as long as the extender measures, or a literal. -/
def refDecided (src : List Byte) (accept : Bool) (off : OffField) (v : CompressVars) : CompressVars :=
  if accept then refMatch (lenFieldOf (refExtend src v.spos off.toNat 63 3)) off v else refLit src v

/-- Before the tail the token of `compress` is decided by the match finder's answer. -/
theorem Mirrors.refToken_eq {e : Enc} {v : CompressVars} (h : Mirrors e v) (hs : e.spos.toNat + 66 ≤ e.slen.toNat) :
    refToken (sourceBytes e) v =
      refDecided (sourceBytes e) (found e).w.accept (found e).w.off (refLookedUp e v) := by
  have hread : ∀ k < 66, byteAt (sourceBytes e) (v.spos + k) = cellRead e.src (e.spos.toNat + k) := fun k hk => by
    rw [h.spos, sourceBytes, byteAt_prefixBytes (by omega)]
  have hidx : (tableIndex (hash3 (byteAt (sourceBytes e) v.spos) (byteAt (sourceBytes e) (v.spos + 1))
      (byteAt (sourceBytes e) (v.spos + 2)))).toNat = (found e).w.idx.toNat := by
    rw [hread 1 (by omega), hread 2 (by omega), ← Nat.add_zero v.spos, hread 0 (by omega)]
    rfl
  have hoff : (v.spos % 1024 + 1024 - refSlot v.table (found e).w.idx.toNat % 1024) % 1024 =
      (found e).w.off.toNat := by
    rw [h.spos, h.table]
    exact (matchOffset_eq _ _).symm
  have hlen : ¬ (sourceBytes e).length - v.spos < 66 := by rw [h.spos, sourceBytes, prefixBytes_length]; omega
  have haccept := h.accept_iff (by omega)
  obtain ⟨hmin, hmax, -⟩ := refExtend_spec (sourceBytes e) v.spos (found e).w.off.toNat 63 3
  have hmlen := mlenOf_lenFieldOf hmin hmax
  have hbytes := matchBytes_eq hmin hmax (found e).w.off.isLt
  rw [BitVec.ofNat_toNat, BitVec.setWidth_eq] at hbytes
  simp only [refToken, if_neg hlen, hidx, hoff, haccept, refDecided, refMatch, refLookedUp, orAt, hbytes, hmlen]

/-- The literal emitter answers the literal token of the wires and the table as they are. -/
theorem emitLitOp_eq_litToken {e e' : Enc} : emitLitOp e = .ok e' ↔
    e.spos.toNat < e.slen.toNat ∧ e.dpos.toNat < e.dlen.toNat ∧ e' = litToken e e.w e.table := emitLitOp_eq_ok

/-- The part of the token after the match finder emits what its answer decides. -/
theorem Mirrors.decided {e e' : Enc} {v : CompressVars} (h : Mirrors e v) (hmap : MapByte e)
    (hs : e.spos.toNat + 66 ≤ e.slen.toNat)
    (hcand : e.w.accept = true → e.w.cand.toNat = e.spos.toNat - e.w.off.toNat)
    (htok : (if e.w.accept then matchPart e else emitLitOp e) = .ok e') :
    Mirrors e' (refDecided (sourceBytes e) e.w.accept e.w.off v) := by
  rw [refDecided]
  split at htok
  case isTrue hacc =>
    obtain ⟨m, hext, -, hd, hfit, rfl⟩ := matchPart_eq_ok.mp htok
    obtain rfl := Except.ok.inj (hext.symm.trans (extendFrom_eq_refExtend (hcand hacc) hs))
    rw [if_pos hacc, h.spos]
    exact h.matchTok hmap hfit hd
  case isFalse hacc =>
    obtain ⟨hlt, hd, rfl⟩ := emitLitOp_eq_litToken.mp htok
    rw [if_neg hacc]
    exact h.lit hlt hd

/-- The token is the token of `compress`. -/
theorem Mirrors.token {e e' : Enc} {v : CompressVars} (h : Mirrors e v) (hmap : MapByte e)
    (htok : tokenOp e = .ok e') : Mirrors e' (refToken (sourceBytes e) v) := by
  have hguarded : Mirrors (tailGuarded e) v := { h with }
  cases ht : tailTest e.slen e.spos with
  | true =>
    have hlen : (sourceBytes e).length - v.spos < 66 := by
      rw [h.spos, sourceBytes, prefixBytes_length]
      exact (tailTest_iff _ _).mp ht
    rw [tokenOp_of_tail ht] at htok
    obtain ⟨hs, hd, rfl⟩ := emitLitOp_eq_litToken.mp htok
    rw [refToken, if_pos hlen]
    exact hguarded.lit hs hd
  | false =>
    have hs := (tailTest_eq_false _ _).mp ht
    have hmap' : MapByte (tailGuarded e) := hmap
    rw [tokenOp_of_not_tail ht] at htok
    rw [← sourceBytes_tailGuarded, hguarded.refToken_eq hs, ← sourceBytes_found]
    exact hguarded.findMatch.decided hmap'.findMatch (by rw [found_spos, found_slen]; exact hs) found_cand htok

/-! ### The call (42 R158 to R161) -/

/-- A token that answers takes the bytes kept for it. -/
theorem EncCall.token {e e' : Enc} (h : EncCall 2 e) (htok : tokenOp e = .ok e') :
    EncCall 0 e' ∧ e'.spos.toNat ≤ e.slen.toNat ∧ e'.dlen = e.dlen ∧ e'.src = e.src := by
  obtain ⟨hb, hnf, hmask, hroom, hbelow, hbyte⟩ := h
  obtain ⟨w, t, -, ⟨hs, hd, rfl⟩ | ⟨hs, hd, rfl⟩⟩ := tokenOp_cases htok
  · have hpos : (litToken e w t).dpos.toNat = e.dpos.toNat + 1 := wordOf_toNat_of_le hd
    have hcur : (litToken e w t).spos.toNat = e.spos.toNat + 1 := wordOf_toNat_of_le hs
    refine ⟨⟨hb, hnf, hmask, ?_, ?_, ?_⟩, hcur.trans_le hs, rfl, rfl⟩
    · rw [hpos, litToken_cmask, litToken_dlen]; omega
    · rw [hpos, litToken_mapaddr]; omega
    · simp only [litToken, cellRead_write]
      rw [if_neg hbelow.ne, hbyte]
  · have hpos : (matchToken e w t).dpos.toNat = e.dpos.toNat + 2 := wordOf_toNat_of_le hd
    have hcur : (matchToken e w t).spos.toNat = e.spos.toNat + mlenOf w.len := wordOf_toNat_of_le hs
    refine ⟨⟨hb, hnf, hmask, ?_, ?_, ?_⟩, hcur.trans_le hs, rfl, rfl⟩
    · rw [hpos, matchToken_cmask, matchToken_dlen]; omega
    · rw [hpos, matchToken_mapaddr]; omega
    · simp only [matchToken, cellRead_write]
      rw [if_neg (by omega), if_neg hbelow.ne, if_pos trivial]

/-- The call has ended with this result. -/
structure EncEnds (e : Enc) (r : CompressResult) : Prop where
  done : e.mode = .done
  fallback : e.fallback = r.fallback
  result : e.result.toNat = r.result
  out : written e = r.out

/-- The encoder between two steps of a call whose result will be `r`, with at most `n` source bytes left. -/
structure EncGoes (n : Nat) (e : Enc) (r : CompressResult) : Prop where
  busy : e.mode = .busy
  noFallback : e.fallback = false
  more : e.spos.toNat < e.slen.toNat
  fuel : e.slen.toNat ≤ e.spos.toNat + n
  mask : isTokenMask e.cmask = true
  room : e.dpos.toNat + 2 * tokensLeft e.cmask ≤ e.dlen.toNat
  mapByte : e.cmask ≠ 0x080 → MapByte e
  result : ∃ v, Mirrors e v ∧ refCompressLoop (sourceBytes e) e.dlen.toNat n v = r

/-- A frame step with headroom keeps the two bytes of the token, in an open group and in a new one. -/
theorem EncGoes.frame {n : Nat} {e : Enc} {r : CompressResult} (h : EncGoes n e r)
    (hr : isNewGroup (shiftMask e.cmask) = true → e.dpos.toNat + 17 < e.dlen.toNat) : EncCall 2 (framed e) := by
  have hroom := h.room
  have hmap := MapByte.frame h.mask h.mapByte hr
  refine ⟨by rw [framed_mode, h.busy], by rw [framed_fallback, h.noFallback], ?_, ?_, hmap⟩
  · cases hg : isNewGroup (shiftMask e.cmask) with
    | false =>
      rw [framed_inside hg]
      exact (shiftMask_inside h.mask hg).1
    | true =>
      rw [framed_boundary hg]
      rfl
  · cases hg : isNewGroup (shiftMask e.cmask) with
    | false =>
      obtain ⟨-, -, hleft, -⟩ := shiftMask_inside h.mask hg
      simp only [framed_inside hg]
      omega
    | true =>
      have hlt := hr hg
      have hd : (wordOf (e.dpos.toNat + 1)).toNat = e.dpos.toNat + 1 := wordOf_toNat_of_le (w := e.dlen) (by omega)
      have hopen : tokensLeft 0x001 = 7 := rfl
      simp only [framed_boundary hg, hd, hopen]
      omega

/-- The end of a token step: the call ends where the source is used up, else it goes on. -/
theorem EncCall.leads {n : Nat} {e : Enc} {v : CompressVars} (h : EncCall 0 e) (hv : Mirrors e v)
    (hs : e.spos.toNat ≤ e.slen.toNat) (hfuel : e.slen.toNat ≤ e.spos.toNat + n) :
    EncEnds (clearEncWires (finishEncIfEnd e)) (refCompressLoop (sourceBytes e) e.dlen.toNat n v) ∨
      EncGoes n (clearEncWires (finishEncIfEnd e)) (refCompressLoop (sourceBytes e) e.dlen.toNat n v) := by
  unfold finishEncIfEnd
  split
  case isTrue hend =>
    have hlast : (sourceBytes e).length ≤ v.spos := by rw [sourceBytes, prefixBytes_length, hv.spos, hend]
    rw [refCompressLoop_end hlast, hv.out]
    exact .inl ⟨rfl, h.noFallback, (prefixBytes_length _ _).symm, rfl⟩
  case isFalse hend =>
    have hne : e.spos.toNat ≠ e.slen.toNat := fun heq => hend (BitVec.eq_of_toNat_eq heq)
    exact .inr { h with
      more := lt_of_le_of_ne hs hne, fuel := hfuel, mapByte := fun _ => h.mapByte, result := ⟨v, { hv with }, rfl⟩ }

/-- A token step is an iteration of the loop of `compress`. -/
theorem EncGoes.step {n : Nat} {e : Enc} {r : CompressResult} (h : EncGoes (n + 1) e r) :
    ∃ e', whenEnc encStepOp e = .ok e' ∧ (EncEnds e' r ∨ EncGoes n e' r) := by
  obtain ⟨v, hv, rfl⟩ := h.result
  have hmore : v.spos < (sourceBytes e).length := by rw [sourceBytes, prefixBytes_length, hv.spos]; exact h.more
  have hout : v.out.length = e.dpos.toNat := by rw [hv.out, written, prefixBytes_length]
  rw [whenEnc_active h.busy h.more]
  rcases headroom_cases e with ⟨hg, hr⟩ | hr
  · refine ⟨_, encStepOp_of_no_headroom hg hr, .inl ?_⟩
    rw [refCompressLoop_fallback hmore (by rw [hv.cmask, hg]) (by rw [hout]; exact hr), hv.out]
    exact ⟨rfl, rfl, (prefixBytes_length _ _).symm, rfl⟩
  · have hcall := h.frame hr
    have hroom := hcall.room
    have hbelow := hcall.mapByte.1
    obtain ⟨e1, htok⟩ := tokenOp_total (e := framed e) (by simpa using h.more) (by omega) (by omega)
    obtain ⟨hcall1, hin, hdlen, hsrc⟩ := hcall.token htok
    obtain ⟨hspos, -, hslen⟩ := tokenOp_progress htok
    have hv1 := (hv.frame hr).token hcall.mapByte htok
    have hsource : sourceBytes (framed e) = sourceBytes e := by rw [sourceBytes, framed_slen, framed_src, sourceBytes]
    have hsource1 : sourceBytes e1 = sourceBytes e := by rw [← hsource, sourceBytes, hslen, hsrc, sourceBytes]
    have hfuel := h.fuel
    rw [framed_slen] at hin hslen
    rw [framed_spos] at hspos
    rw [framed_dlen] at hdlen
    rw [hsource] at hv1
    refine ⟨clearEncWires (finishEncIfEnd e1), ?_, ?_⟩
    · rw [encStepOp_of_frame (frameOp_of_headroom ⟨h.busy, h.more⟩ hr) hcall.busy, htok]
      rfl
    · rw [refCompressLoop_token hmore (by rw [hv.cmask, hout]; exact hr), ← hsource1, ← hdlen]
      exact hcall1.leads (hsource1 ▸ hv1) (hslen ▸ hin) (by rw [hslen]; omega)

/-- The start command begins a call that has all of `compress` before it, or ends one of an empty source. -/
theorem startEnc_leads {e : Enc} (hb : e.mode ≠ .busy) :
    EncEnds (startEnc e) (compress (sourceBytes e) e.dlen.toNat) ∨
      EncGoes e.slen.toNat (startEnc e) (compress (sourceBytes e) e.dlen.toNat) := by
  have hmode := startEnc_mode e hb
  have hspos : (startEnc e).spos.toNat = 0 := congrArg BitVec.toNat (startEnc_spos e hb)
  have hdpos : (startEnc e).dpos.toNat = 0 := congrArg BitVec.toNat (startEnc_dpos e hb)
  have hslen := startEnc_slen e hb
  have hcmask := startEnc_cmask e hb
  have hout : written (startEnc e) = [] := List.eq_nil_of_length_eq_zero (by rw [written, prefixBytes_length, hdpos])
  by_cases h0 : e.slen = 0
  · have hnone : sourceBytes e = [] := List.eq_nil_of_length_eq_zero (by rw [sourceBytes, prefixBytes_length, h0]; rfl)
    rw [hnone]
    exact .inl ⟨by rw [hmode, if_pos h0], startEnc_fallback e hb, congrArg BitVec.toNat (startEnc_result e hb),
      hout⟩
  · have hpos : e.slen.toNat ≠ 0 := fun h => h0 (BitVec.eq_of_toNat_eq h)
    have hmirrors : Mirrors (startEnc e) ⟨0, 0x080, 0, [], []⟩ :=
      { spos := hspos.symm, cmask := hcmask.symm
        mapaddr := (congrArg BitVec.toNat (startEnc_mapaddr e hb)).symm
        table := fun i => by rw [startEnc_table e hb, cellRead_nil]; rfl
        out := hout.symm }
    have hsource : sourceBytes (startEnc e) = sourceBytes e := by
      rw [sourceBytes, hslen, startEnc_src e hb, sourceBytes]
    exact .inr
      { busy := by rw [hmode, if_neg h0]
        noFallback := startEnc_fallback e hb
        more := by rw [hspos, hslen]; omega
        fuel := by rw [hslen]; omega
        mask := by rw [hcmask]; rfl
        room := by rw [hdpos, hcmask]; exact Nat.zero_le _
        mapByte := fun hne => absurd hcmask hne
        result := ⟨_, hmirrors, by rw [hsource, startEnc_dlen e hb, compress, sourceBytes, prefixBytes_length]⟩ }

/-- Settles O18: the start command and every token step lead to what `compress` has still to do. -/
theorem encoderCallIsCompress : Obligations.EncoderCallIsCompress := by
  intro s hb
  obtain ⟨e', hmoves, hend⟩ := engineMoves_compute (move := whenEnc encStepOp) (Ends := EncEnds) (Goes := EncGoes)
    (fun e r h => whenEnc_not_busy (by simp [h.done]))
    (fun e r h => not_lt.mpr h.fuel h.more) (fun n e r h => h.step) s.enc.slen.toNat (startEnc s.enc) _
    (startEnc_leads hb)
  exact ⟨_, runSteps_scheduled_encoder (s := { s with enc := startEnc s.enc }) hmoves, hend.done, hend.fallback,
    hend.result, hend.out⟩

end Sys2Proof.Machine
end

section
/-! PROOFS. The block has no fault: a step from an invariant state answers, and an engine that is not BUSY holds
(60_exceptions). -/

namespace Sys2Proof.Machine

/-! ### A step answers (60 R234, 20 R68, R69, R77) -/

/-- The outcomes a move can have: a next state, or the refusal of the host's touch of a space whose engine is BUSY
in `s`. -/
def AnswersOrRefuses (s : State) (o : Host.Outcome State Fault Refusal) : Prop :=
  (∃ t, o = .next t) ∨ ∃ sp : Space, o = .refused (.hostTouchesBusySpace sp) ∧ engineBusy s (spaceOwner sp) = true

theorem exec_decodeAccess_answers (a : HostAccess) (s : State) : ∃ t, exec (decodeAccess a) s = .next t := by
  cases a with
  | read reg => exact ⟨_, exec_rd reg s⟩
  | write reg v =>
    rw [decodeAccess]
    split_ifs
    · exact ⟨_, exec_encStart v s⟩
    · exact ⟨_, exec_decStart v s⟩
    · exact ⟨_, exec_wr reg v s⟩

theorem execWaitEnc_answers (s : State) : ∃ t, execWaitEnc s = .next t := by
  rw [execWaitEnc_eq]
  split <;> exact ⟨_, rfl⟩

theorem execWaitDec_answers (s : State) : ∃ t, execWaitDec s = .next t := by
  rw [execWaitDec_eq]
  split <;> exact ⟨_, rfl⟩

/-- Only a store or a load can be refused, and only while the engine that owns the space is BUSY. -/
theorem hostOpStep_answersOrRefuses (op : HostOp) (s : State) : AnswersOrRefuses s (hostOpStep op s) := by
  cases op with
  | access a => exact .inl (exec_decodeAccess_answers a s)
  | wait e =>
    cases e with
    | encoder => exact .inl (execWaitEnc_answers s)
    | decoder => exact .inl (execWaitDec_answers s)
  | store sp a b =>
    cases hb : engineBusy s (spaceOwner sp) with
    | true => exact .inr ⟨sp, hostOpStep_store_busy hb a b, hb⟩
    | false => exact .inl ⟨_, hostOpStep_store_free hb a b⟩
  | load sp a =>
    cases hb : engineBusy s (spaceOwner sp) with
    | true => exact .inr ⟨sp, hostOpStep_load_busy hb a, hb⟩
    | false => exact .inl ⟨_, hostOpStep_load_free hb a⟩
  | reset => exact .inl ⟨_, rfl⟩

/-- The host's move does not touch the engines before its operation runs. -/
theorem hostMove_answersOrRefuses (s : State) : AnswersOrRefuses s (hostMove s) := by
  unfold hostMove
  split
  case h_1 => exact .inl ⟨s, rfl⟩
  case h_2 op rest _ => exact hostOpStep_answersOrRefuses op { s with host := { s.host with prog := rest } }

/-- The encoder's token step never faults: outside a call it does nothing, inside one it makes progress. -/
theorem whenEnc_encStepOp_total {e : Enc} (hi : EncInv e) : ∃ e', whenEnc encStepOp e = .ok e' := by
  by_cases hb : e.mode = .busy
  · obtain ⟨e', hop, -⟩ := encStepOp_progress hi hb
    exact ⟨e', (whenEnc_active hb (hi.cursor hb)).trans hop⟩
  · exact ⟨e, whenEnc_not_busy hb⟩

/-- The decoder's token step never faults: outside a call it does nothing, inside one it makes progress. -/
theorem whenDec_decStepOp_total {d : Dec} (hi : DecInv d) : ∃ d', whenDec decStepOp d = .ok d' := by
  by_cases hb : d.mode = .busy
  · obtain ⟨d', hop, -⟩ := decStepOp_progress hi hb
    exact ⟨d', (whenDec_active hb (hi.cursor hb)).trans hop⟩
  · exact ⟨d, whenDec_not_busy hb⟩

theorem agentMove_answersOrRefuses {s : State} (hi : Inv s) (a : Agent) : AnswersOrRefuses s (agentMove a s) := by
  cases a with
  | host => exact hostMove_answersOrRefuses s
  | encoder =>
    obtain ⟨e, hop⟩ := whenEnc_encStepOp_total hi.enc
    exact .inl ⟨_, onEnc_of_ok hop⟩
  | decoder =>
    obtain ⟨d, hop⟩ := whenDec_decStepOp_total hi.dec
    exact .inl ⟨_, onDec_of_ok hop⟩

/-- Settles O12: whoever moves next, its move answers, or it is the host's and is refused. -/
theorem stepNeverFaults : Obligations.StepNeverFaults := by
  intro s hi
  have hi' : Inv { s with sched := (nextAgent s.sched).2 } := hi.of_engines_eq ⟨rfl, rfl⟩
  exact agentMove_answersOrRefuses hi' (nextAgent s.sched).1

/-! ### An engine that is not BUSY (60 R240, R243) -/

theorem onEnc_whenEnc_not_busy {s : State} (hb : s.enc.mode ≠ .busy) (f : Enc → Except Fault Enc) :
    onEnc (whenEnc f) s = .next s :=
  onEnc_of_ok (whenEnc_not_busy hb)

theorem onDec_whenDec_not_busy {s : State} (hb : s.dec.mode ≠ .busy) (f : Dec → Except Fault Dec) :
    onDec (whenDec f) s = .next s :=
  onDec_of_ok (whenDec_not_busy hb)

theorem whenDecBusy_not_busy {f : Dec → Except Fault Dec} {d : Dec} (hb : d.mode ≠ .busy) :
    whenDecBusy f d = .ok d :=
  if_neg hb

/-- Settles O59: every operation asks whether its engine is BUSY, LITS at each of its tokens. -/
theorem idleEngineHolds : Obligations.IdleEngineHolds := by
  intro s
  refine ⟨fun hb i hi => ?encoder, fun hb b len off toks bytes => ?decoder⟩
  case encoder => fin_cases hi <;> exact onEnc_whenEnc_not_busy hb _
  case decoder =>
    have hguarded := onDec_whenDec_not_busy hb
    have hreplay : exec .dReplay s = .next s := onDec_of_ok (whenDecBusy_not_busy hb)
    have hlits : exec (.lits bytes) s = .next s := onDec_of_ok (tokensOp_of_not_busy hb _)
    simp only [List.forall_mem_cons]
    exact ⟨hguarded _, hguarded _, hguarded _, hguarded _, hguarded _, hguarded _, hguarded _, hguarded _, hreplay,
      hguarded _, hguarded _, hlits, nofun⟩

end Sys2Proof.Machine
end

section
/-! PROOFS. The reset input: the registers from any state, and the free bytes of the calls it abandons. -/

namespace Sys2Proof.Machine

/-! ### The destination of an abandoned call (70 R261) -/

/-- How many destination bytes the reset input frees: the capacity of a call that is BUSY, none otherwise. -/
abbrev abandonedBytes (mode : Mode) (capacity : Word) : Nat :=
  if mode = .busy then capacity.toNat else 0

theorem resetBlock_enc (s : State) : (resetBlock s).enc =
    Enc.resetWith s.enc.src (havoc s.freeCtr s.enc.dst (abandonedBytes s.enc.mode s.enc.dlen)) := rfl

theorem resetBlock_dec (s : State) : (resetBlock s).dec =
    Dec.resetWith s.dec.src (havoc (s.freeCtr + abandonedBytes s.enc.mode s.enc.dlen) s.dec.dst
      (abandonedBytes s.dec.mode s.dec.dcap)) := rfl

theorem abandonedBytes_le {mode : Mode} {capacity : Word} {a : Nat} (h : mode = .busy → capacity.toNat ≤ a) :
    abandonedBytes mode capacity ≤ a := by
  unfold abandonedBytes
  split_ifs with hb
  · exact h hb
  · exact a.zero_le

theorem abandonedBytes_le_spaceSize (mode : Mode) (capacity : Word) :
    abandonedBytes mode capacity ≤ Config.spaceSize :=
  abandonedBytes_le fun _ => capacity.isLt.le

/-- Settles O10: the reset input answers `resetBlock s`, whose destinations are known from the bytes it frees. -/
theorem resetInputEffect : Obligations.ResetInputEffect := by
  intro s
  refine ⟨resetBlock s, rfl, rfl, rfl, rfl, rfl, fun a ha => ?encKept, fun a ha => ?decKept, fun hwf => ?encWf,
    fun hwf => ?decWf⟩
  case encKept =>
    rw [resetBlock_enc, encResetWith_dst]
    exact cellRead_havoc_above _ _ _ a (abandonedBytes_le ha)
  case decKept =>
    rw [resetBlock_dec, decResetWith_dst]
    exact cellRead_havoc_above _ _ _ a (abandonedBytes_le ha)
  case encWf =>
    rw [resetBlock_enc, encResetWith_dst]
    exact Memory.wf_havoc _ _ hwf _ (abandonedBytes_le_spaceSize _ _)
  case decWf =>
    rw [resetBlock_dec, decResetWith_dst]
    exact Memory.wf_havoc _ _ hwf _ (abandonedBytes_le_spaceSize _ _)

end Sys2Proof.Machine
end

section
/-! PROOFS. The match finder's hash and the length extender in plain numbers, and what the micro-operations of the two
leave unchanged. -/

namespace Sys2Proof.Machine

/-! ### What the instructions run on the encoder -/

theorem exec_eHash3 (s : State) : exec .eHash3 s = onEnc (whenEnc hash3Op) s := rfl

theorem exec_eTindex (s : State) : exec .eTindex s = onEnc (whenEnc tindexOp) s := rfl

theorem exec_eExtend (s : State) : exec .eExtend s = onEnc (whenEnc extendOp) s := rfl

/-- An instruction of the encoder that answers leaves the state as it is, or ran inside a token step. -/
theorem onEnc_whenEnc_cases {f : Enc → Except Fault Enc} {s t : State} (h : onEnc (whenEnc f) s = .next t) :
    t = s ∨ encActive s.enc ∧ ∃ e, f s.enc = .ok e ∧ t = { s with enc := e } := by
  obtain ⟨e, hwhen, rfl⟩ := onEnc_eq_next.mp h
  rcases whenEnc_eq_ok.mp hwhen with ⟨-, rfl⟩ | ⟨hb, hs, hop⟩
  · exact .inl rfl
  · exact .inr ⟨⟨hb, hs⟩, e, hop, rfl⟩

/-! ### The hash and the table index (40 R121, R122) -/

/-- The seed is the three bytes as one number of 24 bits, the first the most significant. -/
theorem hashSeed_toNat (b0 b1 b2 : Byte) :
    (hashSeed b0 b1 b2).toNat = b0.toNat * 65536 + b1.toNat * 256 + b2.toNat := by
  have h0 := b0.isLt
  have h1 := b1.isLt
  have h2 := b2.isLt
  simp only [hashSeed, BitVec.toNat_add, BitVec.toNat_shiftLeft, BitVec.toNat_setWidth, Nat.shiftLeft_eq]
  omega

/-- Mixing a seed of 24 bits does not wrap. -/
theorem hashMix_toNat {h0 : BitVec 32} (h : h0.toNat < 2 ^ 24) :
    (hashMix h0).toNat = (h0.toNat + h0.toNat / 512) + (h0.toNat + h0.toNat / 512) / 32 := by
  have hfirst : (h0 + h0 >>> 9).toNat = h0.toNat + h0.toNat / 512 := by
    rw [BitVec.toNat_add, BitVec.toNat_ushiftRight, Nat.shiftRight_eq_div_pow]
    omega
  rw [hashMix, BitVec.toNat_add, BitVec.toNat_ushiftRight, Nat.shiftRight_eq_div_pow, hfirst]
  omega

theorem tableIndex_toNat (h : BitVec 32) : (tableIndex h).toNat = h.toNat % 1024 :=
  BitVec.toNat_setWidth 10 h

/-- Settles O28: three bytes left are three reads in range, and the hash of three bytes does not wrap. -/
theorem hashAndIndex : Obligations.HashAndIndex := by
  intro s ha
  rw [exec_eHash3, exec_eTindex]
  refine ⟨fun hthree => ⟨_, onEnc_active ha (hash3Op_eq_ok.mpr ⟨hthree, rfl⟩), _, _, rfl, rfl, ?_⟩,
    tableIndex s.enc.w.h, onEnc_active ha rfl, tableIndex_toNat _⟩
  have hseed := hashSeed_toNat (cellRead s.enc.src s.enc.spos.toNat) (cellRead s.enc.src (s.enc.spos.toNat + 1))
    (cellRead s.enc.src (s.enc.spos.toNat + 2))
  rw [hash3, hashMix_toNat (by omega), hseed]

/-! ### The extender (42 R155) -/

theorem mlenOf_bounds (len : LenField) : 3 ≤ mlenOf len ∧ mlenOf len ≤ 66 := by
  have hlen := len.isLt
  unfold mlenOf
  omega

/-- From a candidate not above the cursor the extender answers, given the bytes of the longest match. -/
theorem extendOp_total {e : Enc} (hs : e.spos.toNat + 66 ≤ e.slen.toNat) (hc : e.w.cand.toNat ≤ e.spos.toNat) :
    ∃ e', extendOp e = .ok e' := by
  obtain ⟨m, hext⟩ := extendFrom_total hc (fuel := 63) (m := 3) hs
  exact ⟨_, bind_eq_ok.mpr ⟨m, hext, rfl⟩⟩

/-- Settles O39: the extender answers, and its length is as long as it can be. -/
theorem extendMeasures : Obligations.ExtendMeasures := by
  intro s ha hs hc
  obtain ⟨e', hop⟩ := extendOp_total hs hc
  obtain ⟨len, rfl, hequal, hstop⟩ := extendOp_greedy hop
  obtain ⟨hmin, hmax⟩ := mlenOf_bounds len
  rw [exec_eExtend]
  exact ⟨len, onEnc_active ha hop, hmin, hmax, hequal, hstop⟩

/-! ### What the micro-operations leave unchanged -/

/-- An operation of the encoder that drives wires only. -/
def WiresOnly (f : Enc → Except Fault Enc) : Prop := ∀ ⦃e e' : Enc⦄, f e = .ok e' → e' = { e with w := e'.w }

theorem WiresOnly.exec {f : Enc → Except Fault Enc} (hf : WiresOnly f) {s t : State}
    (h : onEnc (whenEnc f) s = .next t) : t = { s with enc := { s.enc with w := t.enc.w } } := by
  rcases onEnc_whenEnc_cases h with rfl | ⟨-, e, hop, rfl⟩
  · rfl
  · exact congrArg (fun e => { s with enc := e }) (hf hop)

theorem wiresOnly_tailguardOp : WiresOnly tailguardOp := by rintro e _ ⟨⟩; rfl

theorem wiresOnly_hash3Op : WiresOnly hash3Op := fun _ _ h => by
  obtain ⟨-, rfl⟩ := hash3Op_eq_ok.mp h
  rfl

theorem wiresOnly_tindexOp : WiresOnly tindexOp := by rintro e _ ⟨⟩; rfl

theorem wiresOnly_offsetOp : WiresOnly offsetOp := by rintro e _ ⟨⟩; rfl

theorem wiresOnly_candOp : WiresOnly candOp := by rintro e _ ⟨⟩; rfl

theorem wiresOnly_cmp3Op : WiresOnly cmp3Op := fun _ _ h => by
  obtain ⟨_, rfl⟩ := cmp3Op_frame h
  rfl

theorem wiresOnly_acceptOp : WiresOnly acceptOp := by rintro e _ ⟨⟩; rfl

theorem wiresOnly_extendOp : WiresOnly extendOp := fun _ _ h => by
  obtain ⟨_, rfl⟩ := extendOp_frame h
  rfl

/-- Settles O34: eight of the operations drive wires only, the lookup makes one write to the table, the advance moves
the cursor. -/
theorem frameMatchFinder : Obligations.FrameMatchFinder := by
  intro s t
  simp only [List.forall_mem_cons]
  refine ⟨⟨wiresOnly_tailguardOp.exec, wiresOnly_hash3Op.exec, wiresOnly_tindexOp.exec, wiresOnly_offsetOp.exec,
    wiresOnly_candOp.exec, wiresOnly_cmp3Op.exec, wiresOnly_acceptOp.exec, wiresOnly_extendOp.exec, nofun⟩,
    fun h => ?lookup, fun h => ?advance⟩
  case lookup =>
    rcases onEnc_whenEnc_cases (f := tlookupOp) h with rfl | ⟨-, e, hop, rfl⟩
    · exact ⟨rfl, fun _ _ => rfl⟩
    · cases hop
      exact ⟨rfl, fun j hj => (cellRead_write s.enc.table _ j s.enc.spos).trans (if_neg hj)⟩
  case advance =>
    rcases onEnc_whenEnc_cases (f := advanceOp) h with rfl | ⟨-, e, hop, rfl⟩
    · rfl
    · obtain ⟨-, rfl⟩ := advanceEnc_eq_ok.mp hop
      rfl

end Sys2Proof.Machine
end

section
/-! PROOFS. The framer's operations run by name, and that the encoder's token step completes. -/

namespace Sys2Proof.Machine

/-! ### The framer's operations (41 R141 to R143) -/

theorem exec_eHeadroom (s : State) : exec .eHeadroom s = onEnc (whenEnc headroomOp) s := rfl

theorem exec_eMapalloc (s : State) : exec .eMapalloc s = onEnc (whenEnc mapallocOp) s := rfl

theorem exec_eSetbit (s : State) : exec .eSetbit s = onEnc (whenEnc setbitOp) s := rfl

/-- Settles O35, from the two sides of the headroom test. -/
theorem headroomCheck : Obligations.HeadroomCheck := by
  intro s ha
  rw [exec_eHeadroom]
  exact ⟨fun hlow => onEnc_active ha (headroomOp_eq_ok.mpr (.inl ⟨Nat.le_of_lt_succ hlow, rfl⟩)),
    fun hroom => onEnc_active ha (headroomOp_eq_ok.mpr (.inr ⟨hroom, rfl⟩))⟩

/-- Settles O36: the allocation's one store, read back. -/
theorem mapByteAllocation : Obligations.MapByteAllocation := by
  intro s ha hd
  rw [exec_eMapalloc]
  exact ⟨_, onEnc_active ha (mapallocOp_eq_ok.mpr ⟨hd, rfl⟩), rfl, wordOf_toNat_of_le (w := s.enc.dlen) hd,
    fun a => cellRead_write s.enc.dst _ a 0⟩

/-- Settles O37: the write-through's one store, read back. -/
theorem setBitWritesThrough : Obligations.SetBitWritesThrough := by
  intro s ha hm
  rw [exec_eSetbit]
  exact ⟨_, onEnc_active ha (setbitOp_eq_ok.mpr ⟨hm, rfl⟩), rfl, fun a => cellRead_write s.enc.dst _ a _⟩

/-! ### The token step of a call (42 R158, R159) -/

/-- Between steps of a call a group opens only from the mask of token 7 (10 R28). -/
theorem tokenMask_boundary {m : BitVec 9} (hm : isTokenMask m = true) (hg : isNewGroup (shiftMask m) = true) :
    m = 0x080 := by
  obtain ⟨k, hk, rfl⟩ := (isTokenMask_iff m).mp hm
  revert k
  decide

/-- A frame step that did not fall back has written the copy-map byte of a new group or nothing. -/
theorem framed_dpos {e : Enc} (hr : isNewGroup (shiftMask e.cmask) = true → e.dpos.toNat + 17 < e.dlen.toNat) :
    ∃ k ≤ 1, (framed e).dpos.toNat = e.dpos.toNat + k := by
  cases hg : isNewGroup (shiftMask e.cmask) with
  | false =>
    rw [framed_inside hg]
    exact ⟨0, Nat.zero_le 1, rfl⟩
  | true =>
    rw [framed_boundary hg]
    have hroom := hr hg
    exact ⟨1, le_refl 1, wordOf_toNat_of_le (w := e.dlen) (by omega)⟩

/-- A token takes 1 byte of the source and writes 1, or takes 3 to 66 and writes 2. -/
theorem tokenOp_advances {e e' : Enc} (h : tokenOp e = .ok e') :
    ∃ n k, (n = 1 ∨ 3 ≤ n ∧ n ≤ 66) ∧ 1 ≤ k ∧ k ≤ 2 ∧ e'.spos.toNat = e.spos.toNat + n ∧
      e'.dpos.toNat = e.dpos.toNat + k := by
  obtain ⟨w, t, -, ⟨hs, hd, rfl⟩ | ⟨hs, hd, rfl⟩⟩ := tokenOp_cases h
  · exact ⟨1, 1, .inl rfl, le_refl 1, by omega, wordOf_toNat_of_le hs, wordOf_toNat_of_le hd⟩
  · exact ⟨mlenOf w.len, 2, .inr (mlenOf_bounds _), by omega, le_refl 2, wordOf_toNat_of_le hs,
      wordOf_toNat_of_le hd⟩

/-- The end test ends a call exactly when the source is used up, with the write cursor as its result (42 R159). -/
theorem finishEncIfEnd_done_iff {e : Enc} (hb : e.mode = .busy) :
    ((finishEncIfEnd e).mode = .done ↔ e.spos = e.slen) ∧
      ((finishEncIfEnd e).mode = .done → (finishEncIfEnd e).result = e.dpos) := by
  unfold finishEncIfEnd
  split
  case isTrue hend => exact ⟨iff_of_true rfl hend, fun _ => rfl⟩
  case isFalse hne => exact ⟨iff_of_false (by simp [hb]) hne, fun hdone => by simp [hb] at hdone⟩

/-- Settles O43: the step answers, and falls back, or frames and emits a token before its end test. -/
theorem encoderStepCompletes : Obligations.EncoderStepCompletes := by
  intro s hi hb
  have ha : encActive s.enc := ⟨hb, hi.cursor hb⟩
  obtain ⟨e', hop, -⟩ := encStepOp_progress hi hb
  rw [exec_eStep]
  refine ⟨_, onEnc_active ha hop, ?_⟩
  rcases encStepOp_cases ha hop with ⟨hg, hlow, rfl⟩ | ⟨hr, e1, htok, rfl⟩
  · refine .inl ⟨?_, tokenMask_boundary (hi.mask hb) hg, Nat.lt_succ_of_le hlow⟩
    rw [clearEncWires, ← hi.wires]
    rfl
  · have hmid := (hi.frame hb hr).token htok
    obtain ⟨k, hk, hframed⟩ := framed_dpos hr
    obtain ⟨n, k', hn, hk1, hk2, hspos, hdpos⟩ := tokenOp_advances htok
    obtain ⟨hdone, hresult⟩ := finishEncIfEnd_done_iff hmid.busy
    rw [framed_spos] at hspos
    refine .inr ⟨n, k + k', hn, by omega, by omega, ?_, ?_, ?_, ?_, ?_⟩
    · simpa using hspos
    · simp only [clearEncWires_dpos, finishEncIfEnd_dpos]
      omega
    · simpa using hmid.busyResult.2
    · simpa using hdone
    · simpa using hresult

end Sys2Proof.Machine
end

section
/-! PROOFS. What the storing operations of the encoder leave unchanged. -/

namespace Sys2Proof.Machine

/-! ### Bytes stored at a write cursor -/

/-- The write cursor moved from `p` to `p'`, not back, and every byte outside those it passed is as it was. -/
structure Appended (p p' : Word) (m m' : Mem) : Prop where
  forward : p.toNat ≤ p'.toNat
  others : ∀ a, a < p.toNat ∨ p'.toNat ≤ a → cellRead m' a = cellRead m a

theorem Appended.refl (p : Word) (m : Mem) : Appended p p m m := ⟨le_refl _, fun _ _ => rfl⟩

theorem Appended.trans {p p' p'' : Word} {m m' m'' : Mem} (h : Appended p p' m m') (h' : Appended p' p'' m' m'') :
    Appended p p'' m m'' where
  forward := h.forward.trans h'.forward
  others := fun a ha => by
    have hfwd := h.forward
    have hfwd' := h'.forward
    rw [h'.others a (by omega), h.others a (by omega)]

/-- One byte at the cursor. -/
theorem Appended.byte {p cap : Word} (hp : p.toNat < cap.toNat) (m : Mem) (b : Byte) :
    Appended p (wordOf (p.toNat + 1)) m (cellWrite m p.toNat b) := by
  have hnext : (wordOf (p.toNat + 1)).toNat = p.toNat + 1 := wordOf_toNat_of_le (w := cap) hp
  exact ⟨by omega, fun a ha => by rw [cellRead_write, if_neg (by omega)]⟩

/-- Two bytes from the cursor on. -/
theorem Appended.twoBytes {p cap : Word} (hp : p.toNat + 1 < cap.toNat) (m : Mem) (b0 b1 : Byte) :
    Appended p (wordOf (p.toNat + 2)) m (cellWrite (cellWrite m p.toNat b0) (p.toNat + 1) b1) := by
  have hnext : (wordOf (p.toNat + 2)).toNat = p.toNat + 2 := wordOf_toNat_of_le (w := cap) hp
  exact ⟨by omega, fun a ha => by rw [cellRead_write, if_neg (by omega), cellRead_write, if_neg (by omega)]⟩

/-! ### The frame step and the token -/

/-- A frame step inside a call falls back and stores nothing, or answers `framed`. -/
theorem frameOp_cases {e e' : Enc} (ha : encActive e) (h : frameOp e = .ok e') :
    e' = fallbackEnc { e with cmask := 0x100 } ∨
      (isNewGroup (shiftMask e.cmask) = true → e.dpos.toNat + 17 < e.dlen.toNat) ∧ e' = framed e := by
  rcases headroom_cases e with ⟨hg, hlow⟩ | hr
  · exact .inl (Except.ok.inj (h.symm.trans (frameOp_of_no_headroom hg hlow)))
  · exact .inr ⟨hr, Except.ok.inj (h.symm.trans (frameOp_of_headroom ha hr))⟩

/-- The frame step stores at the write cursor, and its copy-map byte is the open group's or a byte it stored. -/
theorem framed_appended {e : Enc} (hr : isNewGroup (shiftMask e.cmask) = true → e.dpos.toNat + 17 < e.dlen.toNat) :
    Appended e.dpos (framed e).dpos e.dst (framed e).dst ∧
      ((framed e).mapaddr = e.mapaddr ∨
        (framed e).mapaddr = e.dpos ∧ e.dpos.toNat < (framed e).dpos.toNat) := by
  cases hg : isNewGroup (shiftMask e.cmask) with
  | false =>
    rw [framed_inside hg]
    exact ⟨.refl _ _, .inl rfl⟩
  | true =>
    have hroom : e.dpos.toNat < e.dlen.toNat := Nat.lt_of_add_right_lt (hr hg)
    rw [framed_boundary hg]
    exact ⟨.byte hroom e.dst 0, .inr ⟨rfl, (wordOf_toNat_of_le (w := e.dlen) hroom).ge⟩⟩

/-- A token stores at the write cursor, after it may have rewritten the copy-map byte. -/
theorem tokenOp_appended {e e' : Enc} (h : tokenOp e = .ok e') :
    ∃ m, (∀ a, a ≠ e.mapaddr.toNat → cellRead m a = cellRead e.dst a) ∧ Appended e.dpos e'.dpos m e'.dst := by
  obtain ⟨w, t, -, ⟨-, hd, rfl⟩ | ⟨-, hd, rfl⟩⟩ := tokenOp_cases h
  · exact ⟨e.dst, fun _ _ => rfl, .byte hd _ _⟩
  · exact ⟨_, fun a ha => (cellRead_write e.dst _ a _).trans (if_neg ha), .twoBytes hd _ _ _⟩

theorem tokenOp_params {e e' : Enc} (h : tokenOp e = .ok e') :
    e'.slen = e.slen ∧ e'.dlen = e.dlen ∧ e'.src = e.src := by
  obtain ⟨w, t, -, ⟨-, -, rfl⟩ | ⟨-, -, rfl⟩⟩ := tokenOp_cases h <;> exact ⟨rfl, rfl, rfl⟩

@[simp] theorem finishEncIfEnd_src (e : Enc) : (finishEncIfEnd e).src = e.src := by
  unfold finishEncIfEnd; split <;> rfl

/-- What a token step of the encoder leaves unchanged. -/
structure EncStepKeeps (e e' : Enc) : Prop where
  slen : e'.slen = e.slen
  dlen : e'.dlen = e.dlen
  src : e'.src = e.src
  bytes : ∀ a, a ≠ e.mapaddr.toNat → a < e.dpos.toNat ∨ e'.dpos.toNat ≤ a → cellRead e'.dst a = cellRead e.dst a

theorem encStepOp_keeps {e e' : Enc} (ha : encActive e) (h : encStepOp e = .ok e') : EncStepKeeps e e' := by
  rcases encStepOp_cases ha h with ⟨-, -, rfl⟩ | ⟨hr, e1, htok, rfl⟩
  · exact ⟨rfl, rfl, rfl, fun _ _ _ => rfl⟩
  · obtain ⟨hslen, hdlen, hsrc⟩ := tokenOp_params htok
    obtain ⟨hframed, hmapaddr⟩ := framed_appended hr
    obtain ⟨m, hm, htoken⟩ := tokenOp_appended htok
    refine ⟨by simpa using hslen, by simpa using hdlen, by simpa using hsrc, fun a hne hout => ?_⟩
    have hfwd := hframed.forward
    have hfwd' := htoken.forward
    simp only [clearEncWires_dpos, finishEncIfEnd_dpos, clearEncWires_dst, finishEncIfEnd_dst] at hout ⊢
    have hmap : a ≠ (framed e).mapaddr.toNat := by
      rcases hmapaddr with heq | ⟨heq, hlt⟩
      · rwa [heq]
      · rw [heq]; omega
    rw [htoken.others a (by omega), hm a hmap, hframed.others a (by omega)]

/-! ### The instructions -/

theorem exec_eFrame_keeps {s t : State} (h : exec .eFrame s = .next t) :
    t = { s with enc := { s.enc with
      cmask := t.enc.cmask, mapaddr := t.enc.mapaddr, mapval := t.enc.mapval, dst := t.enc.dst
      dpos := t.enc.dpos, result := t.enc.result, fallback := t.enc.fallback, mode := t.enc.mode } } ∧
      Appended s.enc.dpos t.enc.dpos s.enc.dst t.enc.dst := by
  rcases onEnc_whenEnc_cases (f := frameOp) h with rfl | ⟨ha, e, hop, rfl⟩
  · exact ⟨rfl, .refl _ _⟩
  rcases frameOp_cases ha hop with rfl | ⟨hr, rfl⟩
  · exact ⟨rfl, .refl _ _⟩
  · refine ⟨?_, (framed_appended hr).1⟩
    unfold framed
    split <;> rfl

theorem exec_eMapalloc_keeps {s t : State} (h : exec .eMapalloc s = .next t) :
    t = { s with enc := { s.enc with
      cmask := t.enc.cmask, mapaddr := t.enc.mapaddr, mapval := t.enc.mapval, dst := t.enc.dst
      dpos := t.enc.dpos } } ∧
      Appended s.enc.dpos t.enc.dpos s.enc.dst t.enc.dst := by
  rcases onEnc_whenEnc_cases (f := mapallocOp) h with rfl | ⟨-, e, hop, rfl⟩
  · exact ⟨rfl, .refl _ _⟩
  · obtain ⟨hd, rfl⟩ := mapallocOp_eq_ok.mp hop
    exact ⟨rfl, .byte hd s.enc.dst 0⟩

/-- What an emitter changes: the bytes it stores and the two cursors. -/
def EmitterKeeps (s t : State) : Prop :=
  t = { s with enc := { s.enc with dst := t.enc.dst, dpos := t.enc.dpos, spos := t.enc.spos } } ∧
    Appended s.enc.dpos t.enc.dpos s.enc.dst t.enc.dst

theorem exec_eEmitLit_keeps {s t : State} (h : exec .eEmitLit s = .next t) : EmitterKeeps s t := by
  rcases onEnc_whenEnc_cases (f := emitLitOp) h with rfl | ⟨-, e, hop, rfl⟩
  · exact ⟨rfl, .refl _ _⟩
  · obtain ⟨-, hd, rfl⟩ := emitLitOp_eq_ok.mp hop
    exact ⟨rfl, .byte hd _ _⟩

theorem exec_eEmitMatch_keeps {s t : State} (h : exec .eEmitMatch s = .next t) : EmitterKeeps s t := by
  rcases onEnc_whenEnc_cases (f := emitMatchOp) h with rfl | ⟨-, e, hop, rfl⟩
  · exact ⟨rfl, .refl _ _⟩
  · obtain ⟨hd, -, rfl⟩ := emitMatchOp_eq_ok.mp hop
    exact ⟨rfl, .twoBytes hd _ _ _⟩

/-- Settles O45, instruction by instruction; the token step is its frame step and its token. -/
theorem frameEncoderStores : Obligations.FrameEncoderStores := by
  intro s t
  simp only [List.forall_mem_cons]
  refine ⟨fun h => ?headroom, fun h => (exec_eMapalloc_keeps h).1, fun h => (exec_eFrame_keeps h).1,
    fun h => ?setbit, ⟨fun h => (exec_eEmitLit_keeps h).1, fun h => (exec_eEmitMatch_keeps h).1, nofun⟩,
    ⟨fun h => (exec_eMapalloc_keeps h).2.others, fun h => (exec_eFrame_keeps h).2.others,
      fun h => (exec_eEmitLit_keeps h).2.others, fun h => (exec_eEmitMatch_keeps h).2.others, nofun⟩,
    fun h => ?step⟩
  case headroom =>
    rcases onEnc_whenEnc_cases (f := headroomOp) h with rfl | ⟨-, e, hop, rfl⟩
    · rfl
    · obtain ⟨-, rfl⟩ | ⟨-, rfl⟩ := headroomOp_eq_ok.mp hop <;> rfl
  case setbit =>
    rcases onEnc_whenEnc_cases (f := setbitOp) h with rfl | ⟨-, e, hop, rfl⟩
    · exact ⟨rfl, fun _ _ => rfl⟩
    · obtain ⟨-, rfl⟩ := setbitOp_eq_ok.mp hop
      exact ⟨rfl, fun a ha => (cellRead_write s.enc.dst _ a _).trans (if_neg ha)⟩
  case step =>
    rcases onEnc_whenEnc_cases (f := encStepOp) h with rfl | ⟨ha, e, hop, rfl⟩
    · exact ⟨rfl, fun _ _ _ => rfl⟩
    · obtain ⟨hslen, hdlen, hsrc, hbytes⟩ := encStepOp_keeps ha hop
      exact ⟨by rw [← hslen, ← hdlen, ← hsrc], hbytes⟩

end Sys2Proof.Machine
end

section
/-! PROOFS. The order of the checks on a match, and what the decoder's elements and operations leave unchanged. -/

namespace Sys2Proof.Machine

/-! ### The checks on a match (43 R184 to R188) -/

theorem exec_matchReserved (len : LenField) (s : State) :
    exec (.matchReserved len) s = onDec (whenDec (matchOp len 0)) s := rfl

/-- Settles O49, from the two raises of a match; the reserved row is the match of offset 0. -/
theorem matchCheckOrder : Obligations.MatchCheckOrder := by
  intro s len off ha
  rw [exec_matchTok, exec_matchReserved]
  have hzero : off.toNat = 0 ↔ off = 0 := BitVec.toNat_inj (y := 0#10)
  refine ⟨fun hbad => ?badData, fun hs hpos hback hlong => ?wouldOverflow,
    onDec_active ha (matchOp_badData (.inr (.inr rfl)))⟩
  case badData =>
    rw [hzero] at hbad
    exact onDec_active ha (matchOp_badData (hbad.imp_left fun hcut => by omega))
  case wouldOverflow =>
    have hne : off ≠ 0 := hzero.not.mp (by omega)
    exact onDec_active ha (matchOp_wouldOverflow (by omega) hback hne (by omega))

/-! ### Operations that store at the write cursor -/

/-- The step from `d` to `d'` kept the parameters and the stream, and stored at the write cursor only. -/
structure DecStores (d d' : Dec) : Prop where
  slen : d'.slen = d.slen
  dcap : d'.dcap = d.dcap
  src : d'.src = d.src
  bytes : Appended d.dpos d'.dpos d.dst d'.dst

theorem DecStores.refl (d : Dec) : DecStores d d := ⟨rfl, rfl, rfl, .refl _ _⟩

theorem DecStores.trans {d d' d'' : Dec} (h : DecStores d d') (h' : DecStores d' d'') : DecStores d d'' :=
  ⟨h'.slen.trans h.slen, h'.dcap.trans h.dcap, h'.src.trans h.src, h.bytes.trans h'.bytes⟩

theorem DecStores.raise (c : Code) (d : Dec) : DecStores d (raiseDec c d) := ⟨rfl, rfl, rfl, .refl _ _⟩

theorem DecStores.clearWires (d : Dec) : DecStores d (clearDecWires d) := ⟨rfl, rfl, rfl, .refl _ _⟩

theorem DecStores.finishIfEnd (d : Dec) : DecStores d (finishDecIfEnd d) := by
  unfold finishDecIfEnd
  split
  case isTrue => exact ⟨rfl, rfl, rfl, .refl _ _⟩
  case isFalse => exact .refl d

theorem DecStores.endToken (d : Dec) : DecStores d (endToken d) :=
  (finishIfEnd d).trans (clearWires _)

/-- An operation of the decoder every answer of which stored at the write cursor only. -/
def StoresOnly (f : Dec → Except Fault Dec) : Prop := ∀ ⦃d d' : Dec⦄, f d = .ok d' → DecStores d d'

theorem StoresOnly.bind {f g : Dec → Except Fault Dec} (hf : StoresOnly f) (hg : StoresOnly g) :
    StoresOnly fun d => f d >>= g := fun _ _ h => by
  obtain ⟨d1, h1, h2⟩ := bind_eq_ok.mp h
  exact (hf h1).trans (hg h2)

theorem StoresOnly.whenDec {f : Dec → Except Fault Dec} (hf : StoresOnly f) : StoresOnly (whenDec f) := fun d d' h => by
  rcases whenDec_eq_ok.mp h with ⟨-, rfl⟩ | ⟨-, -, hop⟩
  · exact .refl d'
  · exact hf hop

theorem StoresOnly.whenDecBusy {f : Dec → Except Fault Dec} (hf : StoresOnly f) : StoresOnly (whenDecBusy f) :=
  fun d d' h => by
    unfold Machine.whenDecBusy at h
    split at h
    case isTrue => exact hf h
    case isFalse => cases h; exact .refl d

theorem replayFrom_stores {off n : Nat} {d d' : Dec} (h : replayFrom off n d = .ok d') : DecStores d d' := by
  obtain ⟨heq, hpos, hothers⟩ := replayFrom_eq_ok h
  exact ⟨by rw [heq], by rw [heq], by rw [heq], by omega, fun a ha => hothers a (by omega)⟩

theorem storesOnly_mapOp (bits : Byte) : StoresOnly (mapOp bits) := fun d d' h => by
  obtain ⟨-, rfl⟩ := mapOp_eq_ok.mp h
  exact { DecStores.finishIfEnd _ with }

theorem storesOnly_litOp (b : Byte) : StoresOnly (litOp b) := fun d d' h => by
  rcases litOp_eq_ok.mp h with ⟨-, rfl⟩ | ⟨hroom, -, rfl⟩
  · exact .raise _ d
  · exact ⟨rfl, rfl, rfl, .byte hroom _ _⟩

theorem storesOnly_matchOp (len : LenField) (off : OffField) : StoresOnly (matchOp len off) := fun d d' h => by
  rcases matchOp_cases h with ⟨rfl, -⟩ | ⟨rfl, -⟩ | ⟨-, -, -, -, hreplay⟩
  · exact .raise _ d
  · exact .raise _ d
  · exact { replayFrom_stores hreplay with }

theorem storesOnly_elementOp (i : Instr) : StoresOnly (elementOp i) := by
  cases i with
  | map bits => exact storesOnly_mapOp bits
  | lit b => exact storesOnly_litOp b
  | matchTok len off => exact storesOnly_matchOp len off
  | matchReserved len => exact storesOnly_matchOp len 0
  | _ => exact fun d _ h => Except.ok.inj h ▸ .refl d

theorem storesOnly_decFrameOp : StoresOnly decFrameOp := fun d d' h => by
  simp only [decFrameOp] at h
  split at h
  case isTrue =>
    split at h
    · exact { storesOnly_elementOp _ h with }
    · cases h
  case isFalse => cases h; exact ⟨rfl, rfl, rfl, .refl _ _⟩

theorem storesOnly_decLitOp : StoresOnly decLitOp := fun d d' h => by
  unfold decLitOp at h
  split at h
  · exact storesOnly_elementOp _ h
  · cases h

theorem storesOnly_decMatchOp : StoresOnly decMatchOp := fun d d' h => by
  unfold decMatchOp at h
  split at h
  · exact storesOnly_elementOp _ h
  · cases h; exact .raise _ d

theorem storesOnly_decStepOp : StoresOnly decStepOp := fun d d' h => by
  obtain ⟨d1, hframe, hcase⟩ := decStepOp_cases h
  refine (storesOnly_decFrameOp hframe).trans ?_
  rcases hcase with ⟨-, rfl⟩ | ⟨-, d2, htok, rfl⟩
  · exact .clearWires d1
  · refine DecStores.trans ?_ (.endToken d2)
    split at htok
    case isTrue => exact { storesOnly_decMatchOp htok with }
    case isFalse => exact { storesOnly_decLitOp htok with }

theorem storesOnly_replayOp : StoresOnly replayOp := fun _ _ h => replayFrom_stores h

theorem storesOnly_runToken (t : Token) : StoresOnly (runToken t) := by
  cases t with
  | lit b => exact storesOnly_litOp b
  | mat len off => exact storesOnly_matchOp len off

theorem storesOnly_tokenStepOp (t : Token) : StoresOnly (tokenStepOp t) := fun d d' h => by
  obtain ⟨d1, hrun, rfl⟩ := tokenStepOp_eq_ok.mp h
  exact DecStores.trans { storesOnly_runToken t hrun with } (.endToken d1)

theorem storesOnly_tokensOp : ∀ ts : List Token, StoresOnly (tokensOp ts)
  | [] => fun d _ h => Except.ok.inj h ▸ .refl d
  | t :: ts => (storesOnly_tokenStepOp t).whenDec.bind (storesOnly_tokensOp ts)

theorem storesOnly_groupOp : ∀ toks : List Token, StoresOnly (groupOp toks)
  | [] => (storesOnly_mapOp _).bind fun d _ h => Except.ok.inj h ▸ .refl d
  | t :: ts =>
    have hend : StoresOnly fun d => .ok (endToken d) := fun d _ h => Except.ok.inj h ▸ .endToken d
    (storesOnly_mapOp _).bind (((storesOnly_runToken t).bind hend).whenDec.bind (storesOnly_tokensOp ts))

/-- The instruction of such an operation keeps all that the operation keeps. -/
theorem StoresOnly.exec {f : Dec → Except Fault Dec} (hf : StoresOnly f) {s t : State} (h : onDec f s = .next t) :
    t = { s with dec := { t.dec with slen := s.dec.slen, dcap := s.dec.dcap, src := s.dec.src } } ∧
      ∀ a, a < s.dec.dpos.toNat ∨ t.dec.dpos.toNat ≤ a → cellRead t.dec.dst a = cellRead s.dec.dst a := by
  obtain ⟨d, hop, rfl⟩ := onDec_eq_next.mp h
  obtain ⟨hslen, hdcap, hsrc, hbytes⟩ := hf hop
  exact ⟨by rw [← hslen, ← hdcap, ← hsrc], hbytes.others⟩

/-! ### The registers an element or operation changes -/

/-- An instruction of the decoder that answers leaves the state as it is, or ran inside a token step. -/
theorem onDec_whenDec_cases {f : Dec → Except Fault Dec} {s t : State} (h : onDec (whenDec f) s = .next t) :
    t = s ∨ decActive s.dec ∧ ∃ d, f s.dec = .ok d ∧ t = { s with dec := d } := by
  obtain ⟨d, hwhen, rfl⟩ := onDec_eq_next.mp h
  rcases whenDec_eq_ok.mp hwhen with ⟨-, rfl⟩ | ⟨hb, hs, hop⟩
  · exact .inl rfl
  · exact .inr ⟨⟨hb, hs⟩, d, hop, rfl⟩

/-- `d` with the registers of a map element as in `d'`: mask, copy map, cursor, and the results (43 R180, R181). -/
def withMapRegisters (d d' : Dec) : Dec :=
  { d with
    cmask := d'.cmask, cmap := d'.cmap, spos := d'.spos, count := d'.count, code := d'.code, mode := d'.mode }

/-- `d` with what a literal changes as in `d'`: destination and cursors, code and mode (43 R183). -/
def withLitRegisters (d d' : Dec) : Dec :=
  { d with dst := d'.dst, dpos := d'.dpos, spos := d'.spos, code := d'.code, mode := d'.mode }

/-- `d` with what a match changes as in `d'`: what a literal changes, and the wires of the two fields (43 R184). -/
def withMatchRegisters (d d' : Dec) : Dec :=
  { withLitRegisters d d' with w := { d.w with len := d'.w.len, off := d'.w.off } }

theorem mapOp_registers {bits : Byte} {d d' : Dec} (h : mapOp bits d = .ok d') : d' = withMapRegisters d d' := by
  obtain ⟨-, rfl⟩ := mapOp_eq_ok.mp h
  unfold finishDecIfEnd
  split <;> rfl

theorem decFrameOp_registers {d d' : Dec} (hs : d.spos.toNat < d.slen.toNat) (h : decFrameOp d = .ok d') :
    d' = withMapRegisters d d' := by
  cases hg : isNewGroup (shiftMask d.cmask) with
  | false =>
    rw [decFrameOp_inside hg] at h
    cases h
    rfl
  | true => exact mapOp_registers (decFrameOp_boundary hg hs ▸ h)

theorem litOp_registers {b : Byte} {d d' : Dec} (h : litOp b d = .ok d') : d' = withLitRegisters d d' := by
  rcases litOp_eq_ok.mp h with ⟨-, rfl⟩ | ⟨-, -, rfl⟩ <;> rfl

theorem matchOp_registers {len : LenField} {off : OffField} {d d' : Dec} (h : matchOp len off d = .ok d') :
    d' = withMatchRegisters d d' := by
  rcases matchOp_cases h with ⟨rfl, -⟩ | ⟨rfl, -⟩ | ⟨-, -, -, -, hreplay⟩
  · rfl
  · rfl
  · obtain ⟨heq, -⟩ := replayFrom_eq_ok hreplay
    rw [heq]
    rfl

theorem decMatchOp_registers {d d' : Dec} (hs : d.spos.toNat < d.slen.toNat) (h : decMatchOp d = .ok d') :
    d' = withMatchRegisters d d' := by
  by_cases hwhole : d.spos.toNat + 1 < d.slen.toNat
  · exact matchOp_registers (decMatchOp_whole hwhole ▸ h)
  · rw [decMatchOp_truncated hs (not_lt.mp hwhole)] at h
    cases h
    rfl

/-- If inside a token step an operation changes only what `put` takes over from its answer, so does its instruction. -/
theorem exec_of_registers (put : Dec → Dec → Dec) (hid : ∀ d, put d d = d) {f : Dec → Except Fault Dec}
    (hf : ∀ {d d'}, d.spos.toNat < d.slen.toNat → f d = .ok d' → d' = put d d') {s t : State}
    (h : onDec (whenDec f) s = .next t) : t = { s with dec := put s.dec t.dec } := by
  rcases onDec_whenDec_cases h with rfl | ⟨ha, d, hop, rfl⟩
  · rw [hid]
  · exact congrArg (fun d => { s with dec := d }) (hf ha.2 hop)

theorem exec_matchReserved_registers {len : LenField} {s t : State} (h : exec (.matchReserved len) s = .next t) :
    t = { s with dec := { s.dec with code := t.dec.code, mode := t.dec.mode } } := by
  rcases onDec_whenDec_cases (f := matchOp len 0) h with rfl | ⟨-, d, hop, rfl⟩
  · rfl
  · rw [matchOp_badData (.inr (.inr rfl))] at hop
    cases hop
    rfl

theorem exec_dSelect_registers {s t : State} (h : exec .dSelect s = .next t) :
    t = { s with dec := { s.dec with w := { s.dec.w with ismatch := t.dec.w.ismatch } } } := by
  rcases onDec_whenDec_cases (f := selectOp) h with rfl | ⟨-, d, hop, rfl⟩
  · rfl
  · cases hop
    rfl

theorem exec_dReplay_registers {s t : State} (h : exec .dReplay s = .next t) :
    t = { s with dec := { s.dec with dst := t.dec.dst, dpos := t.dec.dpos } } := by
  obtain ⟨d, hop, rfl⟩ := onDec_eq_next.mp h
  by_cases hb : s.dec.mode = .busy
  · have hreplay : replayOp s.dec = .ok d := (if_pos hb).symm.trans hop
    exact congrArg (fun d => { s with dec := d }) (replayFrom_eq_ok hreplay).1
  · rw [whenDecBusy_not_busy hb] at hop
    cases hop
    rfl

/-- Settles O54: each form's registers, and that every form that stores does so at the write cursor. -/
theorem frameDecoder : Obligations.FrameDecoder := by
  intro s t b len off toks bytes
  have hlits := storesOnly_tokensOp (bytes.map .lit)
  have hgroup := (storesOnly_groupOp toks).whenDec
  have hstep := storesOnly_decStepOp.whenDec
  simp only [List.forall_mem_cons]
  refine ⟨⟨?map, ?dFrame, List.forall_mem_nil _⟩, ⟨?lit, ?dLit, List.forall_mem_nil _⟩,
    ⟨?mat, ?dMatch, List.forall_mem_nil _⟩, exec_matchReserved_registers, exec_dSelect_registers,
    exec_dReplay_registers,
    ⟨fun h => (hstep.exec h).1, fun h => (hgroup.exec h).1, fun h => (hlits.exec h).1, List.forall_mem_nil _⟩,
    fun h => ((storesOnly_litOp b).whenDec.exec h).2, fun h => ((storesOnly_matchOp len off).whenDec.exec h).2,
    fun h => (storesOnly_decLitOp.whenDec.exec h).2, fun h => (storesOnly_decMatchOp.whenDec.exec h).2,
    fun h => (storesOnly_replayOp.whenDecBusy.exec h).2, fun h => (hstep.exec h).2, fun h => (hgroup.exec h).2,
    fun h => (hlits.exec h).2, List.forall_mem_nil _⟩
  case map => exact exec_of_registers withMapRegisters (fun _ => rfl) (fun _ => mapOp_registers)
  case dFrame => exact exec_of_registers withMapRegisters (fun _ => rfl) decFrameOp_registers
  case lit => exact exec_of_registers withLitRegisters (fun _ => rfl) (fun _ => litOp_registers)
  case dLit =>
    exact exec_of_registers withLitRegisters (fun _ => rfl) fun hs h => litOp_registers (decLitOp_active hs ▸ h)
  case mat => exact exec_of_registers withMatchRegisters (fun _ => rfl) (fun _ => matchOp_registers)
  case dMatch => exact exec_of_registers withMatchRegisters (fun _ => rfl) decMatchOp_registers

end Sys2Proof.Machine
end
